-- ==== Sys2Proof/Word.lean ====
section
/-! DEFINITION. The word types of the CORE: the 32-bit word, the byte, and the 5-bit register index
(00_scope.md R8, R10, R11; 10_state.md R21). -/

namespace Sys2Proof

/-- A 32-bit value: a general register, `pc`, `SR`, `HI`, `LO`, an address or an instruction word (R8). -/
abbrev Word := BitVec 32

/-- The smallest addressable unit of memory. -/
abbrev Byte := BitVec 8

/-- A register index: "a validated 0–31 register identifier" (R21). Every value of the type is valid. -/
abbrev RegIdx := BitVec 5

end Sys2Proof
end

