-- ==== Sys2Proof/Config.lean ====
section
/-! DEFINITION. What an implementation fixes and what the spec leaves free (00_scope.md R9): the launch parameters
with a default, and the free values, which are opaque constants so that no proof can see them. -/

namespace Sys2Proof

/-- The owners of the physical windows (20_memory.md R61). -/
inductive Device where
  | ram | exp1 | scratch | memctl | ramsize | irq | dma | timers | cdrom | gpu | spu | exp2 | bios | cachectl
  deriving DecidableEq, Repr

/-- The three access widths of the Interconnect: 1, 2 and 4 bytes (R51). -/
inductive Width where
  | byte | half | word
  deriving DecidableEq, Repr

/-- The direction of an access (R55, R60). -/
inductive Dir where
  | load | store
  deriving DecidableEq, Repr

/-- What an external device has seen (R68): the loads and stores handed to it, and the host's device stepping
(60_exceptions.md R304). -/
inductive DeviceEvent where
  /-- A load of `n` bytes at offset `off` was handed to the device. -/
  | loaded (dev : Device) (off : Nat) (n : Width)
  /-- A store of the low bytes `v` at offset `off` was handed to the device: "recorded as an event (dev, off, n, v)". -/
  | stored (dev : Device) (off : Nat) (n : Width) (v : Word)
  /-- The host's frame loop advanced the device by `cycles`. -/
  | stepped (dev : Device) (cycles : Nat)
  deriving DecidableEq, Repr

/-- The parameter `REGIMM_DECODE` (R9, R100): how opcode 1 decodes its rt field. -/
inductive RegimmDecode where
  | canonical | r3000a
  deriving DecidableEq, Repr

/-- The parameter `DISPATCH_SET` (R9, R98): all 58 instructions, or the 30 of the `source` rows. -/
inductive DispatchSet where
  | full | sourceRows
  deriving DecidableEq, Repr

namespace Config

/-- `REGIMM_DECODE` at the spec's default (R9). -/
def regimmDecode : RegimmDecode := .canonical

/-- `DISPATCH_SET` at the spec's default (R9). -/
def dispatchSet : DispatchSet := .full

/-- FREE VALUE. `DEVICE_ACCEPTS(dev, off, n, dir)` (R9, R68): OPEN in the spec, no default. -/
opaque deviceAccepts : Device → Nat → Width → Dir → Bool

/-- FREE VALUE. The oracle `DEVICE_READ(dev, off, n, history)` (R9, R68). Each load lengthens the history it is
applied to, so that no two loads of a run share a draw. -/
opaque deviceRead : Device → Nat → Width → List DeviceEvent → Word

/-- FREE VALUE. The committed bank left in the state halted by an execute-phase fatal condition (R132). -/
opaque haltedCommitted : Nat → Vector Word 32

/-- FREE VALUE. The output bank left in that state (R132). -/
opaque haltedOutput : Nat → Vector Word 32

/-- FREE VALUE. `HI` left in that state (R132). -/
opaque haltedHi : Nat → Word

/-- FREE VALUE. `LO` left in that state (R132). -/
opaque haltedLo : Nat → Word

/-- FREE VALUE. `SR` left in that state (R132). -/
opaque haltedSr : Nat → Word

/-- FREE VALUE. The load-delay slot left in that state (R132). -/
opaque haltedLoad : Nat → Option (RegIdx × Word)

end Config
end Sys2Proof
end

