-- ==== Sys2Proof/Syntax.lean ====
section
/-! DEFINITION. The instructions: one constructor per row of opcode_table.json (the 58 admitted instructions and
the 18 named fatal forms), over the three formats of 30_encoding.md R92. -/

namespace Sys2Proof

/-- The R-type fields (R91, R92). An instruction that does not use one of them still carries it, because the
fatal record keeps the whole word (60_exceptions.md R291); R96 says it has no other effect. -/
structure RType where
  rs : RegIdx
  rt : RegIdx
  rd : RegIdx
  shamt : BitVec 5
  deriving DecidableEq, Repr

/-- The I-type fields (R91, R92). -/
structure IType where
  rs : RegIdx
  rt : RegIdx
  imm : BitVec 16
  deriving DecidableEq, Repr

/-- The fields of a coprocessor-0 register move: the general register, the coprocessor-0 register number and the
ignored bits 10:0 (R92, R96, R260). -/
structure CopType where
  rt : RegIdx
  rd : RegIdx
  low : BitVec 11
  deriving DecidableEq, Repr

/-- The instructions, in the order of opcode_table.json. -/
inductive Instr where
  -- SPECIAL (R99)
  | sll (f : RType) | srl (f : RType) | sra (f : RType) | sllv (f : RType) | srlv (f : RType) | srav (f : RType)
  | jr (f : RType) | jalr (f : RType)
  | mfhi (f : RType) | mthi (f : RType) | mflo (f : RType) | mtlo (f : RType)
  | mult (f : RType) | multu (f : RType) | div (f : RType) | divu (f : RType)
  | add (f : RType) | addu (f : RType) | sub (f : RType) | subu (f : RType)
  | and (f : RType) | or (f : RType) | xor (f : RType) | nor (f : RType)
  | slt (f : RType) | sltu (f : RType)
  -- primary opcodes (R97)
  | j (target : BitVec 26) | jal (target : BitVec 26)
  | beq (f : IType) | bne (f : IType) | blez (f : IType) | bgtz (f : IType)
  | addi (f : IType) | addiu (f : IType) | slti (f : IType) | sltiu (f : IType)
  | andi (f : IType) | ori (f : IType) | xori (f : IType) | lui (f : IType)
  | lb (f : IType) | lh (f : IType) | lwl (f : IType) | lw (f : IType)
  | lbu (f : IType) | lhu (f : IType) | lwr (f : IType)
  | sb (f : IType) | sh (f : IType) | swl (f : IType) | sw (f : IType) | swr (f : IType)
  -- REGIMM (R100): rt is the selector
  | bltz (rs : RegIdx) (imm : BitVec 16) | bgez (rs : RegIdx) (imm : BitVec 16)
  | bltzal (rs : RegIdx) (imm : BitVec 16) | bgezal (rs : RegIdx) (imm : BitVec 16)
  -- COP0 (R101)
  | mfc0 (f : CopType) | mtc0 (f : CopType)
  -- the named fatal forms (45_cop0.md R263 to R267)
  | syscall (code : BitVec 20) | brk (code : BitVec 20)
  | cfc0 (f : CopType) | ctc0 (f : CopType) | bc0 (rt : RegIdx) (imm : BitVec 16)
  /-- `RFE`; `mid` is the ignored bits 20:6. -/
  | rfe (mid : BitVec 15)
  /-- Every other CO form: `low` is bits 24:0, never those of `RFE` (WellFormed.lean). -/
  | cop0Co (low : BitVec 25)
  | cop1 (low : BitVec 26) | cop2 (low : BitVec 26) | cop3 (low : BitVec 26)
  | lwc0 (f : IType) | lwc1 (f : IType) | lwc2 (f : IType) | lwc3 (f : IType)
  | swc0 (f : IType) | swc1 (f : IType) | swc2 (f : IType) | swc3 (f : IType)
  deriving DecidableEq, Repr

end Sys2Proof
end

