-- ==== Sys2Proof/WellFormed.lean ====
section
/-! DEFINITION. Which instruction terms stand for a row of opcode_table.json. Every field has the width the spec
gives it, so the types check all but one thing: a "COP0 CO (other)" term may not hold the bits of `RFE`. -/

namespace Sys2Proof

/-- The bits 24:0 that make a COP0 word with bit 25 set an `RFE`: cop = 16 and funct = 0x10 (R101, R263). -/
def isRfeLow (low : BitVec 25) : Bool :=
  low.extractLsb' 21 4 == 0#4 && low.extractLsb' 0 6 == 0x10#6

/-- The well-formedness check of an instruction term. -/
def Instr.wellFormed : Instr → Bool
  | .cop0Co low => !isRfeLow low
  | .sll _ | .srl _ | .sra _ | .sllv _ | .srlv _ | .srav _ | .jr _ | .jalr _ | .mfhi _ | .mthi _ | .mflo _ | .mtlo _
  | .mult _ | .multu _ | .div _ | .divu _ | .add _ | .addu _ | .sub _ | .subu _ | .and _ | .or _ | .xor _ | .nor _
  | .slt _ | .sltu _ | .j _ | .jal _ | .beq _ | .bne _ | .blez _ | .bgtz _ | .addi _ | .addiu _ | .slti _ | .sltiu _
  | .andi _ | .ori _ | .xori _ | .lui _ | .lb _ | .lh _ | .lwl _ | .lw _ | .lbu _ | .lhu _ | .lwr _ | .sb _ | .sh _
  | .swl _ | .sw _ | .swr _ | .bltz _ _ | .bgez _ _ | .bltzal _ _ | .bgezal _ _ | .mfc0 _ | .mtc0 _ | .syscall _
  | .brk _ | .cfc0 _ | .ctc0 _ | .bc0 _ _ | .rfe _ | .cop1 _ | .cop2 _ | .cop3 _ | .lwc0 _ | .lwc1 _ | .lwc2 _
  | .lwc3 _ | .swc0 _ | .swc1 _ | .swc2 _ | .swc3 _ => true

/-- A term that stands for exactly one instruction word of its row. -/
abbrev Instr.WellFormed (i : Instr) : Prop := i.wellFormed = true

end Sys2Proof
end

