-- ==== Sys2Proof/Decode.lean ====
section
/-! DEFINITION. The decoder, total on every word and every byte string, and the encoder, both from the encoding
tables of 30_encoding.md (R91 to R101). Decoding is "a pure, side-effect-free extraction" (R94). -/

namespace Sys2Proof

/-! ## Fields of an instruction word (R91) -/

/-- `op`, primary opcode: w[31:26]. -/
def opOf (w : Word) : BitVec 6 := w.extractLsb' 26 6
/-- `rs`: w[25:21]. -/
def rsOf (w : Word) : RegIdx := w.extractLsb' 21 5
/-- `cop`, coprocessor sub-opcode: the same bits as `rs`. -/
def copOf (w : Word) : BitVec 5 := w.extractLsb' 21 5
/-- `rt`: w[20:16]. -/
def rtOf (w : Word) : RegIdx := w.extractLsb' 16 5
/-- `rd`: w[15:11]. -/
def rdOf (w : Word) : RegIdx := w.extractLsb' 11 5
/-- `shamt`, shift amount: w[10:6]. -/
def shamtOf (w : Word) : BitVec 5 := w.extractLsb' 6 5
/-- `funct`, function code: w[5:0]. -/
def functOf (w : Word) : BitVec 6 := w.extractLsb' 0 6
/-- `imm16`: w[15:0]. -/
def immOf (w : Word) : BitVec 16 := w.extractLsb' 0 16
/-- `target26`: w[25:0]. -/
def targetOf (w : Word) : BitVec 26 := w.extractLsb' 0 26

/-- The R-type field record of a word (R92, R94). -/
def RType.ofWord (w : Word) : RType := ⟨rsOf w, rtOf w, rdOf w, shamtOf w⟩
/-- The I-type field record of a word (R92, R94). -/
def IType.ofWord (w : Word) : IType := ⟨rsOf w, rtOf w, immOf w⟩
/-- The coprocessor-move field record of a word (R92, R94). -/
def CopType.ofWord (w : Word) : CopType := ⟨rtOf w, rdOf w, w.extractLsb' 0 11⟩

/-! ## Rejections -/

/-- Why a word or a byte string names no instruction. The machine answers each with the fatal reason
`Unimplemented` (R95, R102; 60_exceptions.md R282). -/
inductive DecodeError where
  /-- Fewer than four bytes (R90: every instruction is one 32-bit word). -/
  | truncated
  /-- An unassigned primary opcode (R97). -/
  | unassignedOp (op : BitVec 6)
  /-- An unassigned SPECIAL function (R99). -/
  | unassignedFunct (funct : BitVec 6)
  /-- A REGIMM selector that names no instruction (R100). -/
  | unassignedRegimm (rt : BitVec 5)
  /-- An unassigned COP0 sub-opcode (R101). -/
  | unassignedCop (cop : BitVec 5)
  /-- An instruction a narrowed `DISPATCH_SET` leaves out (R98). -/
  | outsideDispatchSet (i : Instr)
  deriving DecidableEq, Repr

/-! ## The decoder -/

/-- SPECIAL (op = 0), by `funct` (R99). -/
def decodeSpecial (w : Word) : Except DecodeError Instr :=
  match functOf w with
  | 0x00#6 => .ok (.sll (RType.ofWord w))
  | 0x02#6 => .ok (.srl (RType.ofWord w))
  | 0x03#6 => .ok (.sra (RType.ofWord w))
  | 0x04#6 => .ok (.sllv (RType.ofWord w))
  | 0x06#6 => .ok (.srlv (RType.ofWord w))
  | 0x07#6 => .ok (.srav (RType.ofWord w))
  | 0x08#6 => .ok (.jr (RType.ofWord w))
  | 0x09#6 => .ok (.jalr (RType.ofWord w))
  | 0x0C#6 => .ok (.syscall (w.extractLsb' 6 20))
  | 0x0D#6 => .ok (.brk (w.extractLsb' 6 20))
  | 0x10#6 => .ok (.mfhi (RType.ofWord w))
  | 0x11#6 => .ok (.mthi (RType.ofWord w))
  | 0x12#6 => .ok (.mflo (RType.ofWord w))
  | 0x13#6 => .ok (.mtlo (RType.ofWord w))
  | 0x18#6 => .ok (.mult (RType.ofWord w))
  | 0x19#6 => .ok (.multu (RType.ofWord w))
  | 0x1A#6 => .ok (.div (RType.ofWord w))
  | 0x1B#6 => .ok (.divu (RType.ofWord w))
  | 0x20#6 => .ok (.add (RType.ofWord w))
  | 0x21#6 => .ok (.addu (RType.ofWord w))
  | 0x22#6 => .ok (.sub (RType.ofWord w))
  | 0x23#6 => .ok (.subu (RType.ofWord w))
  | 0x24#6 => .ok (.and (RType.ofWord w))
  | 0x25#6 => .ok (.or (RType.ofWord w))
  | 0x26#6 => .ok (.xor (RType.ofWord w))
  | 0x27#6 => .ok (.nor (RType.ofWord w))
  | 0x2A#6 => .ok (.slt (RType.ofWord w))
  | 0x2B#6 => .ok (.sltu (RType.ofWord w))
  | funct => .error (.unassignedFunct funct)

/-- REGIMM (op = 1), by `rt`, under each value of the parameter `REGIMM_DECODE` (R100). -/
def decodeRegimm (mode : RegimmDecode) (w : Word) : Except DecodeError Instr :=
  match mode with
  | .canonical =>
    match rtOf w with
    | 0#5 => .ok (.bltz (rsOf w) (immOf w))
    | 1#5 => .ok (.bgez (rsOf w) (immOf w))
    | 16#5 => .ok (.bltzal (rsOf w) (immOf w))
    | 17#5 => .ok (.bgezal (rsOf w) (immOf w))
    | rt => .error (.unassignedRegimm rt)
  | .r3000a =>
    if w.extractLsb' 17 4 = 0b1000#4 then
      if w.extractLsb' 16 1 = 1#1 then .ok (.bgezal (rsOf w) (immOf w)) else .ok (.bltzal (rsOf w) (immOf w))
    else
      if w.extractLsb' 16 1 = 1#1 then .ok (.bgez (rsOf w) (immOf w)) else .ok (.bltz (rsOf w) (immOf w))

/-- The CO forms of COP0, bit 25 set: `RFE` is cop = 16 with funct = 0x10, every other form is one row (R101). -/
def decodeCo (w : Word) : Instr :=
  if isRfeLow (w.extractLsb' 0 25) then .rfe (w.extractLsb' 6 15) else .cop0Co (w.extractLsb' 0 25)

/-- COP0 (op = 16), by `cop` (R101). -/
def decodeCop0 (w : Word) : Except DecodeError Instr :=
  if w.extractLsb' 25 1 = 1#1 then .ok (decodeCo w) else
  match copOf w with
  | 0#5 => .ok (.mfc0 (CopType.ofWord w))
  | 2#5 => .ok (.cfc0 (CopType.ofWord w))
  | 4#5 => .ok (.mtc0 (CopType.ofWord w))
  | 6#5 => .ok (.ctc0 (CopType.ofWord w))
  | 8#5 => .ok (.bc0 (rtOf w) (immOf w))
  | cop => .error (.unassignedCop cop)

/-- The row of opcode_table.json a word belongs to, by primary opcode (R95, R97). -/
def decodeRow (w : Word) : Except DecodeError Instr :=
  match opOf w with
  | 0x00#6 => decodeSpecial w
  | 0x01#6 => decodeRegimm Config.regimmDecode w
  | 0x02#6 => .ok (.j (targetOf w))
  | 0x03#6 => .ok (.jal (targetOf w))
  | 0x04#6 => .ok (.beq (IType.ofWord w))
  | 0x05#6 => .ok (.bne (IType.ofWord w))
  | 0x06#6 => .ok (.blez (IType.ofWord w))
  | 0x07#6 => .ok (.bgtz (IType.ofWord w))
  | 0x08#6 => .ok (.addi (IType.ofWord w))
  | 0x09#6 => .ok (.addiu (IType.ofWord w))
  | 0x0A#6 => .ok (.slti (IType.ofWord w))
  | 0x0B#6 => .ok (.sltiu (IType.ofWord w))
  | 0x0C#6 => .ok (.andi (IType.ofWord w))
  | 0x0D#6 => .ok (.ori (IType.ofWord w))
  | 0x0E#6 => .ok (.xori (IType.ofWord w))
  | 0x0F#6 => .ok (.lui (IType.ofWord w))
  | 0x10#6 => decodeCop0 w
  | 0x11#6 => .ok (.cop1 (targetOf w))
  | 0x12#6 => .ok (.cop2 (targetOf w))
  | 0x13#6 => .ok (.cop3 (targetOf w))
  | 0x20#6 => .ok (.lb (IType.ofWord w))
  | 0x21#6 => .ok (.lh (IType.ofWord w))
  | 0x22#6 => .ok (.lwl (IType.ofWord w))
  | 0x23#6 => .ok (.lw (IType.ofWord w))
  | 0x24#6 => .ok (.lbu (IType.ofWord w))
  | 0x25#6 => .ok (.lhu (IType.ofWord w))
  | 0x26#6 => .ok (.lwr (IType.ofWord w))
  | 0x28#6 => .ok (.sb (IType.ofWord w))
  | 0x29#6 => .ok (.sh (IType.ofWord w))
  | 0x2A#6 => .ok (.swl (IType.ofWord w))
  | 0x2B#6 => .ok (.sw (IType.ofWord w))
  | 0x2E#6 => .ok (.swr (IType.ofWord w))
  | 0x30#6 => .ok (.lwc0 (IType.ofWord w))
  | 0x31#6 => .ok (.lwc1 (IType.ofWord w))
  | 0x32#6 => .ok (.lwc2 (IType.ofWord w))
  | 0x33#6 => .ok (.lwc3 (IType.ofWord w))
  | 0x38#6 => .ok (.swc0 (IType.ofWord w))
  | 0x39#6 => .ok (.swc1 (IType.ofWord w))
  | 0x3A#6 => .ok (.swc2 (IType.ofWord w))
  | 0x3B#6 => .ok (.swc3 (IType.ofWord w))
  | op => .error (.unassignedOp op)

/-- Whether a narrowed `DISPATCH_SET` leaves the instruction out (R98). FULL leaves out none. The fatal forms are in
no `DISPATCH_SET`; they keep their rows and are fatal by their own rules (45_cop0.md R263 to R267). -/
def Instr.leftOut : DispatchSet → Instr → Bool
  | .full, _ => false
  | .sourceRows, i =>
    match i with
    | .sll _ | .jr _ | .add _ | .addu _ | .sub _ | .subu _ | .j _ | .jal _ | .beq _ | .bne _ | .blez _ | .bgtz _
    | .addi _ | .addiu _ | .ori _ | .lui _ | .lb _ | .lh _ | .lw _ | .lbu _ | .lhu _ | .sb _ | .sh _ | .sw _
    | .bltz _ _ | .bgez _ _ | .bltzal _ _ | .bgezal _ _ | .mfc0 _ | .mtc0 _ | .syscall _ | .brk _ | .cfc0 _
    | .ctc0 _ | .bc0 _ _ | .rfe _ | .cop0Co _ | .cop1 _ | .cop2 _ | .cop3 _ | .lwc0 _ | .lwc1 _ | .lwc2 _
    | .lwc3 _ | .swc0 _ | .swc1 _ | .swc2 _ | .swc3 _ => false
    | .srl _ | .sra _ | .sllv _ | .srlv _ | .srav _ | .jalr _ | .mfhi _ | .mthi _ | .mflo _ | .mtlo _ | .mult _
    | .multu _ | .div _ | .divu _ | .and _ | .or _ | .xor _ | .nor _ | .slt _ | .sltu _ | .slti _ | .sltiu _
    | .andi _ | .xori _ | .lwl _ | .lwr _ | .swl _ | .swr _ => true

/-- The decoder: the instruction a word names, or why it names none. -/
def decode (w : Word) : Except DecodeError Instr :=
  match decodeRow w with
  | .ok i => if i.leftOut Config.dispatchSet then .error (.outsideDispatchSet i) else .ok i
  | .error e => .error e

/-- Four bytes, lowest address first, as a little-endian word (R90; 20_memory.md R64). -/
def wordOfBytes (b0 b1 b2 b3 : Byte) : Word := b3 ++ b2 ++ b1 ++ b0

/-- The decoder over a byte string: the first instruction and the bytes after it. -/
def decodeBytes : List Byte → Except DecodeError (Instr × List Byte)
  | b0 :: b1 :: b2 :: b3 :: rest =>
    match decode (wordOfBytes b0 b1 b2 b3) with
    | .ok i => .ok (i, rest)
    | .error e => .error e
  | _ => .error .truncated

/-! ## The encoder -/

/-- An R-type word (R92). -/
def encodeR (op : BitVec 6) (f : RType) (funct : BitVec 6) : Word := op ++ f.rs ++ f.rt ++ f.rd ++ f.shamt ++ funct
/-- An I-type word (R92). -/
def encodeI (op : BitVec 6) (f : IType) : Word := op ++ f.rs ++ f.rt ++ f.imm
/-- A J-type word, and the layout of a coprocessor word whose 26 low bits are kept whole (R92). -/
def encodeJ (op : BitVec 6) (target : BitVec 26) : Word := op ++ target
/-- A REGIMM word: `rt` is the selector (R100). -/
def encodeRegimm (sel : BitVec 5) (rs : RegIdx) (imm : BitVec 16) : Word := encodeI 0x01#6 ⟨rs, sel, imm⟩
/-- A coprocessor-0 register move (R92, R101). -/
def encodeCop (cop : BitVec 5) (f : CopType) : Word := 0x10#6 ++ cop ++ f.rt ++ f.rd ++ f.low

/-- The word of an instruction. -/
def encode : Instr → Word
  | .sll f => encodeR 0x00#6 f 0x00#6
  | .srl f => encodeR 0x00#6 f 0x02#6
  | .sra f => encodeR 0x00#6 f 0x03#6
  | .sllv f => encodeR 0x00#6 f 0x04#6
  | .srlv f => encodeR 0x00#6 f 0x06#6
  | .srav f => encodeR 0x00#6 f 0x07#6
  | .jr f => encodeR 0x00#6 f 0x08#6
  | .jalr f => encodeR 0x00#6 f 0x09#6
  | .mfhi f => encodeR 0x00#6 f 0x10#6
  | .mthi f => encodeR 0x00#6 f 0x11#6
  | .mflo f => encodeR 0x00#6 f 0x12#6
  | .mtlo f => encodeR 0x00#6 f 0x13#6
  | .mult f => encodeR 0x00#6 f 0x18#6
  | .multu f => encodeR 0x00#6 f 0x19#6
  | .div f => encodeR 0x00#6 f 0x1A#6
  | .divu f => encodeR 0x00#6 f 0x1B#6
  | .add f => encodeR 0x00#6 f 0x20#6
  | .addu f => encodeR 0x00#6 f 0x21#6
  | .sub f => encodeR 0x00#6 f 0x22#6
  | .subu f => encodeR 0x00#6 f 0x23#6
  | .and f => encodeR 0x00#6 f 0x24#6
  | .or f => encodeR 0x00#6 f 0x25#6
  | .xor f => encodeR 0x00#6 f 0x26#6
  | .nor f => encodeR 0x00#6 f 0x27#6
  | .slt f => encodeR 0x00#6 f 0x2A#6
  | .sltu f => encodeR 0x00#6 f 0x2B#6
  | .j target => encodeJ 0x02#6 target
  | .jal target => encodeJ 0x03#6 target
  | .beq f => encodeI 0x04#6 f
  | .bne f => encodeI 0x05#6 f
  | .blez f => encodeI 0x06#6 f
  | .bgtz f => encodeI 0x07#6 f
  | .addi f => encodeI 0x08#6 f
  | .addiu f => encodeI 0x09#6 f
  | .slti f => encodeI 0x0A#6 f
  | .sltiu f => encodeI 0x0B#6 f
  | .andi f => encodeI 0x0C#6 f
  | .ori f => encodeI 0x0D#6 f
  | .xori f => encodeI 0x0E#6 f
  | .lui f => encodeI 0x0F#6 f
  | .lb f => encodeI 0x20#6 f
  | .lh f => encodeI 0x21#6 f
  | .lwl f => encodeI 0x22#6 f
  | .lw f => encodeI 0x23#6 f
  | .lbu f => encodeI 0x24#6 f
  | .lhu f => encodeI 0x25#6 f
  | .lwr f => encodeI 0x26#6 f
  | .sb f => encodeI 0x28#6 f
  | .sh f => encodeI 0x29#6 f
  | .swl f => encodeI 0x2A#6 f
  | .sw f => encodeI 0x2B#6 f
  | .swr f => encodeI 0x2E#6 f
  | .bltz rs imm => encodeRegimm 0#5 rs imm
  | .bgez rs imm => encodeRegimm 1#5 rs imm
  | .bltzal rs imm => encodeRegimm 16#5 rs imm
  | .bgezal rs imm => encodeRegimm 17#5 rs imm
  | .mfc0 f => encodeCop 0#5 f
  | .mtc0 f => encodeCop 4#5 f
  | .syscall code => 0x00#6 ++ code ++ 0x0C#6
  | .brk code => 0x00#6 ++ code ++ 0x0D#6
  | .cfc0 f => encodeCop 2#5 f
  | .ctc0 f => encodeCop 6#5 f
  | .bc0 rt imm => encodeI 0x10#6 ⟨8#5, rt, imm⟩
  | .rfe mid => 0x10#6 ++ 16#5 ++ mid ++ 0x10#6
  | .cop0Co low => 0x10#6 ++ 1#1 ++ low
  | .cop1 low => encodeJ 0x11#6 low
  | .cop2 low => encodeJ 0x12#6 low
  | .cop3 low => encodeJ 0x13#6 low
  | .lwc0 f => encodeI 0x30#6 f
  | .lwc1 f => encodeI 0x31#6 f
  | .lwc2 f => encodeI 0x32#6 f
  | .lwc3 f => encodeI 0x33#6 f
  | .swc0 f => encodeI 0x38#6 f
  | .swc1 f => encodeI 0x39#6 f
  | .swc2 f => encodeI 0x3A#6 f
  | .swc3 f => encodeI 0x3B#6 f

/-- The decoder on a word given by its bits, numbered as opcode_table.json numbers them: the bits are laid out in
memory as four little-endian bytes and given to the decoder. -/
def decodeTableWord (nbits w : Nat) : Option Instr :=
  let v : Word := BitVec.ofNat 32 (w % 2 ^ nbits)
  match decodeBytes [v.extractLsb' 0 8, v.extractLsb' 8 8, v.extractLsb' 16 8, v.extractLsb' 24 8] with
  | .ok (i, _) => some i
  | .error _ => none

end Sys2Proof
end

