-- ==== Sys2Proof/Machine/State.lean ====
section
/-! DEFINITION. The machine state (10_state.md R20), the fatal record (60_exceptions.md R281, R291), the reasons a
step can stop, and the state after reset (R41). -/

namespace Sys2Proof.Machine

/-- A register bank: 32 registers of 32 bits (R20, R21). Banks are read and written by `Bank.read` and `Bank.write`
(Machine/Ops.lean), where register 0 is hardwired (R22). -/
abbrev Bank := Vector Word 32

/-- The bytes of RAM, SCRATCH and BIOS (R37), by physical address. The list is in one canonical form, `Memory.wf`
(Machine/Memory.lean): addresses strictly rising, and no entry equal to what an unlisted address reads as. -/
abbrev Memory := List Host.Cell

/-- The phase of the step in which a fatal condition was raised (R291). -/
inductive Phase where
  | fetch | execute
  deriving DecidableEq, Repr

/-- The eight fatal reasons (R281), each with the detail its rule records (R282 to R289). -/
inductive FatalReason where
  /-- R282: the word names no instruction of `DISPATCH_SET`. -/
  | unimplemented (word : Word)
  /-- R283: MTC0 of a nonzero value to a register other than 12. -/
  | cop0Write (reg : RegIdx) (value : Word)
  /-- R284: MFC0 from a register other than 12. -/
  | cop0Read (reg : RegIdx)
  /-- R285: the physical address matches no range. -/
  | unmapped (addr paddr : Word) (n : Width) (dir : Dir)
  /-- R286: the address is not a multiple of the width. -/
  | unaligned (addr : Word) (n : Width) (dir : Dir)
  /-- R287: the signed result of ADD, ADDI or SUB does not fit in 32 bits. -/
  | overflow (word : Word)
  /-- R288: the device does not accept the access. -/
  | widthMismatch (dev : Device) (off : Nat) (n : Width) (dir : Dir)
  /-- R289: a store to the BIOS range. -/
  | biosStore (addr : Word) (n : Width)
  deriving DecidableEq, Repr

/-- The fatal record (R291); `detail` is held by the reason. -/
structure FatalRecord where
  reason : FatalReason
  phase : Phase
  word : Word
  pc : Word
  deriving DecidableEq, Repr

/-- The machine state. Every field but `draws` is a component of R20's tuple; `mem` holds RAM, SCRATCH and BIOS, and
`history` holds the external devices' state as the accesses and host steps they have seen (20_memory.md R68). -/
structure State where
  /-- `R[0..31]`, the committed bank. -/
  committed : Bank
  /-- `O[0..31]`, the output bank. -/
  output : Bank
  /-- The program counter: a virtual byte address (R27). -/
  pc : Word
  /-- The next-instruction latch: the word fetched in the previous step (R30). -/
  nextInstr : Word
  /-- The load-delay slot (R31). -/
  load : Option (RegIdx × Word)
  /-- `SR`, coprocessor-0 register 12 (R34, R35). -/
  sr : Word
  /-- `HI` (R32). -/
  hi : Word
  /-- `LO` (R32). -/
  lo : Word
  /-- Empty while the machine runs; the fatal record once it has stopped (R36). -/
  halted : Option FatalRecord
  /-- RAM, SCRATCH and BIOS (R37). -/
  mem : Memory
  /-- What the external devices have seen, oldest first (R68). -/
  history : List DeviceEvent
  /-- The model's own field: how many free values have been drawn. It picks the next one. -/
  draws : Nat
  deriving DecidableEq, Repr

/-- Why a step has no next state. -/
inductive Fault where
  /-- Raised by `step` alone, when the machine is already halted: "When `halted` is set, `Step` has no transition"
  (40_pipeline_cycle.md R130). It carries the fatal record, which the host's driver loop is given (R292). Safe. -/
  | machineHalted (r : FatalRecord)
  deriving DecidableEq, Repr

/-- Why an instruction has no meaning in this model. -/
inductive Refusal where
  /-- Raised only by an arm of `exec` whose instruction has no meaning yet; this model has no such arm. Safe. -/
  | notModelled (mnemonic : String)
  deriving DecidableEq, Repr

/-- What an instruction or a step answers. -/
abbrev Outcome := Host.Outcome State Fault Refusal

/-- The state after reset (R41, 70_reset_and_hazards.md R310). R1 to R31, HI, LO, RAM, SCRATCH and BIOS have no value
in the spec; the zeros here are DESIGN CHOICES (notes/assumptions/1.md, 2.md). `powerOn`
(Machine/HostInterface.lean) takes them as parameters, as the spec does. -/
def State.reset : State where
  committed := Vector.replicate 32 0#32
  output := Vector.replicate 32 0#32
  pc := 0xBFC00000#32
  nextInstr := 0x00000000#32
  load := none
  sr := 0#32
  hi := 0#32
  lo := 0#32
  halted := none
  mem := []
  history := []
  draws := 0

end Sys2Proof.Machine
end

