-- ==== Sys2Proof/Machine/Memory.lean ====
section
/-! DEFINITION. The byte store behind RAM, SCRATCH and BIOS (20_memory.md R66, R67), keyed by physical address, and
the little-endian view of it (R64). -/

namespace Sys2Proof.Machine

/-- The number of bytes of an access (R51). -/
def bytesOf : Width → Nat
  | .byte => 1
  | .half => 2
  | .word => 4

/-- The low 8n bits of a value, as an unsigned 32-bit value (R60 `v[8n-1:0]`, R93 `zext_32`). -/
def zextWidth : Width → Word → Word
  | .byte, v => (v.setWidth 8).setWidth 32
  | .half, v => (v.setWidth 16).setWidth 32
  | .word, v => v

/-- The low 8n bits of a value, sign-extended to 32 bits (R11 `sext_32`). -/
def sextWidth : Width → Word → Word
  | .byte, v => (v.setWidth 8).signExtend 32
  | .half, v => (v.setWidth 16).signExtend 32
  | .word, v => v

/-- What an address that the list does not hold reads as. The spec leaves RAM, SCRATCH and BIOS contents to the
launch inputs (R41); the zero is a DESIGN CHOICE (notes/assumptions/2.md). -/
def Memory.unlisted : Byte := 0#8

/-- The byte at an address. -/
def Memory.read : Memory → Nat → Byte
  | [], _ => Memory.unlisted
  | (k, b) :: m, a => if k = a then b else Memory.read m a

/-- Store one byte, keeping the canonical form. -/
def Memory.write : Memory → Nat → Byte → Memory
  | [], a, v => if v = Memory.unlisted then [] else [(a, v)]
  | (k, b) :: m, a, v =>
    if a < k then
      if v = Memory.unlisted then (k, b) :: m else (a, v) :: (k, b) :: m
    else if a = k then
      if v = Memory.unlisted then m else (a, v) :: m
    else (k, b) :: Memory.write m a v

/-- The canonical form from a lower bound on: addresses strictly rising, no entry that an unlisted address reads as. -/
def Memory.wfFrom : Nat → Memory → Bool
  | _, [] => true
  | lo, (k, b) :: m => decide (lo ≤ k) && decide (b ≠ Memory.unlisted) && Memory.wfFrom (k + 1) m

/-- The canonical form of a memory. -/
def Memory.wf (m : Memory) : Bool := Memory.wfFrom 0 m

/-- The `n` bytes from `a` on as one little-endian value (R64): the byte at the lowest address is lowest. -/
def Memory.readLE (m : Memory) (a : Nat) : Nat → Word
  | 0 => 0#32
  | n + 1 => (m.read a).setWidth 32 ||| (Memory.readLE m (a + 1) n <<< 8)

/-- Store the low `n` bytes of a value from `a` on, little-endian (R64). -/
def Memory.writeLE (m : Memory) (a : Nat) : Nat → Word → Memory
  | 0, _ => m
  | n + 1, v => Memory.writeLE (m.write a (v.setWidth 8)) (a + 1) n (v >>> 8)

end Sys2Proof.Machine
end

