-- ==== Sys2Proof/Machine/Ops.lean ====
section
/-! DEFINITION. The named operations on registers, the load-delay slot and the pipeline phases (00_scope.md R12, R14;
40_pipeline_cycle.md R120 to R132), and taking a fatal condition, the one exception of this CORE. -/

namespace Sys2Proof.Machine

/-- Read a register of a bank. Entry 0 "is architecturally hardwired to the value zero" (R22). -/
def Bank.read (b : Bank) (i : RegIdx) : Word :=
  if i = 0#5 then 0#32 else b[i.toNat]'(i.isLt)

/-- Write a register of a bank; a write with index 0 is discarded (R22, R127). -/
def Bank.write (b : Bank) (i : RegIdx) (v : Word) : Bank :=
  if i = 0#5 then b else b.set i.toNat v (i.isLt)

/-- `x[i]`: read from the committed bank (R12). -/
def State.x (s : State) (i : RegIdx) : Word := Bank.read s.committed i

/-- `xo[i]`: read from the output bank (R12). -/
def State.xo (s : State) (i : RegIdx) : Word := Bank.read s.output i

/-- `x[i] <- v`: write the output bank (R127). -/
def State.setReg (s : State) (i : RegIdx) (v : Word) : State :=
  { s with output := Bank.write s.output i v }

/-- `stage(i, v)`: put a pair into the load-delay slot (R128). -/
def State.stage (s : State) (i : RegIdx) (v : Word) : State := { s with load := some (i, v) }

/-- `pc <- t` (R14). -/
def State.setPc (s : State) (t : Word) : State := { s with pc := t }

/-- `HI <- h` and `LO <- l` (R180). -/
def State.setHiLo (s : State) (h l : Word) : State := { s with hi := h, lo := l }

/-- `isolated()`: SR[16] = 1 (R126). -/
def State.isolated (s : State) : Bool := s.sr.getLsbD 16

/-- The numeric code of a fatal reason (60_exceptions.md R281). -/
def FatalReason.code : FatalReason → Nat
  | .unimplemented .. => 1
  | .cop0Write .. => 2
  | .cop0Read .. => 3
  | .unmapped .. => 4
  | .unaligned .. => 5
  | .overflow .. => 6
  | .widthMismatch .. => 7
  | .biosStore .. => 8

/-- `raise Fatal(reason)` in the execute phase: the machine is halted with the fatal record (R14, R291). The word is
the executing instruction's, and `pc` is the tentative PC. Nothing else is written here; what the halted state leaves
unspecified is drawn at the end of the step (`endStep`). There is no return from a fatal condition (R292, R296). -/
def State.raise (s : State) (reason : FatalReason) (word : Word) : State :=
  { s with halted := some ⟨reason, .execute, word, s.pc⟩ }

/-- A fatal condition in the fetch phase: "happens before any change" (R131, R294). The word is the one fetched in the
previous step, which never executes, and `pc` is the fetch address (R291). -/
def State.raiseInFetch (s : State) (reason : FatalReason) : State :=
  { s with halted := some ⟨reason, .fetch, s.nextInstr, s.pc⟩ }

/-- Phase 1 after the fetch read: latch the word and advance `pc` by 4 (R121, R122). -/
def State.latch (s : State) (w : Word) : State := { s with nextInstr := w, pc := s.pc + 4#32 }

/-- Phase 2: apply the pending load to the output bank and clear the slot (R123). -/
def State.resolveLoad (s : State) : State :=
  match s.load with
  | none => s
  | some (i, v) => { s.setReg i v with load := none }

/-- Phase 4: copy the output bank into the committed bank (R125). -/
def State.commit (s : State) : State := { s with committed := s.output }

/-- A free bank with entry 0 at 0, which holds "at all times" (R22). -/
def freeBank (b : Vector Word 32) : Bank := b.set 0 0#32

/-- The halted state of an execute-phase fatal condition: "The register, HI, LO, SR and load values left in the halted
state are unspecified" (R132), so each is a free value. -/
def State.unspecify (s : State) : State :=
  { s with
    committed := freeBank (Config.haltedCommitted s.draws)
    output := freeBank (Config.haltedOutput s.draws)
    hi := Config.haltedHi s.draws
    lo := Config.haltedLo s.draws
    sr := Config.haltedSr s.draws
    load := Config.haltedLoad s.draws
    draws := s.draws + 1 }

/-- The end of a step: commit, or, when the instruction raised a fatal condition, no commit and the unspecified
halted state (R125, R132). -/
def State.endStep (s : State) : State :=
  match s.halted with
  | none => s.commit
  | some _ => s.unspecify

end Sys2Proof.Machine
end

