-- ==== Sys2Proof/Machine/Interconnect.lean ====
section
/-! DEFINITION. The Interconnect: segment masking, range classification, dispatch to the owning device, and the
accesses `MemRead` and `MemWrite` (20_memory.md R50 to R70). -/

namespace Sys2Proof.Machine

/-- The segments selected by the top 3 bits of a virtual address (R52). -/
inductive Segment where
  | kuseg | kseg0 | kseg1 | kseg2
  deriving DecidableEq, Repr

/-- The segment of a virtual address, by bits 31:29 (R52). -/
def segmentOf (addr : Word) : Segment :=
  let top := (addr.extractLsb' 29 3).toNat
  if top < 4 then .kuseg else if top = 4 then .kseg0 else if top = 5 then .kseg1 else .kseg2

/-- `MASK` of each segment (R52). -/
def Segment.mask : Segment → Word
  | .kuseg | .kseg2 => 0xFFFFFFFF#32
  | .kseg0 | .kseg1 => 0x1FFFFFFF#32

/-- The physical address `addr & MASK[addr[31:29]]` (R53). -/
def physical (addr : Word) : Word := addr &&& (segmentOf addr).mask

/-- One window of the address map. -/
structure Range where
  dev : Device
  base : Nat
  size : Nat
  deriving DecidableEq, Repr

/-- `RANGE_TABLE` at the spec's default (R61). -/
def rangeTable : List Range :=
  [⟨.ram, 0x00000000, 0x00200000⟩,
   ⟨.exp1, 0x1F000000, 0x00080000⟩,
   ⟨.scratch, 0x1F800000, 0x400⟩,
   ⟨.memctl, 0x1F801000, 0x24⟩,
   ⟨.ramsize, 0x1F801060, 0x4⟩,
   ⟨.irq, 0x1F801070, 0x8⟩,
   ⟨.dma, 0x1F801080, 0x80⟩,
   ⟨.timers, 0x1F801100, 0x30⟩,
   ⟨.cdrom, 0x1F801800, 0x4⟩,
   ⟨.gpu, 0x1F801810, 0x8⟩,
   ⟨.spu, 0x1F801C00, 0x280⟩,
   ⟨.exp2, 0x1F802000, 0x42⟩,
   ⟨.bios, 0x1FC00000, 0x00080000⟩,
   ⟨.cachectl, 0xFFFE0130, 0x4⟩]

/-- A range matches a physical address when `u(base) <= u(paddr) < u(base) + size` (R57). -/
def Range.holds (r : Range) (paddr : Nat) : Bool := decide (r.base ≤ paddr) && decide (paddr < r.base + r.size)

/-- `Classify(paddr)`: the first, and only, range that matches (R57). -/
def classify (paddr : Nat) : Option Range := rangeTable.find? (fun r => r.holds paddr)

/-- What stands behind a window: a byte store (R66), the read-only image (R67), or an external collaborator (R68). -/
inductive DeviceKind where
  | storage | readOnly | external
  deriving DecidableEq, Repr

/-- The kind of each device (R66, R67, R68). -/
def kindOf : Device → DeviceKind
  | .ram | .scratch => .storage
  | .bios => .readOnly
  | .exp1 | .memctl | .ramsize | .irq | .dma | .timers | .cdrom | .gpu | .spu | .exp2 | .cachectl => .external

/-- What an access answers: a value and the state after it, or a fatal reason. -/
inductive Access (α : Type) where
  | ok (v : α) (s : State)
  | fatal (r : FatalReason)

/-- `dev.load(off, n)` (R59, R66, R67, R68). An external device answers with a free draw, and the load joins the
history its later answers may depend on. -/
def deviceLoad (s : State) (r : Range) (off : Nat) (n : Width) : Access Word :=
  match kindOf r.dev with
  | .storage | .readOnly => .ok (s.mem.readLE (r.base + off) (bytesOf n)) s
  | .external =>
    if Config.deviceAccepts r.dev off n .load then
      .ok (zextWidth n (Config.deviceRead r.dev off n s.history)) { s with history := s.history ++ [.loaded r.dev off n] }
    else .fatal (.widthMismatch r.dev off n .load)

/-- `dev.store(off, n, v)` (R60, R66, R67, R68). An external device records the store; BIOS refuses it. -/
def deviceStore (s : State) (r : Range) (addr : Word) (off : Nat) (n : Width) (v : Word) : Access Unit :=
  match kindOf r.dev with
  | .storage => .ok () { s with mem := s.mem.writeLE (r.base + off) (bytesOf n) v }
  | .readOnly => .fatal (.biosStore addr n)
  | .external =>
    if Config.deviceAccepts r.dev off n .store then
      .ok () { s with history := s.history ++ [.stored r.dev off n (zextWidth n v)] }
    else .fatal (.widthMismatch r.dev off n .store)

/-- An access is aligned when its address is a multiple of its width (R56). -/
def aligned (addr : Word) (n : Width) : Bool := addr.toNat % bytesOf n == 0

/-- `MemRead(addr, n)` (R55): alignment, then mapping, then the device. -/
def memRead (s : State) (addr : Word) (n : Width) : Access Word :=
  if aligned addr n then
    match classify (physical addr).toNat with
    | some r => deviceLoad s r ((physical addr).toNat - r.base) n
    | none => .fatal (.unmapped addr (physical addr) n .load)
  else .fatal (.unaligned addr n .load)

/-- `MemWrite(addr, n, v)` (R60). -/
def memWrite (s : State) (addr : Word) (n : Width) (v : Word) : Access Unit :=
  if aligned addr n then
    match classify (physical addr).toNat with
    | some r => deviceStore s r addr ((physical addr).toNat - r.base) n v
    | none => .fatal (.unmapped addr (physical addr) n .store)
  else .fatal (.unaligned addr n .store)

end Sys2Proof.Machine
end

