-- ==== Sys2Proof/Machine/Operands.lean ====
section
/-! DEFINITION. The operand forms: immediates (30_encoding.md R93), the effective address (43_load_store.md R200),
branch and jump targets (R129, R231, R241), shift amounts and the unaligned merges (R209, R210, R214, R215). -/

namespace Sys2Proof.Machine

/-- `simm = sext_32(imm16)` (R93). -/
def simm (imm : BitVec 16) : Word := imm.signExtend 32

/-- `zimm = zext_32(imm16)` (R93). -/
def zimm (imm : BitVec 16) : Word := imm.setWidth 32

/-- `limm = {imm16, 0x0000}` (R93). -/
def limm (imm : BitVec 16) : Word := imm ++ 0#16

/-- `boff = sext_32(imm16) << 2` (R93). -/
def boff (imm : BitVec 16) : Word := simm imm <<< 2

/-- `jtarget(pc) = (pc & 0xF000_0000) | (target26 << 2)` (R93). -/
def jtarget (pc : Word) (target : BitVec 26) : Word := (pc &&& 0xF0000000#32) ||| (target.setWidth 32 <<< 2)

/-- A taken branch's target `pc + boff - 4`, from the tentative PC (R129, R231). -/
def branchTarget (pc : Word) (imm : BitVec 16) : Word := pc + boff imm - 4#32

/-- The effective address `x[rs] + sext_32(imm16)`, its base from the committed bank (R200). -/
def effAddr (f : IType) (s : State) : Word := s.x f.rs + simm f.imm

/-- The aligned word address `addr & 0xFFFF_FFFC` of the unaligned accesses (R209, R210, R214, R215). -/
def wordAddr (addr : Word) : Word := addr &&& 0xFFFFFFFC#32

/-- `addr[1:0]`, the byte of the word an unaligned access starts from. -/
def byteIndex (addr : Word) : Nat := addr.toNat % 4

/-- A variable shift amount `u(x[rs][4:0])` (R161 to R163). -/
def shiftAmount (v : Word) : Nat := (v.extractLsb' 0 5).toNat

/-- `LWL`'s merge of the aligned word `mem` into `cur` (R209). -/
def mergeLwl (addr cur mem : Word) : Word :=
  match byteIndex addr with
  | 0 => (cur &&& 0x00FFFFFF#32) ||| (mem <<< 24)
  | 1 => (cur &&& 0x0000FFFF#32) ||| (mem <<< 16)
  | 2 => (cur &&& 0x000000FF#32) ||| (mem <<< 8)
  | _ => mem

/-- `LWR`'s merge (R210). -/
def mergeLwr (addr cur mem : Word) : Word :=
  match byteIndex addr with
  | 0 => mem
  | 1 => (cur &&& 0xFF000000#32) ||| (mem >>> 8)
  | 2 => (cur &&& 0xFFFF0000#32) ||| (mem >>> 16)
  | _ => (cur &&& 0xFFFFFF00#32) ||| (mem >>> 24)

/-- `SWL`'s new word from the old word `mem` and the register value `v` (R214). -/
def mergeSwl (addr mem v : Word) : Word :=
  match byteIndex addr with
  | 0 => (mem &&& 0xFFFFFF00#32) ||| (v >>> 24)
  | 1 => (mem &&& 0xFFFF0000#32) ||| (v >>> 16)
  | 2 => (mem &&& 0xFF000000#32) ||| (v >>> 8)
  | _ => v

/-- `SWR`'s new word (R215). -/
def mergeSwr (addr mem v : Word) : Word :=
  match byteIndex addr with
  | 0 => v
  | 1 => (mem &&& 0x000000FF#32) ||| (v <<< 8)
  | 2 => (mem &&& 0x0000FFFF#32) ||| (v <<< 16)
  | _ => (mem &&& 0x00FFFFFF#32) ||| (v <<< 24)

end Sys2Proof.Machine
end

