-- ==== Sys2Proof/Machine/Flags.lean ====
section
/-! DEFINITION. The CORE has no flags (10_state.md R33). What other machines compute into flags is here: the signed
overflow checks (41_alu.md R137) and the comparisons of SLT and the branches. -/

namespace Sys2Proof.Machine

/-- An integer is outside the range of a signed 32-bit value. -/
def outsideSigned (n : Int) : Bool := decide (n < -2 ^ 31) || decide (2 ^ 31 - 1 < n)

/-- `ovf_add(a, b)`: `s(a) + s(b)` is outside [-2^31, 2^31 - 1] (R137). -/
def ovfAdd (a b : Word) : Bool := outsideSigned (a.toInt + b.toInt)

/-- `ovf_sub(a, b)`: `s(a) - s(b)` is outside [-2^31, 2^31 - 1] (R137). -/
def ovfSub (a b : Word) : Bool := outsideSigned (a.toInt - b.toInt)

/-- `(s(a) < s(b)) ? 1 : 0` (R148, R152). -/
def sltSigned (a b : Word) : Word := if a.toInt < b.toInt then 1#32 else 0#32

/-- `(u(a) < u(b)) ? 1 : 0` (R149, R153). -/
def sltUnsigned (a b : Word) : Word := if a.toNat < b.toNat then 1#32 else 0#32

end Sys2Proof.Machine
end

