-- ==== Sys2Proof/Machine/Alu.lean ====
section
/-! DEFINITION. The 24 arithmetic, logic, compare and shift instructions (41_alu.md R137 to R163). -/

namespace Sys2Proof.Machine


/-- A three-register instruction without a check: `x[rd] <- op(x[rs], x[rt])`. -/
def writeRd (f : RType) (op : Word → Word → Word) (s : State) : Outcome :=
  .next (s.setReg f.rd (op (s.x f.rs) (s.x f.rt)))

/-- An immediate instruction without a check: `x[rt] <- op(x[rs])`. -/
def writeRt (f : IType) (op : Word → Word) (s : State) : Outcome :=
  .next (s.setReg f.rt (op (s.x f.rs)))

/-- The end of a checked instruction: `Overflow` without a register write, or the write (R137). -/
def checkedWrite (overflows : Bool) (word : Word) (d : RegIdx) (v : Word) (s : State) : Outcome :=
  if overflows then .next (s.raise (.overflow word) word) else .next (s.setReg d v)

/-! ## Three-register arithmetic and logic -/

/-- `ADD rd, rs, rt` (R140). -/
def execAdd (f : RType) (s : State) : Outcome :=
  checkedWrite (ovfAdd (s.x f.rs) (s.x f.rt)) (encode (.add f)) f.rd (s.x f.rs + s.x f.rt) s

/-- `ADDU rd, rs, rt` (R141). -/
def execAddu (f : RType) (s : State) : Outcome :=
  writeRd f (fun a b => a + b) s

/-- `SUB rd, rs, rt` (R142). -/
def execSub (f : RType) (s : State) : Outcome :=
  checkedWrite (ovfSub (s.x f.rs) (s.x f.rt)) (encode (.sub f)) f.rd (s.x f.rs - s.x f.rt) s

/-- `SUBU rd, rs, rt` (R143). -/
def execSubu (f : RType) (s : State) : Outcome :=
  writeRd f (fun a b => a - b) s

/-- `AND rd, rs, rt` (R144). -/
def execAnd (f : RType) (s : State) : Outcome :=
  writeRd f (fun a b => a &&& b) s

/-- `OR rd, rs, rt` (R145). -/
def execOr (f : RType) (s : State) : Outcome :=
  writeRd f (fun a b => a ||| b) s

/-- `XOR rd, rs, rt` (R146). -/
def execXor (f : RType) (s : State) : Outcome :=
  writeRd f (fun a b => a ^^^ b) s

/-- `NOR rd, rs, rt` (R147). -/
def execNor (f : RType) (s : State) : Outcome :=
  writeRd f (fun a b => ~~~(a ||| b)) s

/-- `SLT rd, rs, rt` (R148). -/
def execSlt (f : RType) (s : State) : Outcome :=
  writeRd f (fun a b => sltSigned a b) s

/-- `SLTU rd, rs, rt` (R149). -/
def execSltu (f : RType) (s : State) : Outcome :=
  writeRd f (fun a b => sltUnsigned a b) s

/-! ## Immediate arithmetic and logic -/

/-- `ADDI rt, rs, imm` (R150). -/
def execAddi (f : IType) (s : State) : Outcome :=
  checkedWrite (ovfAdd (s.x f.rs) (simm f.imm)) (encode (.addi f)) f.rt (s.x f.rs + simm f.imm) s

/-- `ADDIU rt, rs, imm` (R151). -/
def execAddiu (f : IType) (s : State) : Outcome :=
  writeRt f (fun a => a + simm f.imm) s

/-- `SLTI rt, rs, imm` (R152). -/
def execSlti (f : IType) (s : State) : Outcome :=
  writeRt f (fun a => sltSigned a (simm f.imm)) s

/-- `SLTIU rt, rs, imm` (R153). -/
def execSltiu (f : IType) (s : State) : Outcome :=
  writeRt f (fun a => sltUnsigned a (simm f.imm)) s

/-- `ANDI rt, rs, imm` (R154). -/
def execAndi (f : IType) (s : State) : Outcome :=
  writeRt f (fun a => a &&& zimm f.imm) s

/-- `ORI rt, rs, imm` (R155). -/
def execOri (f : IType) (s : State) : Outcome :=
  writeRt f (fun a => a ||| zimm f.imm) s

/-- `XORI rt, rs, imm` (R156). -/
def execXori (f : IType) (s : State) : Outcome :=
  writeRt f (fun a => a ^^^ zimm f.imm) s

/-- `LUI rt, imm`; rs ignored (R157). -/
def execLui (f : IType) (s : State) : Outcome :=
  .next (s.setReg f.rt (limm f.imm))

/-! ## Shifts -/

/-- `SLL rd, rt, shamt`; rs ignored (R158). -/
def execSll (f : RType) (s : State) : Outcome :=
  writeRd f (fun _ b => b <<< f.shamt.toNat) s

/-- `SRL rd, rt, shamt`; rs ignored (R159). -/
def execSrl (f : RType) (s : State) : Outcome :=
  writeRd f (fun _ b => b >>> f.shamt.toNat) s

/-- `SRA rd, rt, shamt`; rs ignored (R160). -/
def execSra (f : RType) (s : State) : Outcome :=
  writeRd f (fun _ b => b.sshiftRight f.shamt.toNat) s

/-- `SLLV rd, rt, rs` (R161). -/
def execSllv (f : RType) (s : State) : Outcome :=
  writeRd f (fun a b => b <<< shiftAmount a) s

/-- `SRLV rd, rt, rs` (R162). -/
def execSrlv (f : RType) (s : State) : Outcome :=
  writeRd f (fun a b => b >>> shiftAmount a) s

/-- `SRAV rd, rt, rs` (R163). -/
def execSrav (f : RType) (s : State) : Outcome :=
  writeRd f (fun a b => b.sshiftRight (shiftAmount a)) s

end Sys2Proof.Machine
end

