-- ==== Sys2Proof/Machine/Branch.lean ====
section
/-! DEFINITION. The 12 branch and jump instructions (44_branch_jump.md R230 to R247). In `exec`, `pc` is the tentative PC. -/

namespace Sys2Proof.Machine


/-- A conditional branch: only a taken branch writes `pc` (R230, R231). -/
def branchIf (c : Bool) (imm : BitVec 16) (s : State) : Outcome :=
  .next (if c then s.setPc (branchTarget s.pc imm) else s)

/-- A branch that links: `x[31]` gets the tentative PC whether or not the branch is taken (R232, R239, R240). The
condition was read before, from the committed bank. -/
def branchLinkIf (c : Bool) (imm : BitVec 16) (s : State) : Outcome :=
  branchIf c imm (s.setReg 31#5 s.pc)

/-! ## Conditional branches -/

/-- `BEQ rs, rt, label` (R233). -/
def execBeq (f : IType) (s : State) : Outcome :=
  branchIf (s.x f.rs == s.x f.rt) f.imm s

/-- `BNE rs, rt, label` (R234). -/
def execBne (f : IType) (s : State) : Outcome :=
  branchIf (s.x f.rs != s.x f.rt) f.imm s

/-- `BLEZ rs, label`; rt ignored (R235). -/
def execBlez (f : IType) (s : State) : Outcome :=
  branchIf (decide ((s.x f.rs).toInt ≤ 0)) f.imm s

/-- `BGTZ rs, label`; rt ignored (R236). -/
def execBgtz (f : IType) (s : State) : Outcome :=
  branchIf (decide (0 < (s.x f.rs).toInt)) f.imm s

/-- `BLTZ rs, label` (R237). -/
def execBltz (rs : RegIdx) (imm : BitVec 16) (s : State) : Outcome :=
  branchIf (decide ((s.x rs).toInt < 0)) imm s

/-- `BGEZ rs, label` (R238). -/
def execBgez (rs : RegIdx) (imm : BitVec 16) (s : State) : Outcome :=
  branchIf (decide (0 ≤ (s.x rs).toInt)) imm s

/-- `BLTZAL rs, label` (R239). -/
def execBltzal (rs : RegIdx) (imm : BitVec 16) (s : State) : Outcome :=
  branchLinkIf (decide ((s.x rs).toInt < 0)) imm s

/-- `BGEZAL rs, label` (R240). -/
def execBgezal (rs : RegIdx) (imm : BitVec 16) (s : State) : Outcome :=
  branchLinkIf (decide (0 ≤ (s.x rs).toInt)) imm s

/-! ## Jumps -/

/-- `J label` (R241). -/
def execJ (target : BitVec 26) (s : State) : Outcome :=
  .next (s.setPc (jtarget s.pc target))

/-- `JAL label`: the link is written before `pc` changes (R242). -/
def execJal (target : BitVec 26) (s : State) : Outcome :=
  .next ((s.setReg 31#5 s.pc).setPc (jtarget s.pc target))

/-- `JR rs` (R243). -/
def execJr (f : RType) (s : State) : Outcome :=
  .next (s.setPc (s.x f.rs))

/-- `JALR rd, rs`: the target is read before the link is written (R244). -/
def execJalr (f : RType) (s : State) : Outcome :=
  .next ((s.setReg f.rd s.pc).setPc (s.x f.rs))

end Sys2Proof.Machine
end

