-- ==== Sys2Proof/Machine/Cop0.lean ====
section
/-! DEFINITION. The coprocessor-0 moves MTC0 and MFC0, and the 18 fatal forms (45_cop0.md R260 to R268). -/

namespace Sys2Proof.Machine


/-- The coprocessor-0 register number of `SR` (10_state.md R34). -/
def srNumber : RegIdx := 12#5

/-- A word that names no instruction: fatal `Unimplemented`, raised before any operand is read (60_exceptions.md
R282). -/
def raiseUnimplemented (word : Word) (s : State) : Outcome :=
  .next (s.raise (.unimplemented word) word)

/-! ## The moves -/

/-- `MTC0 rt, rd` (R261): all 32 bits of SR; a zero to another register is dropped, a nonzero value is fatal. -/
def execMtc0 (f : CopType) (s : State) : Outcome :=
  if f.rd = srNumber then .next { s with sr := s.x f.rt }
  else if s.x f.rt = 0#32 then .next s
  else .next (s.raise (.cop0Write f.rd (s.x f.rt)) (encode (.mtc0 f)))

/-- `MFC0 rt, rd` (R262): SR through the load-delay slot; any other register is fatal. -/
def execMfc0 (f : CopType) (s : State) : Outcome :=
  if f.rd = srNumber then .next (s.stage f.rt s.sr)
  else .next (s.raise (.cop0Read f.rd) (encode (.mfc0 f)))

/-! ## The fatal forms -/

/-- `SYSCALL` (R266). -/
def execSyscall (code : BitVec 20) (s : State) : Outcome :=
  raiseUnimplemented (encode (.syscall code)) s

/-- `BREAK` (R267). -/
def execBrk (code : BitVec 20) (s : State) : Outcome :=
  raiseUnimplemented (encode (.brk code)) s

/-- `CFC0` (R263). -/
def execCfc0 (f : CopType) (s : State) : Outcome :=
  raiseUnimplemented (encode (.cfc0 f)) s

/-- `CTC0` (R263). -/
def execCtc0 (f : CopType) (s : State) : Outcome :=
  raiseUnimplemented (encode (.ctc0 f)) s

/-- `BC0F` and `BC0T` (R263). -/
def execBc0 (rt : RegIdx) (imm : BitVec 16) (s : State) : Outcome :=
  raiseUnimplemented (encode (.bc0 rt imm)) s

/-- `RFE` (R263). -/
def execRfe (mid : BitVec 15) (s : State) : Outcome :=
  raiseUnimplemented (encode (.rfe mid)) s

/-- `COP0 CO (other)` (R263). -/
def execCop0Co (low : BitVec 25) (s : State) : Outcome :=
  raiseUnimplemented (encode (.cop0Co low)) s

/-- `COP1` (R264). -/
def execCop1 (low : BitVec 26) (s : State) : Outcome :=
  raiseUnimplemented (encode (.cop1 low)) s

/-- `COP2` (R264). -/
def execCop2 (low : BitVec 26) (s : State) : Outcome :=
  raiseUnimplemented (encode (.cop2 low)) s

/-- `COP3` (R264). -/
def execCop3 (low : BitVec 26) (s : State) : Outcome :=
  raiseUnimplemented (encode (.cop3 low)) s

/-- `LWC0` (R265). -/
def execLwc0 (f : IType) (s : State) : Outcome :=
  raiseUnimplemented (encode (.lwc0 f)) s

/-- `LWC1` (R265). -/
def execLwc1 (f : IType) (s : State) : Outcome :=
  raiseUnimplemented (encode (.lwc1 f)) s

/-- `LWC2` (R265). -/
def execLwc2 (f : IType) (s : State) : Outcome :=
  raiseUnimplemented (encode (.lwc2 f)) s

/-- `LWC3` (R265). -/
def execLwc3 (f : IType) (s : State) : Outcome :=
  raiseUnimplemented (encode (.lwc3 f)) s

/-- `SWC0` (R265). -/
def execSwc0 (f : IType) (s : State) : Outcome :=
  raiseUnimplemented (encode (.swc0 f)) s

/-- `SWC1` (R265). -/
def execSwc1 (f : IType) (s : State) : Outcome :=
  raiseUnimplemented (encode (.swc1 f)) s

/-- `SWC2` (R265). -/
def execSwc2 (f : IType) (s : State) : Outcome :=
  raiseUnimplemented (encode (.swc2 f)) s

/-- `SWC3` (R265). -/
def execSwc3 (f : IType) (s : State) : Outcome :=
  raiseUnimplemented (encode (.swc3 f)) s

end Sys2Proof.Machine
end

