-- ==== Sys2Proof/Machine/LoadStore.lean ====
section
/-! DEFINITION. The 12 load and store instructions (43_load_store.md R200 to R216). -/

namespace Sys2Proof.Machine


/-- The body of every aligned load: the isolation test comes first (R201), then the access, then the staging of the
extended value (R203 to R208). `word` is the executing word, for the fatal record. -/
def loadInstr (word : Word) (f : IType) (n : Width) (ext : Word → Word) (s : State) : Outcome :=
  if s.isolated then .next s
  else
    match memRead s (effAddr f s) n with
    | .ok v t => .next (t.stage f.rt (ext v))
    | .fatal r => .next (s.raise r word)

/-- The body of LWL and LWR: read the aligned word and merge it into `xo[rt]`, from the output bank (R209, R210). -/
def loadMerge (word : Word) (f : IType) (merge : Word → Word → Word → Word) (s : State) : Outcome :=
  if s.isolated then .next s
  else
    match memRead s (wordAddr (effAddr f s)) .word with
    | .ok v t => .next (t.stage f.rt (merge (effAddr f s) (t.xo f.rt) v))
    | .fatal r => .next (s.raise r word)

/-- The body of every aligned store: the isolation test comes first (R202), then the access (R211 to R213). -/
def storeInstr (word : Word) (f : IType) (n : Width) (s : State) : Outcome :=
  if s.isolated then .next s
  else
    match memWrite s (effAddr f s) n (s.x f.rt) with
    | .ok _ t => .next t
    | .fatal r => .next (s.raise r word)

/-- The body of SWL and SWR: read the aligned word, then write the merged word (R214, R215). When the write fails,
what the read did stays done (60_exceptions.md R294). -/
def storeMerge (word : Word) (f : IType) (merge : Word → Word → Word → Word) (s : State) : Outcome :=
  if s.isolated then .next s
  else
    match memRead s (wordAddr (effAddr f s)) .word with
    | .fatal r => .next (s.raise r word)
    | .ok v t =>
      match memWrite t (wordAddr (effAddr f s)) .word (merge (effAddr f s) v (s.x f.rt)) with
      | .ok _ t' => .next t'
      | .fatal r => .next (t.raise r word)

/-! ## Loads -/

/-- `LB rt, offset(rs)` (R203). -/
def execLb (f : IType) (s : State) : Outcome :=
  loadInstr (encode (.lb f)) f .byte (sextWidth .byte) s

/-- `LBU rt, offset(rs)` (R204). -/
def execLbu (f : IType) (s : State) : Outcome :=
  loadInstr (encode (.lbu f)) f .byte (zextWidth .byte) s

/-- `LH rt, offset(rs)` (R205). -/
def execLh (f : IType) (s : State) : Outcome :=
  loadInstr (encode (.lh f)) f .half (sextWidth .half) s

/-- `LHU rt, offset(rs)` (R206). -/
def execLhu (f : IType) (s : State) : Outcome :=
  loadInstr (encode (.lhu f)) f .half (zextWidth .half) s

/-- `LW rt, offset(rs)` (R207). -/
def execLw (f : IType) (s : State) : Outcome :=
  loadInstr (encode (.lw f)) f .word id s

/-- `LWL rt, offset(rs)` (R209). -/
def execLwl (f : IType) (s : State) : Outcome :=
  loadMerge (encode (.lwl f)) f mergeLwl s

/-- `LWR rt, offset(rs)` (R210). -/
def execLwr (f : IType) (s : State) : Outcome :=
  loadMerge (encode (.lwr f)) f mergeLwr s

/-! ## Stores -/

/-- `SB rt, offset(rs)` (R211). -/
def execSb (f : IType) (s : State) : Outcome :=
  storeInstr (encode (.sb f)) f .byte s

/-- `SH rt, offset(rs)` (R212). -/
def execSh (f : IType) (s : State) : Outcome :=
  storeInstr (encode (.sh f)) f .half s

/-- `SW rt, offset(rs)` (R213). -/
def execSw (f : IType) (s : State) : Outcome :=
  storeInstr (encode (.sw f)) f .word s

/-- `SWL rt, offset(rs)` (R214). -/
def execSwl (f : IType) (s : State) : Outcome :=
  storeMerge (encode (.swl f)) f mergeSwl s

/-- `SWR rt, offset(rs)` (R215). -/
def execSwr (f : IType) (s : State) : Outcome :=
  storeMerge (encode (.swr f)) f mergeSwr s

end Sys2Proof.Machine
end

