-- ==== Sys2Proof/Machine/MulDiv.lean ====
section
/-! DEFINITION. The 8 multiply and divide instructions (42_muldiv.md R180 to R189). They write `HI` and `LO` directly. -/

namespace Sys2Proof.Machine


/-- `HI <- trunc_32(p >> 32)`, `LO <- trunc_32(p)` for an exact integer product (R181, R182). -/
def setProduct (p : Int) (s : State) : Outcome :=
  .next (s.setHiLo (BitVec.ofInt 32 (p / 2 ^ 32)) (BitVec.ofInt 32 p))

/-- `DIV`'s `LO`: the quotient rounded toward zero, with the two special rows (R183). -/
def divLo (n d : Word) : Word :=
  if d = 0#32 then (if 0 ≤ n.toInt then 0xFFFFFFFF#32 else 0x00000001#32)
  else if n = 0x80000000#32 ∧ d = 0xFFFFFFFF#32 then 0x80000000#32
  else BitVec.ofInt 32 (n.toInt.tdiv d.toInt)

/-- `DIV`'s `HI`: the remainder, with the sign of the dividend (R183). -/
def divHi (n d : Word) : Word :=
  if d = 0#32 then n
  else if n = 0x80000000#32 ∧ d = 0xFFFFFFFF#32 then 0#32
  else BitVec.ofInt 32 (n.toInt - n.toInt.tdiv d.toInt * d.toInt)

/-- `DIVU`'s `LO` (R184). -/
def divuLo (n d : Word) : Word :=
  if d = 0#32 then 0xFFFFFFFF#32 else BitVec.ofNat 32 (n.toNat / d.toNat)

/-- `DIVU`'s `HI` (R184). -/
def divuHi (n d : Word) : Word :=
  if d = 0#32 then n else BitVec.ofNat 32 (n.toNat % d.toNat)

/-- `MULT rs, rt` (R181). -/
def execMult (f : RType) (s : State) : Outcome :=
  setProduct ((s.x f.rs).toInt * (s.x f.rt).toInt) s

/-- `MULTU rs, rt` (R182). -/
def execMultu (f : RType) (s : State) : Outcome :=
  setProduct ((s.x f.rs).toNat * (s.x f.rt).toNat) s

/-- `DIV rs, rt` (R183). -/
def execDiv (f : RType) (s : State) : Outcome :=
  .next (s.setHiLo (divHi (s.x f.rs) (s.x f.rt)) (divLo (s.x f.rs) (s.x f.rt)))

/-- `DIVU rs, rt` (R184). -/
def execDivu (f : RType) (s : State) : Outcome :=
  .next (s.setHiLo (divuHi (s.x f.rs) (s.x f.rt)) (divuLo (s.x f.rs) (s.x f.rt)))

/-- `MFHI rd` (R185). -/
def execMfhi (f : RType) (s : State) : Outcome :=
  .next (s.setReg f.rd s.hi)

/-- `MTHI rs` (R186). -/
def execMthi (f : RType) (s : State) : Outcome :=
  .next (s.setHiLo (s.x f.rs) s.lo)

/-- `MFLO rd` (R187). -/
def execMflo (f : RType) (s : State) : Outcome :=
  .next (s.setReg f.rd s.lo)

/-- `MTLO rs` (R188). -/
def execMtlo (f : RType) (s : State) : Outcome :=
  .next (s.setHiLo s.hi (s.x f.rs))

end Sys2Proof.Machine
end

