-- ==== Sys2Proof/Machine/Dispatch.lean ====
section
/-! DEFINITION. `Execute(instr)` of 40_pipeline_cycle.md R124: one arm per constructor of Instr. -/

namespace Sys2Proof.Machine

def exec (i : Instr) (s : State) : Host.Outcome State Fault Refusal :=
  match i with
  | .sll f => Sys2Proof.Machine.execSll f s
  | .srl f => Sys2Proof.Machine.execSrl f s
  | .sra f => Sys2Proof.Machine.execSra f s
  | .sllv f => Sys2Proof.Machine.execSllv f s
  | .srlv f => Sys2Proof.Machine.execSrlv f s
  | .srav f => Sys2Proof.Machine.execSrav f s
  | .jr f => Sys2Proof.Machine.execJr f s
  | .jalr f => Sys2Proof.Machine.execJalr f s
  | .mfhi f => Sys2Proof.Machine.execMfhi f s
  | .mthi f => Sys2Proof.Machine.execMthi f s
  | .mflo f => Sys2Proof.Machine.execMflo f s
  | .mtlo f => Sys2Proof.Machine.execMtlo f s
  | .mult f => Sys2Proof.Machine.execMult f s
  | .multu f => Sys2Proof.Machine.execMultu f s
  | .div f => Sys2Proof.Machine.execDiv f s
  | .divu f => Sys2Proof.Machine.execDivu f s
  | .add f => Sys2Proof.Machine.execAdd f s
  | .addu f => Sys2Proof.Machine.execAddu f s
  | .sub f => Sys2Proof.Machine.execSub f s
  | .subu f => Sys2Proof.Machine.execSubu f s
  | .and f => Sys2Proof.Machine.execAnd f s
  | .or f => Sys2Proof.Machine.execOr f s
  | .xor f => Sys2Proof.Machine.execXor f s
  | .nor f => Sys2Proof.Machine.execNor f s
  | .slt f => Sys2Proof.Machine.execSlt f s
  | .sltu f => Sys2Proof.Machine.execSltu f s
  | .j target => Sys2Proof.Machine.execJ target s
  | .jal target => Sys2Proof.Machine.execJal target s
  | .beq f => Sys2Proof.Machine.execBeq f s
  | .bne f => Sys2Proof.Machine.execBne f s
  | .blez f => Sys2Proof.Machine.execBlez f s
  | .bgtz f => Sys2Proof.Machine.execBgtz f s
  | .addi f => Sys2Proof.Machine.execAddi f s
  | .addiu f => Sys2Proof.Machine.execAddiu f s
  | .slti f => Sys2Proof.Machine.execSlti f s
  | .sltiu f => Sys2Proof.Machine.execSltiu f s
  | .andi f => Sys2Proof.Machine.execAndi f s
  | .ori f => Sys2Proof.Machine.execOri f s
  | .xori f => Sys2Proof.Machine.execXori f s
  | .lui f => Sys2Proof.Machine.execLui f s
  | .lb f => Sys2Proof.Machine.execLb f s
  | .lh f => Sys2Proof.Machine.execLh f s
  | .lwl f => Sys2Proof.Machine.execLwl f s
  | .lw f => Sys2Proof.Machine.execLw f s
  | .lbu f => Sys2Proof.Machine.execLbu f s
  | .lhu f => Sys2Proof.Machine.execLhu f s
  | .lwr f => Sys2Proof.Machine.execLwr f s
  | .sb f => Sys2Proof.Machine.execSb f s
  | .sh f => Sys2Proof.Machine.execSh f s
  | .swl f => Sys2Proof.Machine.execSwl f s
  | .sw f => Sys2Proof.Machine.execSw f s
  | .swr f => Sys2Proof.Machine.execSwr f s
  | .bltz rs imm => Sys2Proof.Machine.execBltz rs imm s
  | .bgez rs imm => Sys2Proof.Machine.execBgez rs imm s
  | .bltzal rs imm => Sys2Proof.Machine.execBltzal rs imm s
  | .bgezal rs imm => Sys2Proof.Machine.execBgezal rs imm s
  | .mfc0 f => Sys2Proof.Machine.execMfc0 f s
  | .mtc0 f => Sys2Proof.Machine.execMtc0 f s
  | .syscall code => Sys2Proof.Machine.execSyscall code s
  | .brk code => Sys2Proof.Machine.execBrk code s
  | .cfc0 f => Sys2Proof.Machine.execCfc0 f s
  | .ctc0 f => Sys2Proof.Machine.execCtc0 f s
  | .bc0 rt imm => Sys2Proof.Machine.execBc0 rt imm s
  | .rfe mid => Sys2Proof.Machine.execRfe mid s
  | .cop0Co low => Sys2Proof.Machine.execCop0Co low s
  | .cop1 low => Sys2Proof.Machine.execCop1 low s
  | .cop2 low => Sys2Proof.Machine.execCop2 low s
  | .cop3 low => Sys2Proof.Machine.execCop3 low s
  | .lwc0 f => Sys2Proof.Machine.execLwc0 f s
  | .lwc1 f => Sys2Proof.Machine.execLwc1 f s
  | .lwc2 f => Sys2Proof.Machine.execLwc2 f s
  | .lwc3 f => Sys2Proof.Machine.execLwc3 f s
  | .swc0 f => Sys2Proof.Machine.execSwc0 f s
  | .swc1 f => Sys2Proof.Machine.execSwc1 f s
  | .swc2 f => Sys2Proof.Machine.execSwc2 f s
  | .swc3 f => Sys2Proof.Machine.execSwc3 f s

end Sys2Proof.Machine
end

