-- ==== Sys2Proof/Machine/Fetch.lean ====
section
/-! DEFINITION. The parts of a step around `exec`: the fetch read and the execution of a word (40_pipeline_cycle.md
R121, R124; 30_encoding.md R95). -/

namespace Sys2Proof.Machine

/-- The fetch read `MemRead(pc, 4)` (R121). Cache isolation does not suppress it (20_memory.md R77). -/
def fetch (s : State) : Access Word := memRead s s.pc .word

/-- `Execute(instr)` on a word: the instruction it names, or fatal `Unimplemented` (R124, R95). -/
def execute (word : Word) (s : State) : Outcome :=
  match decode word with
  | .ok i => exec i s
  | .error _ => raiseUnimplemented word s

/-- Phases 1 (after the read) and 2: latch the fetched word, advance `pc`, resolve the pending load (R120). -/
def enterExecute (s : State) (fetched : Word) : State := (s.latch fetched).resolveLoad

/-- Phases 2 to 4 of a step whose fetch read `fetched`: execute the word latched before, then end the step (R120). -/
def runLatched (word fetched : Word) (s : State) : Outcome :=
  match execute word (enterExecute s fetched) with
  | .next t => .next t.endStep
  | .fault r => .fault r
  | .refused r => .refused r

/-- The state in which the next step runs the instruction of the low `nbits` bits of `w`: what a step executes is the
next-instruction latch (R30, R120). -/
def latchWord (s : State) (nbits w : Nat) : State := { s with nextInstr := BitVec.ofNat 32 (w % 2 ^ nbits) }

end Sys2Proof.Machine
end

