-- ==== Sys2Proof/Machine/Step.lean ====
section
/-! DEFINITION. One step of the CPU (40_pipeline_cycle.md R120): fetch, resolve the pending load, execute, commit. -/

namespace Sys2Proof.Machine

/-- `Step()` (R120). A halted machine has no transition (R130). A fatal condition in the fetch halts the machine before
anything changes (R131); otherwise the word fetched in the previous step executes. -/
def step (s : State) : Host.Outcome State Fault Refusal :=
  match s.halted with
  | some r => .fault (.machineHalted r)
  | none =>
    match fetch s with
    | .fatal r => .next (s.raiseInFetch r)
    | .ok fetched t => runLatched s.nextInstr fetched t

/-- The state in which the very next step runs the instruction whose bits are `w` (numbered as opcode_table.json
numbers them): it stands in the next-instruction latch, where `step` takes its instruction from (R30). -/
def State.withFetchWord (s : State) (nbits w : Nat) : State := latchWord s nbits w

end Sys2Proof.Machine
end

