-- ==== Sys2Proof/Machine/HostInterface.lean ====
section
/-! DEFINITION. The operations of the host (60_exceptions.md R304): power-on from the launch parameters, loads and
stores between steps, reading `halted`, and stepping a device. -/

namespace Sys2Proof.Machine

/-- The launch parameters of `PowerOn` (R304; 00_scope.md R9). `mem` holds `RAM_INIT`, `SCRATCH_INIT` and `BIOS_IMAGE`
at their physical addresses; `gpr` is `GPR_RESET`, its entry 0 unused. `RANGE_TABLE` is Machine/Interconnect.lean's. -/
structure LaunchParams where
  gpr : Vector Word 32
  hi : Word
  lo : Word
  mem : Memory
  deriving DecidableEq, Repr

/-- `PowerOn(params)` (70_reset_and_hazards.md R310; 10_state.md R41): R and O start with the same draws, entry 0 at 0. -/
def powerOn (p : LaunchParams) : State :=
  { State.reset with committed := freeBank p.gpr, output := freeBank p.gpr, hi := p.hi, lo := p.lo, mem := p.mem }

/-- What a host access answers: the value and the state after it, or the fatal condition, which is returned to the host
"and does not set `halted`" (R304). -/
inductive HostAccess (α : Type) where
  | ok (v : α) (s : State)
  | failed (r : FatalReason)

/-- An Interconnect access as the host sees it. -/
def Access.toHost {α : Type} : Access α → HostAccess α
  | .ok v s => .ok v s
  | .fatal r => .failed r

/-- `Load(addr, n)`: `MemRead` with no isolation test (R304). -/
def hostLoad (s : State) (addr : Word) (n : Width) : HostAccess Word := (memRead s addr n).toHost

/-- `Store(addr, n, v)`: `MemWrite` with no isolation test (R304). -/
def hostStore (s : State) (addr : Word) (n : Width) (v : Word) : HostAccess Unit := (memWrite s addr n v).toHost

/-- `Halted()` (R304). -/
def hostHalted (s : State) : Option FatalRecord := s.halted

/-- Device stepping: the host advances a device; only what the device has seen changes (R300, R304). -/
def hostStepDevice (s : State) (dev : Device) (cycles : Nat) : State :=
  { s with history := s.history ++ [.stepped dev cycles] }

end Sys2Proof.Machine
end

