-- ==== Sys2Proof/Safety.lean ====
section
/-! DEFINITION. What counts as a safe run of the CORE, and the words the claims are stated in: the machine's invariant,
the bytes of memory as 20_memory.md R64 joins them, and what an instruction changed. -/

namespace Sys2Proof.Machine

/-- The machine has not stopped (10_state.md R36). A run is safe while this holds: a fatal condition is the only way it
ends (60_exceptions.md R292). -/
abbrev State.running (s : State) : Prop := s.halted = none

/-- The physical address lies in RAM, SCRATCH or BIOS (20_memory.md R66, R67). -/
def isMemoryAddress (p : Nat) : Bool :=
  match classify p with
  | some r => kindOf r.dev != .external
  | none => false

/-- The physical address lies in the BIOS window (R67). -/
def isBiosAddress (p : Nat) : Bool :=
  match classify p with
  | some r => r.dev == .bios
  | none => false

/-- The invariant of the CORE between steps. -/
structure State.Inv (s : State) : Prop where
  /-- Entry 0 of the committed bank holds 0 (R22). -/
  committedZero : s.committed[0] = 0#32
  /-- Entry 0 of the output bank holds 0 (R22). -/
  outputZero : s.output[0] = 0#32
  /-- Between two steps the banks are equal (R24), while the machine runs. -/
  banksEqual : s.running → s.committed = s.output
  /-- Memory is in its canonical form. -/
  memoryCanonical : Memory.wf s.mem = true
  /-- Memory lists bytes of RAM, SCRATCH and BIOS only. -/
  memoryMapped : ∀ c ∈ s.mem, isMemoryAddress c.1 = true

/-- The byte at a physical address. -/
def State.byteAt (s : State) (p : Nat) : Byte := Memory.read s.mem p

/-- `{B[o+1], B[o]}` (R64). -/
def State.halfAt (s : State) (p : Nat) : BitVec 16 := s.byteAt (p + 1) ++ s.byteAt p

/-- `{B[o+3], B[o+2], B[o+1], B[o]}` (R64). -/
def State.wordAt (s : State) (p : Nat) : Word := s.byteAt (p + 3) ++ s.byteAt (p + 2) ++ s.byteAt (p + 1) ++ s.byteAt p

/-- `t` is `s` after a direct write of register `d`: only the output bank changed, and in it only `d`, which is
discarded when `d` is 0 (40_pipeline_cycle.md R127). -/
def WritesReg (s t : State) (d : RegIdx) (v : Word) : Prop :=
  t = { s with output := t.output } ∧ ∀ j, t.xo j = if j = d ∧ d ≠ 0#5 then v else s.xo j

/-- `t` is `s` after a write to `HI` and `LO` that leaves everything else alone. -/
def WritesHiLo (s t : State) (h l : Word) : Prop := t = { s with hi := h, lo := l }

/-- `t` is `s` stopped by a fatal condition in the execute phase, with nothing else changed (60_exceptions.md R291). -/
def HaltsWith (s t : State) (reason : FatalReason) (word : Word) : Prop :=
  t = { s with halted := some { reason := reason, phase := .execute, word := word, pc := s.pc } }

/-- `t` is `s` after a store of the `n` bytes from physical address `p` on: only memory changed, and outside those bytes
every byte reads as before. -/
def StoresAt (s t : State) (p n : Nat) : Prop :=
  t = { s with mem := t.mem } ∧ ∀ a, a < p ∨ p + n ≤ a → t.byteAt a = s.byteAt a

/-- The physical address an access is dispatched to. -/
def physicalOf (addr : Word) : Nat := (physical addr).toNat

/-- Every SPECIAL word with this function code is this instruction, over the word's R-type fields (30_encoding.md R99). -/
def SpecialFunct (fn : BitVec 6) (c : RType → Instr) : Prop :=
  ∀ w : Word, opOf w = 0x00#6 → functOf w = fn → decode w = .ok (c (RType.ofWord w))

/-- Every word with this primary opcode is this instruction, over the word's I-type fields (R97). -/
def PrimaryOp (op : BitVec 6) (c : IType → Instr) : Prop :=
  ∀ w : Word, opOf w = op → decode w = .ok (c (IType.ofWord w))

/-- Every REGIMM word with this selector is this instruction (R100). -/
def RegimmSelector (sel : BitVec 5) (c : RegIdx → BitVec 16 → Instr) : Prop :=
  ∀ w : Word, opOf w = 0x01#6 → rtOf w = sel → decode w = .ok (c (rsOf w) (immOf w))

/-- Every COP0 word with this sub-opcode is this instruction (R101). -/
def Cop0Sub (cop : BitVec 5) (c : CopType → Instr) : Prop :=
  ∀ w : Word, opOf w = 0x10#6 → copOf w = cop → decode w = .ok (c (CopType.ofWord w))

/-- The instruction is one of the 18 named fatal forms (45_cop0.md R263 to R267). -/
def isFatalForm : Instr → Bool
  | .syscall _ | .brk _ | .cfc0 _ | .ctc0 _ | .bc0 _ _ | .rfe _ | .cop0Co _ | .cop1 _ | .cop2 _ | .cop3 _
  | .lwc0 _ | .lwc1 _ | .lwc2 _ | .lwc3 _ | .swc0 _ | .swc1 _ | .swc2 _ | .swc3 _ => true
  | .sll _ | .srl _ | .sra _ | .sllv _ | .srlv _ | .srav _ | .jr _ | .jalr _ | .mfhi _ | .mthi _ | .mflo _ | .mtlo _
  | .mult _ | .multu _ | .div _ | .divu _ | .add _ | .addu _ | .sub _ | .subu _ | .and _ | .or _ | .xor _ | .nor _
  | .slt _ | .sltu _ | .j _ | .jal _ | .beq _ | .bne _ | .blez _ | .bgtz _ | .addi _ | .addiu _ | .slti _ | .sltiu _
  | .andi _ | .ori _ | .xori _ | .lui _ | .lb _ | .lh _ | .lwl _ | .lw _ | .lbu _ | .lhu _ | .lwr _ | .sb _ | .sh _
  | .swl _ | .sw _ | .swr _ | .bltz _ _ | .bgez _ _ | .bltzal _ _ | .bgezal _ _ | .mfc0 _ | .mtc0 _ => false

/-- The instruction is one of the five stores (43_load_store.md). -/
def isStore : Instr → Bool
  | .sb _ | .sh _ | .sw _ | .swl _ | .swr _ => true
  | _ => false

/-- The instruction is one of the six that write `HI` or `LO` (10_state.md R32). -/
def writesHiLo : Instr → Bool
  | .mult _ | .multu _ | .div _ | .divu _ | .mthi _ | .mtlo _ => true
  | _ => false

/-- The instruction is one of the eight that stage through the load-delay slot (R26). -/
def stages : Instr → Bool
  | .lb _ | .lbu _ | .lh _ | .lhu _ | .lw _ | .lwl _ | .lwr _ | .mfc0 _ => true
  | _ => false

/-- The instruction is one of the twelve branches and jumps (44_branch_jump.md). -/
def transfersControl : Instr → Bool
  | .beq _ | .bne _ | .blez _ | .bgtz _ | .bltz _ _ | .bgez _ _ | .bltzal _ _ | .bgezal _ _
  | .j _ | .jal _ | .jr _ | .jalr _ => true
  | _ => false

/-- The target of a branch from the tentative PC `p`: the word after the branch plus the offset in words (R231). -/
def relativeTarget (p : Word) (imm : BitVec 16) : Word := p - 4#32 + BitVec.ofInt 32 (4 * imm.toInt)

/-- Where a branch or jump sends `pc` from the tentative PC `p`, with its operands read by `x`: a branch that is not taken
leaves `p` (R233 to R244). -/
def transferTarget (x : RegIdx → Word) (p : Word) : Instr → Option Word
  | .beq f => some (if x f.rs = x f.rt then relativeTarget p f.imm else p)
  | .bne f => some (if x f.rs = x f.rt then p else relativeTarget p f.imm)
  | .blez f => some (if (x f.rs).toInt ≤ 0 then relativeTarget p f.imm else p)
  | .bgtz f => some (if (x f.rs).toInt > 0 then relativeTarget p f.imm else p)
  | .bltz rs imm | .bltzal rs imm => some (if (x rs).toInt < 0 then relativeTarget p imm else p)
  | .bgez rs imm | .bgezal rs imm => some (if (x rs).toInt ≥ 0 then relativeTarget p imm else p)
  | .j target | .jal target => some (p.extractLsb' 28 4 ++ target ++ 0#2)
  | .jr f | .jalr f => some (x f.rs)
  | _ => none

/-- The link register of a branch or jump that links (R232). -/
def linkDest : Instr → Option RegIdx
  | .jal _ | .bltzal _ _ | .bgezal _ _ => some 31#5
  | .jalr f => some f.rd
  | _ => none

/-- The instruction is an LWL or LWR whose merge input is register `j` (R209, R210). -/
def mergesInto (j : RegIdx) : Instr → Bool
  | .lwl f | .lwr f => f.rt == j
  | _ => false

/-- The general register an instruction writes directly (R26): `rd`, `rt` or 31, or none. -/
def directDest : Instr → Option RegIdx
  | .add f | .addu f | .sub f | .subu f | .and f | .or f | .xor f | .nor f | .slt f | .sltu f
  | .sll f | .srl f | .sra f | .sllv f | .srlv f | .srav f | .mfhi f | .mflo f | .jalr f => some f.rd
  | .addi f | .addiu f | .slti f | .sltiu f | .andi f | .ori f | .xori f | .lui f => some f.rt
  | .jal _ | .bltzal _ _ | .bgezal _ _ => some 31#5
  | _ => none

end Sys2Proof.Machine
end

