-- ==== Sys2Proof/Certificates/Slice0/Obligations.lean ====
section
/-! DEFINITION. The statements for the provers. Each says which rule of the spec it formalises. `exec` is the execute
phase of a step, in which `pc` is the tentative PC; `step` is the whole step. That an instruction which raises a fatal
condition leaves `exec`'s own next state unchanged but for `halted` is notes/assumptions/6.md; what the step then leaves is
notes/assumptions/4.md. -/

open Sys2Proof Sys2Proof.Machine

/-! ## Arithmetic, logic, compare and shift (41_alu.md) -/

/-- R141, R143, R151: ADDU, SUBU and ADDIU write the sum or difference modulo 2^32 and never fail. -/
def Obligations.WrappingArithmeticResults : Prop :=
  SpecialFunct 0x21#6 .addu ∧ SpecialFunct 0x23#6 .subu ∧ PrimaryOp 0x09#6 .addiu ∧
  ∀ (f : RType) (g : IType) (s : State),
    (∃ t, exec (.addu f) s = .next t ∧
      WritesReg s t f.rd (BitVec.ofNat 32 ((s.x f.rs).toNat + (s.x f.rt).toNat))) ∧
    (∃ t, exec (.subu f) s = .next t ∧
      WritesReg s t f.rd (BitVec.ofInt 32 ((s.x f.rs).toNat - (s.x f.rt).toNat))) ∧
    (∃ t, exec (.addiu g) s = .next t ∧
      WritesReg s t g.rt (BitVec.ofInt 32 ((s.x g.rs).toNat + g.imm.toInt)))

/-- R140, R142, R150: ADD, SUB and ADDI write the exact signed result where it fits in 32 bits, and otherwise stop the
machine with `Overflow` and no register write, whatever the destination. -/
def Obligations.CheckedArithmeticResults : Prop :=
  SpecialFunct 0x20#6 .add ∧ SpecialFunct 0x22#6 .sub ∧ PrimaryOp 0x08#6 .addi ∧
  ∀ (f : RType) (g : IType) (s : State),
    (∃ t, exec (.add f) s = .next t ∧
      if -2 ^ 31 ≤ (s.x f.rs).toInt + (s.x f.rt).toInt ∧ (s.x f.rs).toInt + (s.x f.rt).toInt ≤ 2 ^ 31 - 1 then
        WritesReg s t f.rd (BitVec.ofInt 32 ((s.x f.rs).toInt + (s.x f.rt).toInt))
      else HaltsWith s t (.overflow (encode (.add f))) (encode (.add f))) ∧
    (∃ t, exec (.sub f) s = .next t ∧
      if -2 ^ 31 ≤ (s.x f.rs).toInt - (s.x f.rt).toInt ∧ (s.x f.rs).toInt - (s.x f.rt).toInt ≤ 2 ^ 31 - 1 then
        WritesReg s t f.rd (BitVec.ofInt 32 ((s.x f.rs).toInt - (s.x f.rt).toInt))
      else HaltsWith s t (.overflow (encode (.sub f))) (encode (.sub f))) ∧
    (∃ t, exec (.addi g) s = .next t ∧
      if -2 ^ 31 ≤ (s.x g.rs).toInt + g.imm.toInt ∧ (s.x g.rs).toInt + g.imm.toInt ≤ 2 ^ 31 - 1 then
        WritesReg s t g.rt (BitVec.ofInt 32 ((s.x g.rs).toInt + g.imm.toInt))
      else HaltsWith s t (.overflow (encode (.addi g))) (encode (.addi g)))

/-- R144 to R147, R154 to R157: the bitwise instructions, bit by bit; the immediate is zero-extended, and LUI puts it in
the upper half. -/
def Obligations.BitwiseLogicResults : Prop :=
  (SpecialFunct 0x24#6 .and ∧ SpecialFunct 0x25#6 .or ∧ SpecialFunct 0x26#6 .xor ∧ SpecialFunct 0x27#6 .nor ∧
    PrimaryOp 0x0C#6 .andi ∧ PrimaryOp 0x0D#6 .ori ∧ PrimaryOp 0x0E#6 .xori ∧ PrimaryOp 0x0F#6 .lui) ∧
  ∀ (f : RType) (g : IType) (s : State),
    (∃ t v, exec (.and f) s = .next t ∧ WritesReg s t f.rd v ∧
      ∀ k < 32, v.getLsbD k = ((s.x f.rs).getLsbD k && (s.x f.rt).getLsbD k)) ∧
    (∃ t v, exec (.or f) s = .next t ∧ WritesReg s t f.rd v ∧
      ∀ k < 32, v.getLsbD k = ((s.x f.rs).getLsbD k || (s.x f.rt).getLsbD k)) ∧
    (∃ t v, exec (.xor f) s = .next t ∧ WritesReg s t f.rd v ∧
      ∀ k < 32, v.getLsbD k = ((s.x f.rs).getLsbD k != (s.x f.rt).getLsbD k)) ∧
    (∃ t v, exec (.nor f) s = .next t ∧ WritesReg s t f.rd v ∧
      ∀ k < 32, v.getLsbD k = !((s.x f.rs).getLsbD k || (s.x f.rt).getLsbD k)) ∧
    (∃ t v, exec (.andi g) s = .next t ∧ WritesReg s t g.rt v ∧
      ∀ k < 32, v.getLsbD k = ((s.x g.rs).getLsbD k && g.imm.getLsbD k)) ∧
    (∃ t v, exec (.ori g) s = .next t ∧ WritesReg s t g.rt v ∧
      ∀ k < 32, v.getLsbD k = ((s.x g.rs).getLsbD k || g.imm.getLsbD k)) ∧
    (∃ t v, exec (.xori g) s = .next t ∧ WritesReg s t g.rt v ∧
      ∀ k < 32, v.getLsbD k = ((s.x g.rs).getLsbD k != g.imm.getLsbD k)) ∧
    (∃ t v, exec (.lui g) s = .next t ∧ WritesReg s t g.rt v ∧
      ∀ k < 32, v.getLsbD k = (decide (16 ≤ k) && g.imm.getLsbD (k - 16)))

/-- R148, R149, R152, R153: the compares write 1 or 0; the immediate is sign-extended for both. -/
def Obligations.CompareResults : Prop :=
  (SpecialFunct 0x2A#6 .slt ∧ SpecialFunct 0x2B#6 .sltu ∧ PrimaryOp 0x0A#6 .slti ∧ PrimaryOp 0x0B#6 .sltiu) ∧
  ∀ (f : RType) (g : IType) (s : State),
    (∃ t, exec (.slt f) s = .next t ∧
      WritesReg s t f.rd (if (s.x f.rs).toInt < (s.x f.rt).toInt then 1#32 else 0#32)) ∧
    (∃ t, exec (.sltu f) s = .next t ∧
      WritesReg s t f.rd (if (s.x f.rs).toNat < (s.x f.rt).toNat then 1#32 else 0#32)) ∧
    (∃ t, exec (.slti g) s = .next t ∧
      WritesReg s t g.rt (if (s.x g.rs).toInt < g.imm.toInt then 1#32 else 0#32)) ∧
    (∃ t, exec (.sltiu g) s = .next t ∧
      WritesReg s t g.rt (if (s.x g.rs).toNat < (BitVec.ofInt 32 g.imm.toInt).toNat then 1#32 else 0#32))

/-- R158 to R163: the shifts as multiplication and division by powers of two; a variable amount is rs modulo 32. -/
def Obligations.ShiftResults : Prop :=
  (SpecialFunct 0x00#6 .sll ∧ SpecialFunct 0x02#6 .srl ∧ SpecialFunct 0x03#6 .sra ∧
    SpecialFunct 0x04#6 .sllv ∧ SpecialFunct 0x06#6 .srlv ∧ SpecialFunct 0x07#6 .srav) ∧
  ∀ (f : RType) (s : State),
    (∃ t, exec (.sll f) s = .next t ∧
      WritesReg s t f.rd (BitVec.ofNat 32 ((s.x f.rt).toNat * 2 ^ f.shamt.toNat))) ∧
    (∃ t, exec (.srl f) s = .next t ∧
      WritesReg s t f.rd (BitVec.ofNat 32 ((s.x f.rt).toNat / 2 ^ f.shamt.toNat))) ∧
    (∃ t, exec (.sra f) s = .next t ∧
      WritesReg s t f.rd (BitVec.ofInt 32 ((s.x f.rt).toInt / 2 ^ f.shamt.toNat))) ∧
    (∃ t, exec (.sllv f) s = .next t ∧
      WritesReg s t f.rd (BitVec.ofNat 32 ((s.x f.rt).toNat * 2 ^ ((s.x f.rs).toNat % 32)))) ∧
    (∃ t, exec (.srlv f) s = .next t ∧
      WritesReg s t f.rd (BitVec.ofNat 32 ((s.x f.rt).toNat / 2 ^ ((s.x f.rs).toNat % 32)))) ∧
    (∃ t, exec (.srav f) s = .next t ∧
      WritesReg s t f.rd (BitVec.ofInt 32 ((s.x f.rt).toInt / 2 ^ ((s.x f.rs).toNat % 32))))

/-- R137: both readings of signed overflow, by the integer range and by the sign bits, are the same. -/
def Obligations.OverflowBySignBits : Prop :=
  ∀ a b : Word,
    ((¬(-2 ^ 31 ≤ a.toInt + b.toInt ∧ a.toInt + b.toInt ≤ 2 ^ 31 - 1)) ↔
      (a.getLsbD 31 = b.getLsbD 31 ∧ (a + b).getLsbD 31 ≠ a.getLsbD 31)) ∧
    ((¬(-2 ^ 31 ≤ a.toInt - b.toInt ∧ a.toInt - b.toInt ≤ 2 ^ 31 - 1)) ↔
      (a.getLsbD 31 ≠ b.getLsbD 31 ∧ (a - b).getLsbD 31 ≠ a.getLsbD 31)) ∧
    (ovfAdd a b = true ↔ ¬(-2 ^ 31 ≤ a.toInt + b.toInt ∧ a.toInt + b.toInt ≤ 2 ^ 31 - 1)) ∧
    (ovfSub a b = true ↔ ¬(-2 ^ 31 ≤ a.toInt - b.toInt ∧ a.toInt - b.toInt ≤ 2 ^ 31 - 1))

/-! ## Multiply and divide (42_muldiv.md) -/

/-- R181, R182: HI and LO together are the exact 64-bit product, signed for MULT and unsigned for MULTU. -/
def Obligations.MultiplyResults : Prop :=
  (SpecialFunct 0x18#6 .mult ∧ SpecialFunct 0x19#6 .multu) ∧
  ∀ (f : RType) (s : State),
    (∃ t, exec (.mult f) s = .next t ∧ WritesHiLo s t t.hi t.lo ∧
      t.hi.toInt * 2 ^ 32 + t.lo.toNat = (s.x f.rs).toInt * (s.x f.rt).toInt) ∧
    (∃ t, exec (.multu f) s = .next t ∧ WritesHiLo s t t.hi t.lo ∧
      t.hi.toNat * 2 ^ 32 + t.lo.toNat = (s.x f.rs).toNat * (s.x f.rt).toNat)

/-- R183, R184: DIV and DIVU, with the rows for a zero divisor and for 0x8000_0000 / -1; neither fails. -/
def Obligations.DivideResults : Prop :=
  (SpecialFunct 0x1A#6 .div ∧ SpecialFunct 0x1B#6 .divu) ∧
  ∀ (f : RType) (s : State),
    (∃ t, exec (.div f) s = .next t ∧
      if s.x f.rt = 0#32 then
        WritesHiLo s t (s.x f.rs) (if 0 ≤ (s.x f.rs).toInt then 0xFFFFFFFF#32 else 0x00000001#32)
      else if s.x f.rs = 0x80000000#32 ∧ s.x f.rt = 0xFFFFFFFF#32 then WritesHiLo s t 0#32 0x80000000#32
      else WritesHiLo s t (BitVec.ofInt 32 ((s.x f.rs).toInt.tmod (s.x f.rt).toInt))
        (BitVec.ofInt 32 ((s.x f.rs).toInt.tdiv (s.x f.rt).toInt))) ∧
    (∃ t, exec (.divu f) s = .next t ∧
      if s.x f.rt = 0#32 then WritesHiLo s t (s.x f.rs) 0xFFFFFFFF#32
      else t.hi.toNat = (s.x f.rs).toNat % (s.x f.rt).toNat ∧ t.lo.toNat = (s.x f.rs).toNat / (s.x f.rt).toNat ∧
        WritesHiLo s t t.hi t.lo)

/-- R189's identities: for a nonzero divisor, except 0x8000_0000 / -1, the dividend is quotient times divisor plus
remainder, the remainder is smaller than the divisor and has the sign of the dividend. -/
def Obligations.DivisionIdentity : Prop :=
  ∀ (f : RType) (s t : State), exec (.div f) s = .next t → s.x f.rt ≠ 0#32 →
    ¬(s.x f.rs = 0x80000000#32 ∧ s.x f.rt = 0xFFFFFFFF#32) →
    (s.x f.rs).toInt = t.lo.toInt * (s.x f.rt).toInt + t.hi.toInt ∧
    |t.hi.toInt| < |(s.x f.rt).toInt| ∧
    (0 ≤ (s.x f.rs).toInt → 0 ≤ t.hi.toInt) ∧ ((s.x f.rs).toInt ≤ 0 → t.hi.toInt ≤ 0)

/-- R185 to R188: the moves between HI, LO and a general register, with no load delay. -/
def Obligations.HiLoMoveResults : Prop :=
  (SpecialFunct 0x10#6 .mfhi ∧ SpecialFunct 0x11#6 .mthi ∧ SpecialFunct 0x12#6 .mflo ∧ SpecialFunct 0x13#6 .mtlo) ∧
  ∀ (f : RType) (s : State),
    (∃ t, exec (.mfhi f) s = .next t ∧ WritesReg s t f.rd s.hi) ∧
    (∃ t, exec (.mthi f) s = .next t ∧ WritesHiLo s t (s.x f.rs) s.lo) ∧
    (∃ t, exec (.mflo f) s = .next t ∧ WritesReg s t f.rd s.lo) ∧
    (∃ t, exec (.mtlo f) s = .next t ∧ WritesHiLo s t s.hi (s.x f.rs))

/-! ## Loads and stores (43_load_store.md), where the address lies in RAM, SCRATCH or BIOS -/

/-- R203 to R207 in memory windows: an aligned load stages the little-endian value at the effective address, extended as
the instruction says, and changes nothing else. -/
def Obligations.AlignedLoadResults : Prop :=
  (PrimaryOp 0x20#6 .lb ∧ PrimaryOp 0x24#6 .lbu ∧ PrimaryOp 0x21#6 .lh ∧ PrimaryOp 0x25#6 .lhu ∧
    PrimaryOp 0x23#6 .lw) ∧
  ∀ (f : IType) (s : State), s.isolated = false → isMemoryAddress (physicalOf (effAddr f s)) = true →
    effAddr f s = BitVec.ofInt 32 ((s.x f.rs).toNat + f.imm.toInt) ∧
    exec (.lb f) s = .next { s with load := some (f.rt, (s.byteAt (physicalOf (effAddr f s))).signExtend 32) } ∧
    exec (.lbu f) s = .next { s with load := some (f.rt, (s.byteAt (physicalOf (effAddr f s))).setWidth 32) } ∧
    ((effAddr f s).toNat % 2 = 0 →
      exec (.lh f) s = .next { s with load := some (f.rt, (s.halfAt (physicalOf (effAddr f s))).signExtend 32) } ∧
      exec (.lhu f) s = .next { s with load := some (f.rt, (s.halfAt (physicalOf (effAddr f s))).setWidth 32) }) ∧
    ((effAddr f s).toNat % 4 = 0 →
      exec (.lw f) s = .next { s with load := some (f.rt, s.wordAt (physicalOf (effAddr f s))) })

/-- R209, R210 in memory windows: LWL and LWR stage the merge of the aligned word's bytes into `xo[rt]`, the output
bank's register, for each byte position, and never raise `Unaligned`. -/
def Obligations.UnalignedLoadResults : Prop :=
  (PrimaryOp 0x22#6 .lwl ∧ PrimaryOp 0x26#6 .lwr) ∧
  ∀ (f : IType) (s : State), s.isolated = false → isMemoryAddress (physicalOf (wordAddr (effAddr f s))) = true →
    let p := physicalOf (wordAddr (effAddr f s))
    let cur := s.xo f.rt
    (∃ v, exec (.lwl f) s = .next { s with load := some (f.rt, v) } ∧
      ((effAddr f s).toNat % 4 = 0 → v = s.byteAt p ++ cur.extractLsb' 0 24) ∧
      ((effAddr f s).toNat % 4 = 1 → v = s.byteAt (p + 1) ++ s.byteAt p ++ cur.extractLsb' 0 16) ∧
      ((effAddr f s).toNat % 4 = 2 → v = s.byteAt (p + 2) ++ s.byteAt (p + 1) ++ s.byteAt p ++ cur.extractLsb' 0 8) ∧
      ((effAddr f s).toNat % 4 = 3 → v = s.wordAt p)) ∧
    (∃ v, exec (.lwr f) s = .next { s with load := some (f.rt, v) } ∧
      ((effAddr f s).toNat % 4 = 0 → v = s.wordAt p) ∧
      ((effAddr f s).toNat % 4 = 1 →
        v = cur.extractLsb' 24 8 ++ s.byteAt (p + 3) ++ s.byteAt (p + 2) ++ s.byteAt (p + 1)) ∧
      ((effAddr f s).toNat % 4 = 2 → v = cur.extractLsb' 16 16 ++ s.byteAt (p + 3) ++ s.byteAt (p + 2)) ∧
      ((effAddr f s).toNat % 4 = 3 → v = cur.extractLsb' 8 24 ++ s.byteAt (p + 3)))

/-- R210's pair: `lwl rt, 3(b)` then `lwr rt, 0(b)`, with the LWL value resolved between them, stages the little-endian
word at the unaligned address b, wherever its first and last byte lie in RAM, SCRATCH or BIOS, through any segment. -/
def Obligations.LwlLwrPairLoadsUnalignedWord : Prop :=
  ∀ (base rt : RegIdx) (imm3 imm0 : BitVec 16) (s : State), s.isolated = false → rt ≠ 0#5 →
    let b := effAddr ⟨base, rt, imm0⟩ s
    effAddr ⟨base, rt, imm3⟩ s = b + 3#32 →
    isMemoryAddress (physicalOf b) = true → isMemoryAddress (physicalOf (b + 3#32)) = true →
    ∃ t u, exec (.lwl ⟨base, rt, imm3⟩) s = .next t ∧ exec (.lwr ⟨base, rt, imm0⟩) t.resolveLoad = .next u ∧
      u.load = some (rt, s.wordAt (physicalOf b))

/-- R211 to R213 in RAM and SCRATCH: an aligned store writes the low bytes of rt, little-endian, at the effective
address, and changes no other byte and nothing else. -/
def Obligations.AlignedStoreResults : Prop :=
  (PrimaryOp 0x28#6 .sb ∧ PrimaryOp 0x29#6 .sh ∧ PrimaryOp 0x2B#6 .sw) ∧
  ∀ (f : IType) (s : State) (r : Range), s.isolated = false → Memory.wf s.mem = true →
    classify (physicalOf (effAddr f s)) = some r → kindOf r.dev = .storage →
    (∃ t, exec (.sb f) s = .next t ∧ StoresAt s t (physicalOf (effAddr f s)) 1 ∧
      t.byteAt (physicalOf (effAddr f s)) = (s.x f.rt).setWidth 8) ∧
    ((effAddr f s).toNat % 2 = 0 → ∃ t, exec (.sh f) s = .next t ∧ StoresAt s t (physicalOf (effAddr f s)) 2 ∧
      t.halfAt (physicalOf (effAddr f s)) = (s.x f.rt).setWidth 16) ∧
    ((effAddr f s).toNat % 4 = 0 → ∃ t, exec (.sw f) s = .next t ∧ StoresAt s t (physicalOf (effAddr f s)) 4 ∧
      t.wordAt (physicalOf (effAddr f s)) = s.x f.rt)

/-- R214, R215 in RAM and SCRATCH: SWL and SWR replace the named bytes of the aligned word, for each byte position, and
change no other byte and nothing else. -/
def Obligations.UnalignedStoreResults : Prop :=
  (PrimaryOp 0x2A#6 .swl ∧ PrimaryOp 0x2E#6 .swr) ∧
  ∀ (f : IType) (s : State) (r : Range), s.isolated = false → Memory.wf s.mem = true →
    classify (physicalOf (wordAddr (effAddr f s))) = some r → kindOf r.dev = .storage →
    let p := physicalOf (wordAddr (effAddr f s))
    let old := s.wordAt p
    let v := s.x f.rt
    (∃ t, exec (.swl f) s = .next t ∧ StoresAt s t p 4 ∧
      ((effAddr f s).toNat % 4 = 0 → t.wordAt p = old.extractLsb' 8 24 ++ v.extractLsb' 24 8) ∧
      ((effAddr f s).toNat % 4 = 1 → t.wordAt p = old.extractLsb' 16 16 ++ v.extractLsb' 16 16) ∧
      ((effAddr f s).toNat % 4 = 2 → t.wordAt p = old.extractLsb' 24 8 ++ v.extractLsb' 8 24) ∧
      ((effAddr f s).toNat % 4 = 3 → t.wordAt p = v)) ∧
    (∃ t, exec (.swr f) s = .next t ∧ StoresAt s t p 4 ∧
      ((effAddr f s).toNat % 4 = 0 → t.wordAt p = v) ∧
      ((effAddr f s).toNat % 4 = 1 → t.wordAt p = v.extractLsb' 0 24 ++ old.extractLsb' 0 8) ∧
      ((effAddr f s).toNat % 4 = 2 → t.wordAt p = v.extractLsb' 0 16 ++ old.extractLsb' 0 16) ∧
      ((effAddr f s).toNat % 4 = 3 → t.wordAt p = v.extractLsb' 0 8 ++ old.extractLsb' 0 24))

/-- R215's pair: `swl rt, 3(b)` then `swr rt, 0(b)` stores rt, little-endian, at the unaligned address b and changes no
other byte, wherever its first and last byte lie in RAM or SCRATCH, through any segment. -/
def Obligations.SwlSwrPairStoresUnalignedWord : Prop :=
  ∀ (base rt : RegIdx) (imm3 imm0 : BitVec 16) (s : State) (r r' : Range), s.isolated = false →
    Memory.wf s.mem = true →
    let b := effAddr ⟨base, rt, imm0⟩ s
    effAddr ⟨base, rt, imm3⟩ s = b + 3#32 →
    classify (physicalOf b) = some r → kindOf r.dev = .storage →
    classify (physicalOf (b + 3#32)) = some r' → kindOf r'.dev = .storage →
    ∃ t u, exec (.swl ⟨base, rt, imm3⟩) s = .next t ∧ exec (.swr ⟨base, rt, imm0⟩) t = .next u ∧
      StoresAt s u (physicalOf b) 4 ∧ u.wordAt (physicalOf b) = s.x rt

/-! ## The other forms of an access -/

/-- R56, R286: a half-word or word access at a misaligned address stops the machine with `Unaligned`, mapped or not; no
memory, register or device changes. -/
def Obligations.MisalignedAccessHalts : Prop :=
  ∀ (f : IType) (s : State), s.isolated = false →
    let a := effAddr f s
    (a.toNat % 2 ≠ 0 →
      (∃ t, exec (.lh f) s = .next t ∧ HaltsWith s t (.unaligned a .half .load) (encode (.lh f))) ∧
      (∃ t, exec (.lhu f) s = .next t ∧ HaltsWith s t (.unaligned a .half .load) (encode (.lhu f))) ∧
      (∃ t, exec (.sh f) s = .next t ∧ HaltsWith s t (.unaligned a .half .store) (encode (.sh f)))) ∧
    (a.toNat % 4 ≠ 0 →
      (∃ t, exec (.lw f) s = .next t ∧ HaltsWith s t (.unaligned a .word .load) (encode (.lw f))) ∧
      (∃ t, exec (.sw f) s = .next t ∧ HaltsWith s t (.unaligned a .word .store) (encode (.sw f))))

/-- R58, R285: an aligned access whose physical address matches no range stops the machine with `Unmapped`; it returns no
value and has no effect. -/
def Obligations.UnmappedAccessHalts : Prop :=
  ∀ (f : IType) (s : State), s.isolated = false →
    let a := effAddr f s
    let w := wordAddr (effAddr f s)
    (classify (physicalOf a) = none →
      (∃ t, exec (.lb f) s = .next t ∧ HaltsWith s t (.unmapped a (physical a) .byte .load) (encode (.lb f))) ∧
      (∃ t, exec (.lbu f) s = .next t ∧ HaltsWith s t (.unmapped a (physical a) .byte .load) (encode (.lbu f))) ∧
      (∃ t, exec (.sb f) s = .next t ∧ HaltsWith s t (.unmapped a (physical a) .byte .store) (encode (.sb f))) ∧
      (a.toNat % 2 = 0 →
        (∃ t, exec (.lh f) s = .next t ∧ HaltsWith s t (.unmapped a (physical a) .half .load) (encode (.lh f))) ∧
        (∃ t, exec (.lhu f) s = .next t ∧ HaltsWith s t (.unmapped a (physical a) .half .load) (encode (.lhu f))) ∧
        (∃ t, exec (.sh f) s = .next t ∧ HaltsWith s t (.unmapped a (physical a) .half .store) (encode (.sh f)))) ∧
      (a.toNat % 4 = 0 →
        (∃ t, exec (.lw f) s = .next t ∧ HaltsWith s t (.unmapped a (physical a) .word .load) (encode (.lw f))) ∧
        (∃ t, exec (.sw f) s = .next t ∧ HaltsWith s t (.unmapped a (physical a) .word .store) (encode (.sw f))))) ∧
    (classify (physicalOf w) = none →
      (∃ t, exec (.lwl f) s = .next t ∧ HaltsWith s t (.unmapped w (physical w) .word .load) (encode (.lwl f))) ∧
      (∃ t, exec (.lwr f) s = .next t ∧ HaltsWith s t (.unmapped w (physical w) .word .load) (encode (.lwr f))) ∧
      (∃ t, exec (.swl f) s = .next t ∧ HaltsWith s t (.unmapped w (physical w) .word .load) (encode (.swl f))) ∧
      (∃ t, exec (.swr f) s = .next t ∧ HaltsWith s t (.unmapped w (physical w) .word .load) (encode (.swr f))))

/-- R289 and R67's store clause: a store of any width to the BIOS range stops the machine with `BiosStore`. The virtual
address in the record is the model's reading (notes/assumptions/11.md). -/
def Obligations.BiosStoreHalts : Prop :=
  ∀ (f : IType) (s : State), s.isolated = false →
    let a := effAddr f s
    let w := wordAddr (effAddr f s)
    (isBiosAddress (physicalOf a) = true →
      (∃ t, exec (.sb f) s = .next t ∧ HaltsWith s t (.biosStore a .byte) (encode (.sb f))) ∧
      (a.toNat % 2 = 0 → ∃ t, exec (.sh f) s = .next t ∧ HaltsWith s t (.biosStore a .half) (encode (.sh f))) ∧
      (a.toNat % 4 = 0 → ∃ t, exec (.sw f) s = .next t ∧ HaltsWith s t (.biosStore a .word) (encode (.sw f)))) ∧
    (isBiosAddress (physicalOf w) = true →
      (∃ t, exec (.swl f) s = .next t ∧ HaltsWith s t (.biosStore w .word) (encode (.swl f))) ∧
      (∃ t, exec (.swr f) s = .next t ∧ HaltsWith s t (.biosStore w .word) (encode (.swr f))))

/-- R68, R288: an external device that accepts a load answers with the draw `DEVICE_READ`, for every value of it, and one that
does not accept it stops the machine with `WidthMismatch`. That an accepted load is an event of the history, and that a
refused one leaves none, is the model's (notes/assumptions/7.md, 8.md): R68 records stores only. -/
def Obligations.DeviceLoadResults : Prop :=
  ∀ (f : IType) (s : State) (r : Range), s.isolated = false → kindOf r.dev = .external →
    let a := effAddr f s
    let off := physicalOf a - r.base
    let woff := physicalOf (wordAddr a) - r.base
    let read := fun (o : Nat) (n : Width) => Config.deviceRead r.dev o n s.history
    let answer := fun (o : Nat) (n : Width) (v word : Word) =>
      if Config.deviceAccepts r.dev o n .load = true then
        { s with load := some (f.rt, v), history := s.history ++ [.loaded r.dev o n] }
      else { s with halted := some ⟨.widthMismatch r.dev o n .load, .execute, word, s.pc⟩ }
    (classify (physicalOf a) = some r →
      exec (.lb f) s = .next (answer off .byte (((read off .byte).setWidth 8).signExtend 32) (encode (.lb f))) ∧
      exec (.lbu f) s = .next (answer off .byte (((read off .byte).setWidth 8).setWidth 32) (encode (.lbu f))) ∧
      (a.toNat % 2 = 0 →
        exec (.lh f) s = .next (answer off .half (((read off .half).setWidth 16).signExtend 32) (encode (.lh f))) ∧
        exec (.lhu f) s = .next (answer off .half (((read off .half).setWidth 16).setWidth 32) (encode (.lhu f)))) ∧
      (a.toNat % 4 = 0 → exec (.lw f) s = .next (answer off .word (read off .word) (encode (.lw f))))) ∧
    (classify (physicalOf (wordAddr a)) = some r →
      exec (.lwl f) s = .next (answer woff .word (mergeLwl a (s.xo f.rt) (read woff .word)) (encode (.lwl f))) ∧
      exec (.lwr f) s = .next (answer woff .word (mergeLwr a (s.xo f.rt) (read woff .word)) (encode (.lwr f))))

/-- R68, R288: an external device that accepts a store records it as an event and no memory changes, and one that does not
accept it stops the machine with `WidthMismatch`. SWL and SWR read the aligned word and then store it (R214, R215). That
their read is an event too and stays when the store is refused, and that a refused access leaves no event, is the model's
(notes/assumptions/7.md, 8.md). -/
def Obligations.DeviceStoreResults : Prop :=
  ∀ (f : IType) (s : State) (r : Range), s.isolated = false → kindOf r.dev = .external →
    let a := effAddr f s
    let off := physicalOf a - r.base
    let woff := physicalOf (wordAddr a) - r.base
    let answer := fun (u : State) (o : Nat) (n : Width) (v word : Word) =>
      if Config.deviceAccepts r.dev o n .store = true then { u with history := u.history ++ [.stored r.dev o n v] }
      else { u with halted := some ⟨.widthMismatch r.dev o n .store, .execute, word, u.pc⟩ }
    let afterRead := { s with history := s.history ++ [.loaded r.dev woff .word] }
    let readThenStore := fun (v word : Word) =>
      if Config.deviceAccepts r.dev woff .word .load = true then answer afterRead woff .word v word
      else { s with halted := some ⟨.widthMismatch r.dev woff .word .load, .execute, word, s.pc⟩ }
    let old := Config.deviceRead r.dev woff .word s.history
    (classify (physicalOf a) = some r →
      exec (.sb f) s = .next (answer s off .byte (((s.x f.rt).setWidth 8).setWidth 32) (encode (.sb f))) ∧
      (a.toNat % 2 = 0 →
        exec (.sh f) s = .next (answer s off .half (((s.x f.rt).setWidth 16).setWidth 32) (encode (.sh f)))) ∧
      (a.toNat % 4 = 0 → exec (.sw f) s = .next (answer s off .word (s.x f.rt) (encode (.sw f))))) ∧
    (classify (physicalOf (wordAddr a)) = some r →
      exec (.swl f) s = .next (readThenStore (mergeSwl a old (s.x f.rt)) (encode (.swl f))) ∧
      exec (.swr f) s = .next (readThenStore (mergeSwr a old (s.x f.rt)) (encode (.swr f))))

/-- R201, R202: under cache isolation every load and store, at every address and alignment, has no effect at all; the
diagnostic log, which R290 lets a model drop, is not in the model (notes/assumptions/9.md). -/
def Obligations.IsolatedAccessesDoNothing : Prop :=
  ∀ (f : IType) (s : State), s.sr.getLsbD 16 = true →
    exec (.lb f) s = .next s ∧ exec (.lbu f) s = .next s ∧ exec (.lh f) s = .next s ∧ exec (.lhu f) s = .next s ∧
    exec (.lw f) s = .next s ∧ exec (.lwl f) s = .next s ∧ exec (.lwr f) s = .next s ∧ exec (.sb f) s = .next s ∧
    exec (.sh f) s = .next s ∧ exec (.sw f) s = .next s ∧ exec (.swl f) s = .next s ∧ exec (.swr f) s = .next s

/-! ## Branches and jumps (44_branch_jump.md): `a` is the instruction's address, so the tentative PC is a + 8 -/

/-- R233 to R238: a conditional branch at address a goes to a + 4 plus the offset in words when its condition holds on the
committed bank, leaves a + 8 in `pc` otherwise, and changes nothing else. -/
def Obligations.ConditionalBranchResults : Prop :=
  (PrimaryOp 0x04#6 .beq ∧ PrimaryOp 0x05#6 .bne ∧ PrimaryOp 0x06#6 .blez ∧ PrimaryOp 0x07#6 .bgtz ∧
    RegimmSelector 0#5 .bltz ∧ RegimmSelector 1#5 .bgez) ∧
  ∀ (f : IType) (s : State) (a : Word), s.pc = a + 8#32 →
    let target := a + 4#32 + BitVec.ofInt 32 (4 * f.imm.toInt)
    exec (.beq f) s = .next { s with pc := if s.x f.rs = s.x f.rt then target else a + 8#32 } ∧
    exec (.bne f) s = .next { s with pc := if s.x f.rs = s.x f.rt then a + 8#32 else target } ∧
    exec (.blez f) s = .next { s with pc := if (s.x f.rs).toInt ≤ 0 then target else a + 8#32 } ∧
    exec (.bgtz f) s = .next { s with pc := if (s.x f.rs).toInt > 0 then target else a + 8#32 } ∧
    exec (.bltz f.rs f.imm) s = .next { s with pc := if (s.x f.rs).toInt < 0 then target else a + 8#32 } ∧
    exec (.bgez f.rs f.imm) s = .next { s with pc := if (s.x f.rs).toInt ≥ 0 then target else a + 8#32 }

/-- R239, R240: BLTZAL and BGEZAL write a + 8 into register 31 whether or not they are taken, and test the old value of
their register. -/
def Obligations.LinkingBranchResults : Prop :=
  (RegimmSelector 16#5 .bltzal ∧ RegimmSelector 17#5 .bgezal) ∧
  ∀ (rs : RegIdx) (imm : BitVec 16) (s : State) (a : Word), s.pc = a + 8#32 →
    let target := a + 4#32 + BitVec.ofInt 32 (4 * imm.toInt)
    (∃ t u, exec (.bltzal rs imm) s = .next t ∧ WritesReg s u 31#5 (a + 8#32) ∧
      t = { u with pc := if (s.x rs).toInt < 0 then target else a + 8#32 }) ∧
    (∃ t u, exec (.bgezal rs imm) s = .next t ∧ WritesReg s u 31#5 (a + 8#32) ∧
      t = { u with pc := if (s.x rs).toInt ≥ 0 then target else a + 8#32 })

/-- R241 to R244: J and JAL join the top 4 bits of the tentative PC with the target field; JR and JALR copy the old value
of rs, whatever it is; JAL and JALR write a + 8 into their link register, discarded when that is register 0. -/
def Obligations.JumpResults : Prop :=
  ((∀ w : Word, opOf w = 0x02#6 → decode w = .ok (.j (targetOf w))) ∧
    (∀ w : Word, opOf w = 0x03#6 → decode w = .ok (.jal (targetOf w))) ∧
    SpecialFunct 0x08#6 .jr ∧ SpecialFunct 0x09#6 .jalr) ∧
  ∀ (target : BitVec 26) (f : RType) (s : State) (a : Word), s.pc = a + 8#32 →
    let dest := (a + 8#32).extractLsb' 28 4 ++ target ++ 0#2
    exec (.j target) s = .next { s with pc := dest } ∧
    (∃ t u, exec (.jal target) s = .next t ∧ WritesReg s u 31#5 (a + 8#32) ∧ t = { u with pc := dest }) ∧
    exec (.jr f) s = .next { s with pc := s.x f.rs } ∧
    (∃ t u, exec (.jalr f) s = .next t ∧ WritesReg s u f.rd (a + 8#32) ∧ t = { u with pc := s.x f.rs })

/-! ## Coprocessor 0 and the fatal words (45_cop0.md, 30_encoding.md) -/

/-- R261, R262: MTC0 stores all 32 bits in SR, drops a zero to another register and stops with `Cop0Write` on a nonzero
value; MFC0 stages SR and stops with `Cop0Read` on another register. Neither tests isolation. -/
def Obligations.StatusMoveResults : Prop :=
  (Cop0Sub 4#5 .mtc0 ∧ Cop0Sub 0#5 .mfc0) ∧
  ∀ (f : CopType) (s : State),
    (∃ t, exec (.mtc0 f) s = .next t ∧
      (f.rd = 12#5 → t = { s with sr := s.x f.rt }) ∧
      (f.rd ≠ 12#5 → s.x f.rt = 0#32 → t = s) ∧
      (f.rd ≠ 12#5 → s.x f.rt ≠ 0#32 → HaltsWith s t (.cop0Write f.rd (s.x f.rt)) (encode (.mtc0 f)))) ∧
    (∃ t, exec (.mfc0 f) s = .next t ∧
      (f.rd = 12#5 → t = { s with load := some (f.rt, s.sr) }) ∧
      (f.rd ≠ 12#5 → HaltsWith s t (.cop0Read f.rd) (encode (.mfc0 f))))

/-- R263 to R267 by instruction: each of the 18 named fatal forms stops the machine with `Unimplemented`, whatever the
registers hold and under isolation too, and changes nothing else. -/
def Obligations.FatalFormsHalt : Prop :=
  ∀ (i : Instr) (s : State), isFatalForm i = true →
    ∃ t, exec i s = .next t ∧ HaltsWith s t (.unimplemented (encode i)) (encode i)

/-- R263 to R267 by word: every COP0 word whose cop is not 0 or 4, every COP1, COP2, COP3, LWCz and SWCz word, and every
SYSCALL and BREAK word stops the machine with `Unimplemented` and that word. -/
def Obligations.FatalWordsHalt : Prop :=
  ∀ (w : Word) (s : State),
    (opOf w = 0x10#6 ∧ copOf w ≠ 0#5 ∧ copOf w ≠ 4#5) ∨
      opOf w = 0x11#6 ∨ opOf w = 0x12#6 ∨ opOf w = 0x13#6 ∨
      opOf w = 0x30#6 ∨ opOf w = 0x31#6 ∨ opOf w = 0x32#6 ∨ opOf w = 0x33#6 ∨
      opOf w = 0x38#6 ∨ opOf w = 0x39#6 ∨ opOf w = 0x3A#6 ∨ opOf w = 0x3B#6 ∨
      (opOf w = 0x00#6 ∧ (functOf w = 0x0C#6 ∨ functOf w = 0x0D#6)) →
    ∃ t, execute w s = .next t ∧ HaltsWith s t (.unimplemented w) w

/-- R97, R99 and R100's unassigned entries: a word with an unassigned primary opcode, SPECIAL function or REGIMM selector
names no instruction and stops the machine with `Unimplemented`, at the default decoding parameters
(notes/assumptions/10.md). -/
def Obligations.UnassignedWordsHalt : Prop :=
  ∀ (w : Word) (s : State),
    (0x14 ≤ (opOf w).toNat ∧ (opOf w).toNat ≤ 0x1F) ∨ opOf w = 0x27#6 ∨ opOf w = 0x2C#6 ∨ opOf w = 0x2D#6 ∨
      opOf w = 0x2F#6 ∨ (0x34 ≤ (opOf w).toNat ∧ (opOf w).toNat ≤ 0x37) ∨ 0x3C ≤ (opOf w).toNat ∨
      (opOf w = 0x00#6 ∧ ((functOf w).toNat ∈ [1, 5, 10, 11, 14, 15, 20, 21, 22, 23, 28, 29, 30, 31, 40, 41] ∨
        44 ≤ (functOf w).toNat)) ∨
      (opOf w = 0x01#6 ∧ (rtOf w).toNat ∉ [0, 1, 16, 17]) →
    (∃ e, decode w = .error e) ∧ ∃ t, execute w s = .next t ∧ HaltsWith s t (.unimplemented w) w

/-! ## Encoding (30_encoding.md) -/

/-- Decoding the word of a well-formed instruction gives the instruction back, with every operand, for all 76 rows. -/
def Obligations.DecodeOfEncode : Prop :=
  ∀ i : Instr, i.WellFormed → decode (encode i) = .ok i

/-- The word of a decoded instruction is the word it was decoded from: no bit of a word is dropped, and what the decoder
gives is well-formed. -/
def Obligations.EncodeOfDecode : Prop :=
  ∀ (w : Word) (i : Instr), decode w = .ok i → encode i = w ∧ i.WellFormed

/-- The spec's example words decode to the instructions it gives them for. -/
def Obligations.SampleWordsDecode : Prop :=
  decode 0x01095020#32 = .ok (.add ⟨8#5, 9#5, 10#5, 0#5⟩) ∧ decode 0x2509000A#32 = .ok (.addiu ⟨8#5, 9#5, 10#16⟩) ∧
  decode 0x000957C3#32 = .ok (.sra ⟨0#5, 9#5, 10#5, 31#5⟩) ∧ decode 0x0109001A#32 = .ok (.div ⟨8#5, 9#5, 0#5, 0#5⟩) ∧
  decode 0x8D28FFFC#32 = .ok (.lw ⟨9#5, 8#5, 0xFFFC#16⟩) ∧ decode 0xB9280000#32 = .ok (.swr ⟨9#5, 8#5, 0#16⟩) ∧
  decode 0x15090003#32 = .ok (.bne ⟨8#5, 9#5, 3#16⟩) ∧ decode 0x05110002#32 = .ok (.bgezal 8#5 2#16) ∧
  decode 0x0C004000#32 = .ok (.jal 0x4000#26) ∧ decode 0x01004809#32 = .ok (.jalr ⟨8#5, 0#5, 9#5, 0#5⟩) ∧
  decode 0x40886000#32 = .ok (.mtc0 ⟨8#5, 12#5, 0#11⟩) ∧ decode 0x42000010#32 = .ok (.rfe 0#15)

/-! ## The step (40_pipeline_cycle.md) -/

/-- R120: when the fetch reads a word and the latched word decodes to i, the step is `exec i` on the state with the
fetched word latched, `pc` advanced by 4 and the pending load moved to the output bank, followed by the commit, or by
the unspecified halted state if the instruction raised a fatal condition. That `exec` is the execute phase alone, joined
here to the other phases, is notes/assumptions/6.md; which parts of the halted state R132 leaves free and which are exact
(`unspecify`) is notes/assumptions/4.md. -/
def Obligations.StepRunsTheDecodedInstruction : Prop :=
  ∀ (s t v : State) (fetched : Word) (i : Instr), s.halted = none → memRead s s.pc .word = .ok fetched t →
    decode s.nextInstr = .ok i →
    exec i { t with
      nextInstr := fetched
      pc := s.pc + 4#32
      output := match s.load with
        | some (k, w) => Bank.write s.output k w
        | none => s.output
      load := none } = .next v →
    (v.halted = none → step s = .next { v with committed := v.output }) ∧
    (∀ r, v.halted = some r → step s = .next v.unspecify)

/-- R121, R78: where `pc` points into RAM, SCRATCH or BIOS, after a step the latch holds the word that stood at the old `pc`
before the step, whatever the executing instruction stored. Where `pc` points into an external device's window, the fetch
is a load of the device: if it accepts the access, the latch holds its answer, and the load is an event of the history
before any of the executing instruction (the event and the answer are notes/assumptions/7.md); if it does not, the step
stops in the fetch with `WidthMismatch` and no event (notes/assumptions/5.md, 8.md). -/
def Obligations.LatchHoldsTheWordFetchedBeforeExecution : Prop :=
  (∀ s s' : State, isMemoryAddress (physicalOf s.pc) = true → step s = .next s' → s'.running →
    s'.nextInstr = s.wordAt (physicalOf s.pc)) ∧
  ∀ (s : State) (r : Range), s.running → s.pc.toNat % 4 = 0 → classify (physicalOf s.pc) = some r →
    kindOf r.dev = .external →
    let off := physicalOf s.pc - r.base
    let answer := Config.deviceRead r.dev off .word s.history
    let seen := s.history ++ [.loaded r.dev off .word]
    if Config.deviceAccepts r.dev off .word .load = true then
      memRead s s.pc .word = .ok answer { s with history := seen } ∧
      ∃ s' rest, step s = .next s' ∧ s'.history = seen ++ rest ∧ (s'.running → s'.nextInstr = answer)
    else step s = .next { s with halted := some ⟨.widthMismatch r.dev off .word .load, .fetch, s.nextInstr, s.pc⟩ }

/-- R131, R121, R291: a fatal condition in the fetch stops the step at once, and the record holds the word that never
executes and the fetch address. An unaligned `pc`, an unmapped one, and one at a device that does not accept the fetch are
such conditions. That registers, HI, LO, SR and the slot keep their values in the halted state is the model's reading of
R294 (notes/assumptions/5.md). -/
def Obligations.FetchFatalChangesNothing : Prop :=
  ∀ s : State, s.running →
    (∀ r, memRead s s.pc .word = .fatal r →
      step s = .next { s with halted := some ⟨r, .fetch, s.nextInstr, s.pc⟩ }) ∧
    (s.pc.toNat % 4 ≠ 0 → memRead s s.pc .word = .fatal (.unaligned s.pc .word .load)) ∧
    (s.pc.toNat % 4 = 0 → classify (physicalOf s.pc) = none →
      memRead s s.pc .word = .fatal (.unmapped s.pc (physical s.pc) .word .load)) ∧
    ∀ d : Range, s.pc.toNat % 4 = 0 → classify (physicalOf s.pc) = some d → kindOf d.dev = .external →
      Config.deviceAccepts d.dev (physicalOf s.pc - d.base) .word .load = false →
      memRead s s.pc .word = .fatal (.widthMismatch d.dev (physicalOf s.pc - d.base) .word .load)

/-- R132, R294: a step that stops the machine leaves memory exactly as it was: the raising instruction makes no store. -/
def Obligations.FatalStepKeepsMemory : Prop :=
  ∀ s s' : State, step s = .next s' → ¬s'.running → s'.mem = s.mem

/-- R130, R133, R292: a running machine always takes a step, and a halted one never does. That a step which stops is a next
state, so that every running machine has one, and that the step of a halted machine is the fault `machineHalted`, is the
model's reading (notes/assumptions/3.md). -/
def Obligations.StepsExactlyWhileRunning : Prop :=
  (∀ s : State, s.running → ∃ s', step s = .next s') ∧
  ∀ (s : State) (r : FatalRecord), s.halted = some r → step s = .fault (.machineHalted r)

/-- R22, R24: the invariant of the CORE is kept by every step, from every state that meets it. Its memory clauses are about
the model's one byte list for the three memories (notes/assumptions/18.md). -/
def Obligations.StepKeepsInvariant : Prop :=
  ∀ s s' : State, s.Inv → step s = .next s' → s'.Inv

/-- The reset state meets the invariant. The values the reset state gives to R1 to R31, HI and LO are the model's choice
(notes/assumptions/1.md). -/
def Obligations.ResetMeetsInvariant : Prop := State.reset.Inv

/-- R310: power-on gives the decided values, the same draws in both banks with register 0 at 0, and the launch inputs; it
meets the invariant when the launch memory is canonical and mapped. The empty history is the model's
(notes/assumptions/7.md). -/
def Obligations.PowerOnState : Prop :=
  ∀ p : LaunchParams,
    let s := powerOn p
    s.pc = 0xBFC00000#32 ∧ s.nextInstr = 0x00000000#32 ∧ s.load = none ∧ s.sr = 0#32 ∧ s.halted = none ∧
    s.committed = s.output ∧ s.x 0#5 = 0#32 ∧ (∀ i : Fin 32, i ≠ 0 → s.committed[i] = p.gpr[i]) ∧
    s.hi = p.hi ∧ s.lo = p.lo ∧ s.mem = p.mem ∧ s.history = [] ∧
    (Memory.wf p.mem = true → (∀ c ∈ p.mem, isMemoryAddress c.1 = true) → s.Inv)

/-- R312: the first step after power-on executes the no-op and fetches BIOS word 0; nothing else changes. -/
def Obligations.FirstStepAfterPowerOn : Prop :=
  ∀ p : LaunchParams,
    step (powerOn p) =
      .next { powerOn p with pc := 0xBFC00004#32, nextInstr := (powerOn p).wordAt 0x1FC00000 }

/-! ## The Interconnect (20_memory.md) -/

/-- R61: "Ranges are non-overlapping; every physical address either falls in exactly one known range or is unmapped". -/
def Obligations.RangesAreDisjoint : Prop :=
  ∀ (p : Nat) (a b : Range), a ∈ rangeTable → b ∈ rangeTable → a.holds p = true → b.holds p = true →
    a = b ∧ classify p = some a

/-- R53: the KUSEG, KSEG0 and KSEG1 addresses with the same low 29 bits are one physical address, so that an aligned load
through each of them gives the same answer. -/
def Obligations.SegmentMirrorsAgree : Prop :=
  ∀ (a : Word) (n : Width) (s : State), a.toNat < 0x20000000 →
    physical a = a ∧ physical (a ||| 0x80000000#32) = a ∧ physical (a ||| 0xA0000000#32) = a ∧
    (isMemoryAddress a.toNat = true → aligned a n = true →
      memRead s (a ||| 0x80000000#32) n = memRead s a n ∧ memRead s (a ||| 0xA0000000#32) n = memRead s a n)

/-- R66: storing a word and loading it back from the same address of RAM or SCRATCH gives the original value, for every
value and every aligned address. -/
def Obligations.StoreThenLoadGivesTheWord : Prop :=
  ∀ (f : IType) (d : RegIdx) (s : State) (r : Range), s.isolated = false → Memory.wf s.mem = true →
    classify (physicalOf (effAddr f s)) = some r → kindOf r.dev = .storage → (effAddr f s).toNat % 4 = 0 →
    ∃ t u, exec (.sw f) s = .next t ∧ exec (.lw ⟨f.rs, d, f.imm⟩) t = .next u ∧ u.load = some (d, s.x f.rt)

/-- R65: the little-endian view of a word stored to RAM, through every width. -/
def Obligations.MixedWidthsAreLittleEndian : Prop :=
  ∀ (a : Word) (s : State) (r : Range), Memory.wf s.mem = true → a.toNat % 4 = 0 →
    classify (physicalOf a) = some r → r.dev = .ram →
    ∃ t u, memWrite s a .word 0x11223344#32 = .ok () t ∧
      memRead t a .byte = .ok 0x44#32 t ∧ memRead t (a + 1#32) .byte = .ok 0x33#32 t ∧
      memRead t (a + 3#32) .byte = .ok 0x11#32 t ∧ memRead t a .half = .ok 0x3344#32 t ∧
      memRead t (a + 2#32) .half = .ok 0x1122#32 t ∧
      memWrite t (a + 1#32) .byte 0xAB#32 = .ok () u ∧ memRead u a .word = .ok 0x1122AB44#32 u

/-- R67: BIOS is read-only: no step changes a byte of it. -/
def Obligations.BiosNeverChanges : Prop :=
  ∀ s s' : State, Memory.wf s.mem = true → step s = .next s' →
    ∀ p, isBiosAddress p = true → s'.byteAt p = s.byteAt p

/-! ## Whole-machine rules -/

/-- R70, R79, R202: only one of the five stores changes memory, and none of them while SR bit 16 is set. -/
def Obligations.MemoryChangesOnlyByUnisolatedStores : Prop :=
  ∀ s s' : State, step s = .next s' → s'.mem ≠ s.mem →
    s.sr.getLsbD 16 = false ∧ ∃ i, decode s.nextInstr = .ok i ∧ isStore i = true

/-- R261, R35: while the machine runs, only MTC0 to register 12 changes SR, and it sets it to the committed value of rt. -/
def Obligations.StatusChangesOnlyByMtc0 : Prop :=
  ∀ s s' : State, step s = .next s' → s'.running → s'.sr ≠ s.sr →
    ∃ f, decode s.nextInstr = .ok (.mtc0 f) ∧ f.rd = 12#5 ∧ s'.sr = s.x f.rt

/-- R32: while the machine runs, only MULT, MULTU, DIV, DIVU, MTHI and MTLO change HI or LO. -/
def Obligations.HiLoChangeOnlyByTheirWriters : Prop :=
  ∀ s s' : State, step s = .next s' → s'.running → s'.hi ≠ s.hi ∨ s'.lo ≠ s.lo →
    ∃ i, decode s.nextInstr = .ok i ∧ writesHiLo i = true

/-- R26: while the machine runs, a general register changes only by the pending load that names it or by the instruction
whose direct destination it is. -/
def Obligations.RegistersChangeOnlyByTheirWriters : Prop :=
  ∀ (s s' : State) (j : RegIdx), s.Inv → step s = .next s' → s'.running → s'.x j ≠ s.x j →
    (∃ v, s.load = some (j, v) ∧ s'.x j = v) ∨ ∃ i, decode s.nextInstr = .ok i ∧ directDest i = some j

/-- R122, R230: while the machine runs, `pc` advances by 4 unless the executing instruction is a branch or a jump. -/
def Obligations.PcAdvancesByFour : Prop :=
  ∀ s s' : State, step s = .next s' → s'.running → s'.pc ≠ s.pc + 4#32 →
    ∃ i, decode s.nextInstr = .ok i ∧ transfersControl i = true

/-- R31, R128: after a step of a machine that runs on, the load-delay slot is empty unless the executing instruction is one
of the eight that stage a value. -/
def Obligations.SlotIsFilledOnlyByLoads : Prop :=
  ∀ (s s' : State) (p : RegIdx × Word), step s = .next s' → s'.running → s'.load = some p →
    ∃ i, decode s.nextInstr = .ok i ∧ stages i = true

/-! ## Delay slots (70_reset_and_hazards.md) -/

/-- R123: the pending value is committed at the end of the step, unless the executing instruction writes the same
register directly. -/
def Obligations.PendingLoadIsCommitted : Prop :=
  ∀ (s s' : State) (j : RegIdx) (v : Word), step s = .next s' → s'.running → s.load = some (j, v) → j ≠ 0#5 →
    (∀ i, decode s.nextInstr = .ok i → directDest i ≠ some j) → s'.x j = v

/-- R135: when the instruction in a load's delay slot writes the load's register directly, the committed value is the
instruction's result: the register ends up as if nothing had been pending. -/
def Obligations.DirectWriteInDelaySlotWins : Prop :=
  ∀ (s s' s'' : State) (j : RegIdx) (v : Word) (i : Instr), s.load = some (j, v) → decode s.nextInstr = .ok i →
    directDest i = some j → step s = .next s' → s'.running → step { s with load := none } = .next s'' →
    s'.x j = s''.x j

/-- R315. First, an ADDU right after an LW, for any registers: it adds the values from before the load, and the loaded
value is in its register after the ADDU's step, unless the ADDU writes that register itself. Second, every instruction: two
steps that differ only in the value pending for register j do the same, and agree on every register but j. The one
exception is R315's own: an LWL or LWR into j merges with the pending value, and only the value it stages may differ. The
host does nothing between the two steps of the first part (notes/assumptions/15.md, R304). Where the fetch or the access of
the second part's steps goes to an external device, that both steps get one answer is the model's
(notes/assumptions/7.md): its oracle is a function of the history, the same in both, while R68 gives each load a free draw. -/
def Obligations.LoadDelaySlotReadsTheOldValue : Prop :=
  (∀ (s s1 s2 : State) (f : IType) (g : RType), s.isolated = false → decode s.nextInstr = .ok (.lw f) →
    isMemoryAddress (physicalOf (effAddr f s)) = true → isMemoryAddress (physicalOf s.pc) = true →
    decode (s.wordAt (physicalOf s.pc)) = .ok (.addu g) →
    step s = .next s1 → step s1 = .next s2 → s2.running →
    (s.Inv → s.load = none → ∀ j, s1.x j = s.x j) ∧
    (g.rd ≠ 0#5 → s2.x g.rd = s1.x g.rs + s1.x g.rt) ∧
    (f.rt ≠ 0#5 → f.rt ≠ g.rd → s2.x f.rt = s.wordAt (physicalOf (effAddr f s)))) ∧
  ∀ (s a b : State) (i : Instr) (j : RegIdx) (v v' : Word), decode s.nextInstr = .ok i →
    step { s with load := some (j, v) } = .next a → step { s with load := some (j, v') } = .next b → a.running →
    b = { a with committed := b.committed, output := b.output, load := b.load } ∧
    (mergesInto j i = false → b.load = a.load) ∧ ∀ k, k ≠ j → b.x k = a.x k

/-- R230, R314: a taken BEQ at address a: the word at a + 4 is executed in the next step, and in that step the word at
a + 4 plus the offset is fetched, to be executed in the step after. Before the branch's step `pc` is a + 4. The host does
nothing between the two steps (notes/assumptions/15.md, R304). -/
def Obligations.TakenBranchRunsItsDelaySlot : Prop :=
  ∀ (s s1 s2 : State) (f : IType), decode s.nextInstr = .ok (.beq f) → s.x f.rs = s.x f.rt →
    isMemoryAddress (physicalOf s.pc) = true →
    isMemoryAddress (physicalOf (s.pc + BitVec.ofInt 32 (4 * f.imm.toInt))) = true →
    step s = .next s1 → step s1 = .next s2 → s2.running →
    s1.nextInstr = s.wordAt (physicalOf s.pc) ∧ s1.pc = s.pc + BitVec.ofInt 32 (4 * f.imm.toInt) ∧
    s2.nextInstr = s.wordAt (physicalOf (s.pc + BitVec.ofInt 32 (4 * f.imm.toInt)))

/-- R246: a branch or jump k in the delay slot of a branch or jump i, for each of the twelve as either. With T1 the target
of i, the step of k fetches the word at T1, which executes next as k's own delay slot, and leaves `pc` where k goes from
the tentative PC T1 + 4: T1 plus its offset when a branch is taken, T1 + 4 when it is not, the top 4 bits of T1 + 4 joined
with a J's or JAL's field, the register of a JR or JALR. A linking k writes T1 + 4. The host does nothing between the two
steps (notes/assumptions/15.md, R304). -/
def Obligations.BranchInDelaySlotGoesFromTheFirstTarget : Prop :=
  ∀ (s s1 s2 : State) (i k : Instr) (T1 T2 : Word), decode s.nextInstr = .ok i →
    transferTarget s.x (s.pc + 4#32) i = some T1 → isMemoryAddress (physicalOf s.pc) = true →
    decode (s.wordAt (physicalOf s.pc)) = .ok k → transferTarget s1.x (T1 + 4#32) k = some T2 →
    isMemoryAddress (physicalOf T1) = true → step s = .next s1 → step s1 = .next s2 → s2.running →
    s1.pc = T1 ∧ s2.pc = T2 ∧ s2.nextInstr = s.wordAt (physicalOf T1) ∧
    ∀ d, linkDest k = some d → d ≠ 0#5 → s2.x d = T1 + 4#32

/-- R268: an MTC0 that sets SR bit 16 takes effect for the next instruction: a store right after it changes neither memory
nor a device and cannot stop the machine. The host neither stores nor steps a device between the two steps
(notes/assumptions/15.md, R304). -/
def Obligations.StatusWriteSuppressesTheNextStore : Prop :=
  ∀ (s s1 s2 : State) (f : CopType) (i : Instr), decode s.nextInstr = .ok (.mtc0 f) → f.rd = 12#5 →
    (s.x f.rt).getLsbD 16 = true → isMemoryAddress (physicalOf s.pc) = true →
    decode (s.wordAt (physicalOf s.pc)) = .ok i → isStore i = true →
    isMemoryAddress (physicalOf (s.pc + 4#32)) = true →
    step s = .next s1 → step s1 = .next s2 →
    s2.running ∧ s2.mem = s.mem ∧ s2.history = s.history

/-- R245: JR does not check its target; the next step's fetch stops the machine with `Unaligned` before the delay-slot
instruction executes, and the record names the target address and the delay-slot word. That nothing but `halted` changes
there is notes/assumptions/5.md; the host does nothing between the two steps (notes/assumptions/15.md, R304). -/
def Obligations.JumpToUnalignedTargetHalts : Prop :=
  ∀ (s : State) (f : RType), s.running → decode s.nextInstr = .ok (.jr f) → s.pc.toNat % 4 = 0 →
    isMemoryAddress (physicalOf s.pc) = true → (s.x f.rs).toNat % 4 ≠ 0 →
    ∃ s1 s2, step s = .next s1 ∧ s1.running ∧ step s1 = .next s2 ∧
      s2 = { s1 with
        halted := some ⟨.unaligned (s.x f.rs) .word .load, .fetch, s.wordAt (physicalOf s.pc), s.x f.rs⟩ }

/-! ## The host interface (60_exceptions.md R304) -/

/-- R304: the host's accesses have no isolation test and are otherwise `MemRead` and `MemWrite`, for every width. A fatal
condition is returned to the host: `Unaligned`, `Unmapped`, `BiosStore` for a store to BIOS, `WidthMismatch` for a device
that does not accept the access. A store to RAM or SCRATCH writes its bytes and is read back, a load of memory gives its
bytes joined little-endian, and an accepted device access is an event (notes/assumptions/7.md, 8.md; the address in a
`BiosStore` is notes/assumptions/11.md). -/
def Obligations.HostAccessesIgnoreIsolation : Prop :=
  ∀ (s : State) (addr v : Word) (n : Width),
    let p := physicalOf addr
    (aligned addr n = false →
      hostLoad s addr n = .failed (.unaligned addr n .load) ∧ hostStore s addr n v = .failed (.unaligned addr n .store)) ∧
    (aligned addr n = true → classify p = none →
      hostLoad s addr n = .failed (.unmapped addr (physical addr) n .load) ∧
      hostStore s addr n v = .failed (.unmapped addr (physical addr) n .store)) ∧
    ∀ r : Range, aligned addr n = true → classify p = some r →
      (kindOf r.dev ≠ .external → hostLoad s addr n = .ok (match n with
        | .byte => (s.byteAt p).setWidth 32
        | .half => (s.halfAt p).setWidth 32
        | .word => s.wordAt p) s) ∧
      (kindOf r.dev = .storage → Memory.wf s.mem = true →
        ∃ t, hostStore s addr n v = .ok () t ∧ StoresAt s t p (bytesOf n) ∧ hostLoad t addr n = .ok (zextWidth n v) t) ∧
      (kindOf r.dev = .readOnly → hostStore s addr n v = .failed (.biosStore addr n)) ∧
      (kindOf r.dev = .external →
        hostLoad s addr n =
          (if Config.deviceAccepts r.dev (p - r.base) n .load = true then
            .ok (zextWidth n (Config.deviceRead r.dev (p - r.base) n s.history))
              { s with history := s.history ++ [.loaded r.dev (p - r.base) n] }
          else .failed (.widthMismatch r.dev (p - r.base) n .load)) ∧
        hostStore s addr n v =
          (if Config.deviceAccepts r.dev (p - r.base) n .store = true then
            .ok () { s with history := s.history ++ [.stored r.dev (p - r.base) n (zextWidth n v)] }
          else .failed (.widthMismatch r.dev (p - r.base) n .store)))
end

