-- ==== Sys2Proof/Laws/Memory.lean ====
section
/-! SUPPORT. The byte store: every operation keeps the canonical form, a byte written is read back, and a write leaves
the other bytes alone (20_memory.md R66). -/

namespace Sys2Proof.Machine

theorem Memory.wfFrom_le (m : Memory) (lo lo' : Nat) (h : lo' ≤ lo) (hm : Memory.wfFrom lo m = true) :
    Memory.wfFrom lo' m = true := by
  cases m with
  | nil => rfl
  | cons c m =>
    simp only [Memory.wfFrom, Bool.and_eq_true, decide_eq_true_eq] at hm ⊢
    exact ⟨⟨by omega, hm.1.2⟩, hm.2⟩

/-- Below its first address a canonical memory lists nothing. -/
theorem Memory.read_below (m : Memory) (lo a : Nat) (h : a < lo) (hm : Memory.wfFrom lo m = true) :
    Memory.read m a = Memory.unlisted := by
  induction m generalizing lo with
  | nil => rfl
  | cons c m ih =>
    obtain ⟨k, b⟩ := c
    simp only [Memory.wfFrom, Bool.and_eq_true, decide_eq_true_eq] at hm
    have : k ≠ a := by omega
    simp [Memory.read, this, ih (k + 1) (by omega) hm.2]

theorem Memory.write_wfFrom (m : Memory) (lo a : Nat) (v : Byte) (ha : lo ≤ a) (hm : Memory.wfFrom lo m = true) :
    Memory.wfFrom lo (Memory.write m a v) = true := by
  induction m generalizing lo with
  | nil =>
    by_cases hv : v = Memory.unlisted <;> simp [Memory.write, Memory.wfFrom, hv, ha]
  | cons c m ih =>
    obtain ⟨k, b⟩ := c
    have hm' := hm
    simp only [Memory.wfFrom, Bool.and_eq_true, decide_eq_true_eq] at hm'
    obtain ⟨⟨hk, hb⟩, ht⟩ := hm'
    unfold Memory.write
    split_ifs with h1 h2 h3 h4
    · exact hm
    · simp only [Memory.wfFrom, Bool.and_eq_true, decide_eq_true_eq]
      exact ⟨⟨ha, h2⟩, ⟨by omega, hb⟩, ht⟩
    · exact Memory.wfFrom_le m (k + 1) lo (by omega) ht
    · subst h3; simp [Memory.wfFrom, ha, h4, ht]
    · simp [Memory.wfFrom, hk, hb, ih (k + 1) (by omega) ht]

/-- A byte store keeps the canonical form. -/
theorem Memory.write_wf (m : Memory) (a : Nat) (v : Byte) (hm : Memory.wf m = true) :
    Memory.wf (Memory.write m a v) = true := Memory.write_wfFrom m 0 a v (Nat.zero_le a) hm

/-- A store of any width keeps the canonical form. -/
theorem Memory.writeLE_wf (m : Memory) (a n : Nat) (v : Word) (hm : Memory.wf m = true) :
    Memory.wf (Memory.writeLE m a n v) = true := by
  induction n generalizing m a v with
  | zero => exact hm
  | succ n ih => exact ih _ _ _ (Memory.write_wf m a _ hm)

theorem Memory.read_write_from (m : Memory) (lo a j : Nat) (v : Byte) (hm : Memory.wfFrom lo m = true) :
    Memory.read (Memory.write m a v) j = if j = a then v else Memory.read m j := by
  induction m generalizing lo with
  | nil =>
    by_cases hv : v = Memory.unlisted <;> simp [Memory.write, Memory.read, hv, eq_comm]
  | cons c m ih =>
    obtain ⟨k, b⟩ := c
    have hm' := hm
    simp only [Memory.wfFrom, Bool.and_eq_true, decide_eq_true_eq] at hm'
    obtain ⟨⟨hk, hb⟩, ht⟩ := hm'
    have below : ∀ i, i < k + 1 → Memory.read m i = Memory.unlisted := fun i hi => Memory.read_below m (k + 1) i hi ht
    by_cases hlt : a < k
    · by_cases hv : v = Memory.unlisted <;> simp only [Memory.write, hlt, hv, if_true, if_false, Memory.read]
      · by_cases hj : j = a
        · simp [hj, show k ≠ a by omega, below a (by omega)]
        · simp [hj]
      · by_cases hj : j = a
        · simp [hj]
        · simp [hj, Ne.symm hj]
    · by_cases hak : a = k
      · subst hak
        by_cases hv : v = Memory.unlisted <;> simp only [Memory.write, hlt, hv, if_true, if_false, Memory.read]
        · by_cases hj : j = a
          · simp [hj, below a (by omega)]
          · simp [hj, show ¬a = j by omega]
        · by_cases hj : j = a
          · simp [hj]
          · simp [hj, Ne.symm hj]
      · simp only [Memory.write, hlt, hak, if_false, Memory.read, ih (k + 1) ht]
        by_cases hj : j = a
        · simp [hj, show ¬k = a by omega]
        · simp [hj]

/-- What every address reads after a byte store. -/
theorem Memory.read_write (m : Memory) (a j : Nat) (v : Byte) (hm : Memory.wf m = true) :
    Memory.read (Memory.write m a v) j = if j = a then v else Memory.read m j :=
  Memory.read_write_from m 0 a j v hm

/-- Outside its bytes, a store of any width changes no byte. -/
theorem Memory.read_writeLE_outside (m : Memory) (a n j : Nat) (v : Word) (hm : Memory.wf m = true)
    (hj : j < a ∨ a + n ≤ j) : Memory.read (Memory.writeLE m a n v) j = Memory.read m j := by
  induction n generalizing m a v with
  | zero => rfl
  | succ n ih =>
    have : j ≠ a := by omega
    rw [Memory.writeLE, ih _ _ _ (Memory.write_wf m a _ hm) (by omega), Memory.read_write _ _ _ _ hm, if_neg this]

/-- Inside its bytes, a store of any width leaves byte `k` of the value at `a + k`. -/
theorem Memory.read_writeLE_inside (m : Memory) (a n k : Nat) (v : Word) (hm : Memory.wf m = true) (hk : k < n) :
    Memory.read (Memory.writeLE m a n v) (a + k) = (v >>> (8 * k)).setWidth 8 := by
  induction n generalizing m a v k with
  | zero => omega
  | succ n ih =>
    have hw := Memory.write_wf m a (v.setWidth 8) hm
    cases k with
    | zero =>
      rw [Memory.writeLE, Memory.read_writeLE_outside _ _ _ _ _ hw (by omega), Memory.read_write _ _ _ _ hm]
      simp
    | succ k =>
      have h := ih (m.write a (v.setWidth 8)) (a + 1) k (v >>> 8) hw (by omega)
      rw [show a + (k + 1) = a + 1 + k by omega, Memory.writeLE, h, ← BitVec.shiftRight_add]
      congr 2; omega

/-- A little-endian read depends on nothing but its bytes. -/
theorem Memory.readLE_congr (m m' : Memory) (a n : Nat)
    (h : ∀ k, k < n → Memory.read m (a + k) = Memory.read m' (a + k)) : Memory.readLE m a n = Memory.readLE m' a n := by
  induction n generalizing a with
  | zero => rfl
  | succ n ih =>
    have h0 := h 0 (by omega)
    simp only [Nat.add_zero] at h0
    simp only [Memory.readLE, h0]
    rw [ih (a + 1) (fun k hk => by simpa [Nat.add_assoc, Nat.add_comm 1 k] using h (k + 1) (by omega))]

/-- A byte store lists no new address but its own. -/
theorem Memory.mem_write {m : Memory} {a : Nat} {v : Byte} {c : Host.Cell} (h : c ∈ Memory.write m a v) :
    c ∈ m ∨ c.1 = a := by
  induction m with
  | nil =>
    by_cases hv : v = Memory.unlisted <;> simp [Memory.write, hv] at h
    exact .inr (by rw [h])
  | cons d m ih =>
    obtain ⟨k, b⟩ := d
    unfold Memory.write at h
    split_ifs at h <;> simp only [List.mem_cons] at h ⊢ <;> grind

/-- A store of any width lists no new address but those of its bytes. -/
theorem Memory.mem_writeLE {m : Memory} {a n : Nat} {v : Word} {c : Host.Cell} (h : c ∈ Memory.writeLE m a n v) :
    c ∈ m ∨ ∃ k, k < n ∧ c.1 = a + k := by
  induction n generalizing m a v with
  | zero => exact .inl h
  | succ n ih =>
    obtain h | ⟨k, hk, he⟩ := ih h
    · obtain h | h := Memory.mem_write h
      · exact .inl h
      · exact .inr ⟨0, by omega, by simpa using h⟩
    · exact .inr ⟨k + 1, by omega, by omega⟩

/-- The memory of the reset state is canonical. -/
theorem reset_memory_wf : Memory.wf State.reset.mem = true := rfl

end Sys2Proof.Machine
end

