-- ==== Sys2Proof/Laws/Interconnect.lean ====
section
/-! SUPPORT. What an access can do, said once (20_memory.md R55 to R68): everything `memRead` and `memWrite` answer, and
what classification finds. -/

namespace Sys2Proof.Machine

/-- Classification finds a row of the table that holds the address. -/
theorem classify_some {p : Nat} {r : Range} (h : classify p = some r) :
    r ∈ rangeTable ∧ r.base ≤ p ∧ p < r.base + r.size := by
  have h1 := List.mem_of_find?_eq_some h
  have h2 := List.find?_some h
  simp only [Range.holds, Bool.and_eq_true, decide_eq_true_eq] at h2
  exact ⟨h1, h2.1, h2.2⟩

/-- Classification fails exactly where no row holds the address. -/
theorem classify_none {p : Nat} : classify p = none ↔ ∀ r ∈ rangeTable, ¬(r.base ≤ p ∧ p < r.base + r.size) := by
  simp [classify, List.find?_eq_none, Range.holds]

/-- Everything a successful load of the Interconnect does. -/
theorem memRead_ok {s t : State} {addr v : Word} {n : Width} (h : memRead s addr n = .ok v t) :
    aligned addr n = true ∧ ∃ r, classify (physical addr).toNat = some r ∧
      ((kindOf r.dev ≠ .external ∧ v = s.mem.readLE (physical addr).toNat (bytesOf n) ∧ t = s) ∨
       (kindOf r.dev = .external ∧
          Config.deviceAccepts r.dev ((physical addr).toNat - r.base) n .load = true ∧
          v = zextWidth n (Config.deviceRead r.dev ((physical addr).toNat - r.base) n s.history) ∧
          t = { s with history := s.history ++ [.loaded r.dev ((physical addr).toNat - r.base) n] })) := by
  unfold memRead at h
  split at h
  · rename_i ha
    refine ⟨ha, ?_⟩
    split at h
    · rename_i r hr
      obtain ⟨-, hb, -⟩ := classify_some hr
      refine ⟨r, hr, ?_⟩
      unfold deviceLoad at h
      split at h
      · rename_i hk; injection h with h1 h2; subst h1 h2
        exact .inl ⟨by simp [hk], by rw [Nat.add_sub_cancel' hb], rfl⟩
      · rename_i hk; injection h with h1 h2; subst h1 h2
        exact .inl ⟨by simp [hk], by rw [Nat.add_sub_cancel' hb], rfl⟩
      · rename_i hk
        split at h
        · rename_i hacc; injection h with h1 h2; subst h1 h2; exact .inr ⟨hk, hacc, rfl, rfl⟩
        · cases h
    · cases h
  · cases h

/-- Everything a failed load of the Interconnect reports, in the order of its checks. -/
theorem memRead_fatal {s : State} {addr : Word} {n : Width} {r : FatalReason} (h : memRead s addr n = .fatal r) :
    (aligned addr n = false ∧ r = .unaligned addr n .load) ∨
    (aligned addr n = true ∧ classify (physical addr).toNat = none ∧ r = .unmapped addr (physical addr) n .load) ∨
    (aligned addr n = true ∧ ∃ w, classify (physical addr).toNat = some w ∧ kindOf w.dev = .external ∧
      Config.deviceAccepts w.dev ((physical addr).toNat - w.base) n .load = false ∧
      r = .widthMismatch w.dev ((physical addr).toNat - w.base) n .load) := by
  unfold memRead at h
  split at h
  · rename_i ha
    split at h
    · rename_i w hw
      unfold deviceLoad at h
      split at h
      · cases h
      · cases h
      · rename_i hk
        split at h
        · cases h
        · rename_i hacc; injection h with h1
          exact .inr (.inr ⟨ha, w, hw, hk, by simpa using hacc, h1.symm⟩)
    · rename_i hw; injection h with h1; exact .inr (.inl ⟨ha, hw, h1.symm⟩)
  · rename_i ha; injection h with h1; exact .inl ⟨by simpa using ha, h1.symm⟩

/-- A load of a byte store or of the read-only image succeeds and changes nothing (R66, R67). -/
theorem memRead_memory (s : State) (addr : Word) (n : Width) (r : Range) (ha : aligned addr n = true)
    (hr : classify (physical addr).toNat = some r) (hk : kindOf r.dev ≠ .external) :
    memRead s addr n = .ok (s.mem.readLE (physical addr).toNat (bytesOf n)) s := by
  obtain ⟨-, hb, -⟩ := classify_some hr
  have hc : r.base + ((physical addr).toNat - r.base) = (physical addr).toNat := Nat.add_sub_cancel' hb
  cases h : kindOf r.dev <;> simp_all [memRead, deviceLoad]

/-- A misaligned load (R56). -/
theorem memRead_misaligned (s : State) (addr : Word) (n : Width) (ha : aligned addr n = false) :
    memRead s addr n = .fatal (.unaligned addr n .load) := by simp [memRead, ha]

/-- A load that no range matches (R58). -/
theorem memRead_unmapped (s : State) (addr : Word) (n : Width) (ha : aligned addr n = true)
    (hr : classify (physical addr).toNat = none) :
    memRead s addr n = .fatal (.unmapped addr (physical addr) n .load) := by simp [memRead, ha, hr]

/-- A load of an external device: its answer and its event, or `WidthMismatch` (R68). -/
theorem memRead_external (s : State) (addr : Word) (n : Width) (r : Range) (ha : aligned addr n = true)
    (hr : classify (physical addr).toNat = some r) (hk : kindOf r.dev = .external) :
    memRead s addr n =
      if Config.deviceAccepts r.dev ((physical addr).toNat - r.base) n .load then
        .ok (zextWidth n (Config.deviceRead r.dev ((physical addr).toNat - r.base) n s.history))
          { s with history := s.history ++ [.loaded r.dev ((physical addr).toNat - r.base) n] }
      else .fatal (.widthMismatch r.dev ((physical addr).toNat - r.base) n .load) := by
  simp [memRead, ha, hr, deviceLoad, hk]

/-- Everything a successful store of the Interconnect does. -/
theorem memWrite_ok {s t : State} {addr v : Word} {n : Width} {u : Unit} (h : memWrite s addr n v = .ok u t) :
    aligned addr n = true ∧ ∃ r, classify (physical addr).toNat = some r ∧
      ((kindOf r.dev = .storage ∧ t = { s with mem := s.mem.writeLE (physical addr).toNat (bytesOf n) v }) ∨
       (kindOf r.dev = .external ∧
          Config.deviceAccepts r.dev ((physical addr).toNat - r.base) n .store = true ∧
          t = { s with history :=
            s.history ++ [.stored r.dev ((physical addr).toNat - r.base) n (zextWidth n v)] })) := by
  unfold memWrite at h
  split at h
  · rename_i ha
    refine ⟨ha, ?_⟩
    split at h
    · rename_i r hr
      obtain ⟨-, hb, -⟩ := classify_some hr
      refine ⟨r, hr, ?_⟩
      unfold deviceStore at h
      split at h
      · rename_i hk; injection h with _ h2; subst h2
        exact .inl ⟨hk, by rw [Nat.add_sub_cancel' hb]⟩
      · cases h
      · rename_i hk
        split at h
        · rename_i hacc; injection h with _ h2; subst h2; exact .inr ⟨hk, hacc, rfl⟩
        · cases h
    · cases h
  · cases h

/-- Everything a failed store of the Interconnect reports, in the order of its checks. -/
theorem memWrite_fatal {s : State} {addr v : Word} {n : Width} {r : FatalReason}
    (h : memWrite s addr n v = .fatal r) :
    (aligned addr n = false ∧ r = .unaligned addr n .store) ∨
    (aligned addr n = true ∧ classify (physical addr).toNat = none ∧ r = .unmapped addr (physical addr) n .store) ∨
    (aligned addr n = true ∧ ∃ w, classify (physical addr).toNat = some w ∧
      ((kindOf w.dev = .readOnly ∧ r = .biosStore addr n) ∨
       (kindOf w.dev = .external ∧
        Config.deviceAccepts w.dev ((physical addr).toNat - w.base) n .store = false ∧
        r = .widthMismatch w.dev ((physical addr).toNat - w.base) n .store))) := by
  unfold memWrite at h
  split at h
  · rename_i ha
    split at h
    · rename_i w hw
      unfold deviceStore at h
      split at h
      · cases h
      · rename_i hk; injection h with h1; exact .inr (.inr ⟨ha, w, hw, .inl ⟨hk, h1.symm⟩⟩)
      · rename_i hk
        split at h
        · cases h
        · rename_i hacc; injection h with h1
          exact .inr (.inr ⟨ha, w, hw, .inr ⟨hk, by simpa using hacc, h1.symm⟩⟩)
    · rename_i hw; injection h with h1; exact .inr (.inl ⟨ha, hw, h1.symm⟩)
  · rename_i ha; injection h with h1; exact .inl ⟨by simpa using ha, h1.symm⟩

/-- A store to RAM or SCRATCH succeeds and writes its bytes (R66). -/
theorem memWrite_storage (s : State) (addr v : Word) (n : Width) (r : Range) (ha : aligned addr n = true)
    (hr : classify (physical addr).toNat = some r) (hk : kindOf r.dev = .storage) :
    memWrite s addr n v = .ok () { s with mem := s.mem.writeLE (physical addr).toNat (bytesOf n) v } := by
  obtain ⟨-, hb, -⟩ := classify_some hr
  have hc : r.base + ((physical addr).toNat - r.base) = (physical addr).toNat := Nat.add_sub_cancel' hb
  simp [memWrite, ha, hr, deviceStore, hk, hc]

/-- A store to an external device: its event, or `WidthMismatch` (R68). -/
theorem memWrite_external (s : State) (addr v : Word) (n : Width) (r : Range) (ha : aligned addr n = true)
    (hr : classify (physical addr).toNat = some r) (hk : kindOf r.dev = .external) :
    memWrite s addr n v =
      if Config.deviceAccepts r.dev ((physical addr).toNat - r.base) n .store then
        .ok () { s with history := s.history ++ [.stored r.dev ((physical addr).toNat - r.base) n (zextWidth n v)] }
      else .fatal (.widthMismatch r.dev ((physical addr).toNat - r.base) n .store) := by
  simp [memWrite, ha, hr, deviceStore, hk]

/-- The history of a load only grows. -/
theorem memRead_history {s t : State} {addr v : Word} {n : Width} (h : memRead s addr n = .ok v t) :
    s.history <+: t.history := by
  obtain ⟨-, r, -, ⟨-, -, rfl⟩ | ⟨-, -, -, rfl⟩⟩ := memRead_ok h
  · exact List.prefix_rfl
  · exact List.prefix_append _ _

/-- The history of a store only grows. -/
theorem memWrite_history {s t : State} {addr v : Word} {n : Width} {u : Unit} (h : memWrite s addr n v = .ok u t) :
    s.history <+: t.history := by
  obtain ⟨-, r, -, ⟨-, rfl⟩ | ⟨-, -, rfl⟩⟩ := memWrite_ok h
  · exact List.prefix_rfl
  · exact List.prefix_append _ _

/-- A successful load keeps the canonical form of memory. -/
theorem memRead_wf {s t : State} {addr v : Word} {n : Width} (h : memRead s addr n = .ok v t)
    (hm : Memory.wf s.mem = true) : Memory.wf t.mem = true := by
  obtain ⟨-, r, -, ⟨-, -, rfl⟩ | ⟨-, -, -, rfl⟩⟩ := memRead_ok h <;> exact hm

/-- A successful store keeps the canonical form of memory. -/
theorem memWrite_wf {s t : State} {addr v : Word} {n : Width} {u : Unit} (h : memWrite s addr n v = .ok u t)
    (hm : Memory.wf s.mem = true) : Memory.wf t.mem = true := by
  obtain ⟨-, r, -, ⟨-, rfl⟩ | ⟨-, -, rfl⟩⟩ := memWrite_ok h
  · exact Memory.writeLE_wf _ _ _ _ hm
  · exact hm

/-- Segment masking never changes bits 1:0 (20_memory.md R53). -/
theorem physical_mod_four (addr : Word) : (physical addr).toNat % 4 = addr.toNat % 4 := by
  have h : ∀ m : Word, m.extractLsb' 0 2 = 3#2 → (addr &&& m).toNat % 4 = addr.toNat % 4 := by
    intro m hm
    have h1 : (addr &&& m).extractLsb' 0 2 = addr.extractLsb' 0 2 := by
      rw [BitVec.extractLsb'_and, hm]
      exact BitVec.and_allOnes
    have h2 := congrArg BitVec.toNat h1
    simpa [BitVec.extractLsb'_toNat] using h2
  unfold physical
  cases segmentOf addr <;> exact h _ (by decide)

theorem aligned_iff (addr : Word) (n : Width) : aligned addr n = true ↔ (physical addr).toNat % bytesOf n = 0 := by
  have h := physical_mod_four addr
  cases n <;> simp [aligned, bytesOf, Nat.mod_one] <;> omega

/-- An aligned access to RAM or SCRATCH stays inside its window (R57). -/
theorem storage_classify {p n k : Nat} {r : Range} (hr : classify p = some r) (hk : kindOf r.dev = .storage)
    (ha : p % n = 0) (hn : n = 1 ∨ n = 2 ∨ n = 4) (hkn : k < n) : classify (p + k) = some r := by
  obtain ⟨hmem, hb, ht⟩ := classify_some hr
  fin_cases hmem <;> first | exact absurd hk (by decide) | skip
  · have : p + k < 0x00200000 := by simp at ht; rcases hn with rfl | rfl | rfl <;> omega
    simp [classify, rangeTable, Range.holds, this]
  · have : p + k < 0x1F800400 := by simp at ht; rcases hn with rfl | rfl | rfl <;> omega
    have : 0x1F800000 ≤ p + k := by simp at hb; omega
    have h1 : ¬ p + k < 0x00200000 := by omega
    have h2 : ¬ p + k < 0x1F080000 := by omega
    simp [classify, rangeTable, Range.holds, *]

end Sys2Proof.Machine
end

