-- ==== Sys2Proof/Laws/Address.lean ====
section
/-! SUPPORT. Addresses as numbers: segment masking (20_memory.md R52, R53), the memory windows (R61) and the aligned word of
the unaligned accesses, so that a proof about them is arithmetic. -/

namespace Sys2Proof.Machine

/-- Segment masking takes the base of KSEG0 or KSEG1 away. -/
theorem physicalOf_eq (b : Word) : physicalOf b =
    if b.toNat < 0x80000000 then b.toNat
    else if b.toNat < 0xA0000000 then b.toNat - 0x80000000
    else if b.toNat < 0xC0000000 then b.toNat - 0xA0000000
    else b.toNat := by
  have hlow : (b &&& 0x1FFFFFFF#32).toNat = b.toNat % 0x20000000 := by
    rw [BitVec.toNat_and]; exact Nat.and_two_pow_sub_one_eq_mod b.toNat 29
  have hall : (b &&& 0xFFFFFFFF#32).toNat = b.toNat := by
    rw [BitVec.toNat_and]; exact (Nat.and_two_pow_sub_one_eq_mod b.toNat 32).trans (Nat.mod_eq_of_lt b.isLt)
  have hb := b.isLt
  have ht : (b.extractLsb' 29 3).toNat = b.toNat / 0x20000000 := by
    rw [BitVec.extractLsb'_toNat, Nat.shiftRight_eq_div_pow, Nat.mod_eq_of_lt]
    omega
  unfold physicalOf physical segmentOf
  simp only [ht]
  split_ifs <;> simp only [Segment.mask, hall, hlow] <;> omega

/-- The memory windows: RAM, SCRATCH and BIOS. -/
theorem isMemoryAddress_iff (p : Nat) : isMemoryAddress p = true ↔
    p < 0x200000 ∨ (0x1F800000 ≤ p ∧ p < 0x1F800400) ∨ (0x1FC00000 ≤ p ∧ p < 0x1FC80000) := by
  unfold isMemoryAddress
  cases h : classify p with
  | none =>
    rw [classify_none] at h
    simp only [rangeTable, List.forall_mem_cons] at h
    simp only [Bool.false_eq_true, false_iff]; omega
  | some r =>
    obtain ⟨hm, hb, ht⟩ := classify_some h
    simp only [rangeTable, List.mem_cons, List.not_mem_nil, or_false] at hm
    rcases hm with rfl | rfl | rfl | rfl | rfl | rfl | rfl | rfl | rfl | rfl | rfl | rfl | rfl | rfl <;>
      simp [kindOf] at hb ht ⊢ <;> omega

/-- The aligned word of an address. -/
theorem wordAddr_toNat (a : Word) : (wordAddr a).toNat = a.toNat - a.toNat % 4 := by
  have h : wordAddr a = a >>> 2 <<< 2 := by
    apply BitVec.eq_of_getLsbD_eq
    intro i hi
    unfold wordAddr
    interval_cases i <;> simp
  rw [h, BitVec.toNat_shiftLeft, BitVec.toNat_ushiftRight, Nat.shiftRight_eq_div_pow, Nat.shiftLeft_eq]
  have := a.isLt
  omega

/-- The aligned words that hold the first and the last byte of four bytes in memory lie in memory too, and segment masking
moves all of them alike. -/
theorem unalignedWord_addresses {b : Word} (h : isMemoryAddress (physicalOf b) = true)
    (h3 : isMemoryAddress (physicalOf (b + 3#32)) = true) :
    physicalOf b % 4 = b.toNat % 4 ∧ (b + 3#32).toNat % 4 = (b.toNat + 3) % 4 ∧
    physicalOf (wordAddr b) = physicalOf b - b.toNat % 4 ∧
    physicalOf (wordAddr (b + 3#32)) = physicalOf b + 3 - (b.toNat + 3) % 4 ∧
    isMemoryAddress (physicalOf (wordAddr b)) = true ∧
    isMemoryAddress (physicalOf (wordAddr (b + 3#32))) = true := by
  have hb := b.isLt
  have hs : (b + 3#32).toNat = (b.toNat + 3) % 4294967296 := by simp [BitVec.toNat_add]
  have e0 := wordAddr_toNat b
  have e3 := wordAddr_toNat (b + 3#32)
  rw [isMemoryAddress_iff] at h h3 ⊢
  rw [isMemoryAddress_iff]
  have p0 := physicalOf_eq b
  have p1 := physicalOf_eq (b + 3#32)
  have p2 := physicalOf_eq (wordAddr b)
  have p3 := physicalOf_eq (wordAddr (b + 3#32))
  rw [e0] at p2
  rw [e3, hs] at p3
  rw [hs] at p1 ⊢
  generalize physicalOf b = x0 at *
  generalize physicalOf (b + 3#32) = x1 at *
  generalize physicalOf (wordAddr b) = x2 at *
  generalize physicalOf (wordAddr (b + 3#32)) = x3 at *
  generalize b.toNat = n at *
  have hn : n + 3 < 4294967296 := by
    by_contra hc
    rw [if_neg (by omega), if_neg (by omega), if_neg (by omega)] at p0
    omega
  rw [Nat.mod_eq_of_lt hn] at *
  split at p0
  · have : n < 0x1FD00000 := by omega
    rw [if_pos (by omega)] at p1 p2 p3
    omega
  split at p0
  · rw [if_neg (by omega), if_pos (by omega)] at p1 p2 p3
    omega
  split at p0
  · rw [if_neg (by omega), if_neg (by omega), if_pos (by omega)] at p1 p2 p3
    omega
  · omega

end Sys2Proof.Machine
end

