-- ==== Sys2Proof/Laws/State.lean ====
section
/-! SUPPORT. What each state update leaves in each field, true by rfl, for simp. -/

namespace Sys2Proof.Machine

variable (s : State)

@[simp] theorem State.setReg_committed (i : RegIdx) (v : Word) : (s.setReg i v).committed = s.committed := rfl
@[simp] theorem State.setReg_output (i : RegIdx) (v : Word) : (s.setReg i v).output = Bank.write s.output i v := rfl
@[simp] theorem State.setReg_pc (i : RegIdx) (v : Word) : (s.setReg i v).pc = s.pc := rfl
@[simp] theorem State.setReg_nextInstr (i : RegIdx) (v : Word) : (s.setReg i v).nextInstr = s.nextInstr := rfl
@[simp] theorem State.setReg_load (i : RegIdx) (v : Word) : (s.setReg i v).load = s.load := rfl
@[simp] theorem State.setReg_sr (i : RegIdx) (v : Word) : (s.setReg i v).sr = s.sr := rfl
@[simp] theorem State.setReg_hi (i : RegIdx) (v : Word) : (s.setReg i v).hi = s.hi := rfl
@[simp] theorem State.setReg_lo (i : RegIdx) (v : Word) : (s.setReg i v).lo = s.lo := rfl
@[simp] theorem State.setReg_halted (i : RegIdx) (v : Word) : (s.setReg i v).halted = s.halted := rfl
@[simp] theorem State.setReg_mem (i : RegIdx) (v : Word) : (s.setReg i v).mem = s.mem := rfl
@[simp] theorem State.setReg_history (i : RegIdx) (v : Word) : (s.setReg i v).history = s.history := rfl
@[simp] theorem State.setReg_draws (i : RegIdx) (v : Word) : (s.setReg i v).draws = s.draws := rfl

@[simp] theorem State.stage_committed (i : RegIdx) (v : Word) : (s.stage i v).committed = s.committed := rfl
@[simp] theorem State.stage_output (i : RegIdx) (v : Word) : (s.stage i v).output = s.output := rfl
@[simp] theorem State.stage_pc (i : RegIdx) (v : Word) : (s.stage i v).pc = s.pc := rfl
@[simp] theorem State.stage_nextInstr (i : RegIdx) (v : Word) : (s.stage i v).nextInstr = s.nextInstr := rfl
@[simp] theorem State.stage_load (i : RegIdx) (v : Word) : (s.stage i v).load = some (i, v) := rfl
@[simp] theorem State.stage_sr (i : RegIdx) (v : Word) : (s.stage i v).sr = s.sr := rfl
@[simp] theorem State.stage_hi (i : RegIdx) (v : Word) : (s.stage i v).hi = s.hi := rfl
@[simp] theorem State.stage_lo (i : RegIdx) (v : Word) : (s.stage i v).lo = s.lo := rfl
@[simp] theorem State.stage_halted (i : RegIdx) (v : Word) : (s.stage i v).halted = s.halted := rfl
@[simp] theorem State.stage_mem (i : RegIdx) (v : Word) : (s.stage i v).mem = s.mem := rfl
@[simp] theorem State.stage_history (i : RegIdx) (v : Word) : (s.stage i v).history = s.history := rfl
@[simp] theorem State.stage_draws (i : RegIdx) (v : Word) : (s.stage i v).draws = s.draws := rfl

@[simp] theorem State.setPc_committed (t : Word) : (s.setPc t).committed = s.committed := rfl
@[simp] theorem State.setPc_output (t : Word) : (s.setPc t).output = s.output := rfl
@[simp] theorem State.setPc_pc (t : Word) : (s.setPc t).pc = t := rfl
@[simp] theorem State.setPc_nextInstr (t : Word) : (s.setPc t).nextInstr = s.nextInstr := rfl
@[simp] theorem State.setPc_load (t : Word) : (s.setPc t).load = s.load := rfl
@[simp] theorem State.setPc_sr (t : Word) : (s.setPc t).sr = s.sr := rfl
@[simp] theorem State.setPc_hi (t : Word) : (s.setPc t).hi = s.hi := rfl
@[simp] theorem State.setPc_lo (t : Word) : (s.setPc t).lo = s.lo := rfl
@[simp] theorem State.setPc_halted (t : Word) : (s.setPc t).halted = s.halted := rfl
@[simp] theorem State.setPc_mem (t : Word) : (s.setPc t).mem = s.mem := rfl
@[simp] theorem State.setPc_history (t : Word) : (s.setPc t).history = s.history := rfl
@[simp] theorem State.setPc_draws (t : Word) : (s.setPc t).draws = s.draws := rfl

@[simp] theorem State.setHiLo_committed (h l : Word) : (s.setHiLo h l).committed = s.committed := rfl
@[simp] theorem State.setHiLo_output (h l : Word) : (s.setHiLo h l).output = s.output := rfl
@[simp] theorem State.setHiLo_pc (h l : Word) : (s.setHiLo h l).pc = s.pc := rfl
@[simp] theorem State.setHiLo_nextInstr (h l : Word) : (s.setHiLo h l).nextInstr = s.nextInstr := rfl
@[simp] theorem State.setHiLo_load (h l : Word) : (s.setHiLo h l).load = s.load := rfl
@[simp] theorem State.setHiLo_sr (h l : Word) : (s.setHiLo h l).sr = s.sr := rfl
@[simp] theorem State.setHiLo_hi (h l : Word) : (s.setHiLo h l).hi = h := rfl
@[simp] theorem State.setHiLo_lo (h l : Word) : (s.setHiLo h l).lo = l := rfl
@[simp] theorem State.setHiLo_halted (h l : Word) : (s.setHiLo h l).halted = s.halted := rfl
@[simp] theorem State.setHiLo_mem (h l : Word) : (s.setHiLo h l).mem = s.mem := rfl
@[simp] theorem State.setHiLo_history (h l : Word) : (s.setHiLo h l).history = s.history := rfl
@[simp] theorem State.setHiLo_draws (h l : Word) : (s.setHiLo h l).draws = s.draws := rfl

@[simp] theorem State.raise_committed (r : FatalReason) (w : Word) : (s.raise r w).committed = s.committed := rfl
@[simp] theorem State.raise_output (r : FatalReason) (w : Word) : (s.raise r w).output = s.output := rfl
@[simp] theorem State.raise_pc (r : FatalReason) (w : Word) : (s.raise r w).pc = s.pc := rfl
@[simp] theorem State.raise_nextInstr (r : FatalReason) (w : Word) : (s.raise r w).nextInstr = s.nextInstr := rfl
@[simp] theorem State.raise_load (r : FatalReason) (w : Word) : (s.raise r w).load = s.load := rfl
@[simp] theorem State.raise_sr (r : FatalReason) (w : Word) : (s.raise r w).sr = s.sr := rfl
@[simp] theorem State.raise_hi (r : FatalReason) (w : Word) : (s.raise r w).hi = s.hi := rfl
@[simp] theorem State.raise_lo (r : FatalReason) (w : Word) : (s.raise r w).lo = s.lo := rfl
@[simp] theorem State.raise_halted (r : FatalReason) (w : Word) : (s.raise r w).halted = some ⟨r, .execute, w, s.pc⟩ := rfl
@[simp] theorem State.raise_mem (r : FatalReason) (w : Word) : (s.raise r w).mem = s.mem := rfl
@[simp] theorem State.raise_history (r : FatalReason) (w : Word) : (s.raise r w).history = s.history := rfl
@[simp] theorem State.raise_draws (r : FatalReason) (w : Word) : (s.raise r w).draws = s.draws := rfl

@[simp] theorem State.raiseInFetch_committed (r : FatalReason) : (s.raiseInFetch r).committed = s.committed := rfl
@[simp] theorem State.raiseInFetch_output (r : FatalReason) : (s.raiseInFetch r).output = s.output := rfl
@[simp] theorem State.raiseInFetch_pc (r : FatalReason) : (s.raiseInFetch r).pc = s.pc := rfl
@[simp] theorem State.raiseInFetch_nextInstr (r : FatalReason) : (s.raiseInFetch r).nextInstr = s.nextInstr := rfl
@[simp] theorem State.raiseInFetch_load (r : FatalReason) : (s.raiseInFetch r).load = s.load := rfl
@[simp] theorem State.raiseInFetch_sr (r : FatalReason) : (s.raiseInFetch r).sr = s.sr := rfl
@[simp] theorem State.raiseInFetch_hi (r : FatalReason) : (s.raiseInFetch r).hi = s.hi := rfl
@[simp] theorem State.raiseInFetch_lo (r : FatalReason) : (s.raiseInFetch r).lo = s.lo := rfl
@[simp] theorem State.raiseInFetch_halted (r : FatalReason) : (s.raiseInFetch r).halted = some ⟨r, .fetch, s.nextInstr, s.pc⟩ := rfl
@[simp] theorem State.raiseInFetch_mem (r : FatalReason) : (s.raiseInFetch r).mem = s.mem := rfl
@[simp] theorem State.raiseInFetch_history (r : FatalReason) : (s.raiseInFetch r).history = s.history := rfl
@[simp] theorem State.raiseInFetch_draws (r : FatalReason) : (s.raiseInFetch r).draws = s.draws := rfl

@[simp] theorem State.latch_committed (w : Word) : (s.latch w).committed = s.committed := rfl
@[simp] theorem State.latch_output (w : Word) : (s.latch w).output = s.output := rfl
@[simp] theorem State.latch_pc (w : Word) : (s.latch w).pc = s.pc + 4#32 := rfl
@[simp] theorem State.latch_nextInstr (w : Word) : (s.latch w).nextInstr = w := rfl
@[simp] theorem State.latch_load (w : Word) : (s.latch w).load = s.load := rfl
@[simp] theorem State.latch_sr (w : Word) : (s.latch w).sr = s.sr := rfl
@[simp] theorem State.latch_hi (w : Word) : (s.latch w).hi = s.hi := rfl
@[simp] theorem State.latch_lo (w : Word) : (s.latch w).lo = s.lo := rfl
@[simp] theorem State.latch_halted (w : Word) : (s.latch w).halted = s.halted := rfl
@[simp] theorem State.latch_mem (w : Word) : (s.latch w).mem = s.mem := rfl
@[simp] theorem State.latch_history (w : Word) : (s.latch w).history = s.history := rfl
@[simp] theorem State.latch_draws (w : Word) : (s.latch w).draws = s.draws := rfl

@[simp] theorem State.commit_committed : (s.commit).committed = s.output := rfl
@[simp] theorem State.commit_output : (s.commit).output = s.output := rfl
@[simp] theorem State.commit_pc : (s.commit).pc = s.pc := rfl
@[simp] theorem State.commit_nextInstr : (s.commit).nextInstr = s.nextInstr := rfl
@[simp] theorem State.commit_load : (s.commit).load = s.load := rfl
@[simp] theorem State.commit_sr : (s.commit).sr = s.sr := rfl
@[simp] theorem State.commit_hi : (s.commit).hi = s.hi := rfl
@[simp] theorem State.commit_lo : (s.commit).lo = s.lo := rfl
@[simp] theorem State.commit_halted : (s.commit).halted = s.halted := rfl
@[simp] theorem State.commit_mem : (s.commit).mem = s.mem := rfl
@[simp] theorem State.commit_history : (s.commit).history = s.history := rfl
@[simp] theorem State.commit_draws : (s.commit).draws = s.draws := rfl

@[simp] theorem State.unspecify_committed : (s.unspecify).committed = freeBank (Config.haltedCommitted s.draws) := rfl
@[simp] theorem State.unspecify_output : (s.unspecify).output = freeBank (Config.haltedOutput s.draws) := rfl
@[simp] theorem State.unspecify_pc : (s.unspecify).pc = s.pc := rfl
@[simp] theorem State.unspecify_nextInstr : (s.unspecify).nextInstr = s.nextInstr := rfl
@[simp] theorem State.unspecify_load : (s.unspecify).load = Config.haltedLoad s.draws := rfl
@[simp] theorem State.unspecify_sr : (s.unspecify).sr = Config.haltedSr s.draws := rfl
@[simp] theorem State.unspecify_hi : (s.unspecify).hi = Config.haltedHi s.draws := rfl
@[simp] theorem State.unspecify_lo : (s.unspecify).lo = Config.haltedLo s.draws := rfl
@[simp] theorem State.unspecify_halted : (s.unspecify).halted = s.halted := rfl
@[simp] theorem State.unspecify_mem : (s.unspecify).mem = s.mem := rfl
@[simp] theorem State.unspecify_history : (s.unspecify).history = s.history := rfl
@[simp] theorem State.unspecify_draws : (s.unspecify).draws = s.draws + 1 := rfl

@[simp] theorem State.resolveLoad_load : s.resolveLoad.load = none := by
  cases h : s.load <;> simp [State.resolveLoad, h]

@[simp] theorem State.resolveLoad_committed : s.resolveLoad.committed = s.committed := by
  cases h : s.load <;> simp [State.resolveLoad, h]
@[simp] theorem State.resolveLoad_pc : s.resolveLoad.pc = s.pc := by
  cases h : s.load <;> simp [State.resolveLoad, h]
@[simp] theorem State.resolveLoad_nextInstr : s.resolveLoad.nextInstr = s.nextInstr := by
  cases h : s.load <;> simp [State.resolveLoad, h]
@[simp] theorem State.resolveLoad_sr : s.resolveLoad.sr = s.sr := by
  cases h : s.load <;> simp [State.resolveLoad, h]
@[simp] theorem State.resolveLoad_hi : s.resolveLoad.hi = s.hi := by
  cases h : s.load <;> simp [State.resolveLoad, h]
@[simp] theorem State.resolveLoad_lo : s.resolveLoad.lo = s.lo := by
  cases h : s.load <;> simp [State.resolveLoad, h]
@[simp] theorem State.resolveLoad_halted : s.resolveLoad.halted = s.halted := by
  cases h : s.load <;> simp [State.resolveLoad, h]
@[simp] theorem State.resolveLoad_mem : s.resolveLoad.mem = s.mem := by
  cases h : s.load <;> simp [State.resolveLoad, h]
@[simp] theorem State.resolveLoad_history : s.resolveLoad.history = s.history := by
  cases h : s.load <;> simp [State.resolveLoad, h]
@[simp] theorem State.resolveLoad_draws : s.resolveLoad.draws = s.draws := by
  cases h : s.load <;> simp [State.resolveLoad, h]

end Sys2Proof.Machine
end

