-- ==== Sys2Proof/Laws/Bank.lean ====
section
/-! SUPPORT. Register banks: register 0 reads 0, a write is read back, a write leaves the other registers alone
(10_state.md R22; 40_pipeline_cycle.md R127). -/

namespace Sys2Proof.Machine

@[simp] theorem Bank.read_zero (b : Bank) : Bank.read b 0#5 = 0#32 := by simp [Bank.read]

@[simp] theorem Bank.write_zero (b : Bank) (v : Word) : Bank.write b 0#5 v = b := by simp [Bank.write]

/-- What every register reads after a write. -/
theorem Bank.read_write (b : Bank) (i j : RegIdx) (v : Word) :
    Bank.read (Bank.write b i v) j = if j = i ∧ i ≠ 0#5 then v else Bank.read b j := by
  by_cases hi : i = 0#5
  · simp [hi]
  by_cases hj : j = 0#5
  · subst hj
    simp [Bank.read, Ne.symm hi]
  have hb : i.toNat < 32 := i.isLt
  have hb' : j.toNat < 32 := j.isLt
  by_cases hij : j = i
  · subst hij
    simp [Bank.read, Bank.write, hi]
  · have hne : ¬ i.toNat = j.toNat := fun h => hij (BitVec.eq_of_toNat_eq h.symm)
    simp [Bank.read, Bank.write, hi, hj, hij, hne]

theorem Bank.read_write_same (b : Bank) (i : RegIdx) (v : Word) (h : i ≠ 0#5) :
    Bank.read (Bank.write b i v) i = v := by simp [Bank.read_write, h]

theorem Bank.read_write_other (b : Bank) (i j : RegIdx) (v : Word) (h : j ≠ i) :
    Bank.read (Bank.write b i v) j = Bank.read b j := by simp [Bank.read_write, h]

/-- Entry 0 of a bank is stored as 0. -/
abbrev Bank.zeroed (b : Bank) : Prop := b[0] = 0#32

theorem Bank.zeroed_write (b : Bank) (i : RegIdx) (v : Word) (h : Bank.zeroed b) : Bank.zeroed (Bank.write b i v) := by
  unfold Bank.zeroed Bank.write
  split
  · exact h
  · rename_i hi
    have : ¬ i.toNat = 0 := fun h0 => hi (BitVec.eq_of_toNat_eq h0)
    simp [this, h]

theorem Bank.zeroed_freeBank (b : Vector Word 32) : Bank.zeroed (freeBank b) := by
  simp [Bank.zeroed, freeBank]

variable (s : State) (i j : RegIdx) (v : Word)

@[simp] theorem State.x_zero : s.x 0#5 = 0#32 := Bank.read_zero _
@[simp] theorem State.xo_zero : s.xo 0#5 = 0#32 := Bank.read_zero _

/-- The committed bank is what an instruction reads, and no instruction writes it (R124). -/
@[simp] theorem State.setReg_x : (s.setReg i v).x j = s.x j := rfl

theorem State.setReg_xo : (s.setReg i v).xo j = if j = i ∧ i ≠ 0#5 then v else s.xo j := Bank.read_write _ _ _ _

@[simp] theorem State.setReg_zero : s.setReg 0#5 v = s := by simp [State.setReg]

@[simp] theorem State.commit_x : s.commit.x j = s.xo j := rfl
@[simp] theorem State.stage_x : (s.stage i v).x j = s.x j := rfl
@[simp] theorem State.stage_xo : (s.stage i v).xo j = s.xo j := rfl
@[simp] theorem State.setPc_x : (s.setPc v).x j = s.x j := rfl
@[simp] theorem State.setPc_xo : (s.setPc v).xo j = s.xo j := rfl
@[simp] theorem State.latch_x : (s.latch v).x j = s.x j := rfl
@[simp] theorem State.latch_xo : (s.latch v).xo j = s.xo j := rfl

/-- The load resolve does not touch what the executing instruction reads (R123). -/
@[simp] theorem State.resolveLoad_x : s.resolveLoad.x j = s.x j := by
  simp [State.x]

/-- The load resolve writes the pending value into the output bank (R123). -/
theorem State.resolveLoad_xo :
    s.resolveLoad.xo j = match s.load with
      | none => s.xo j
      | some (i, v) => if j = i ∧ i ≠ 0#5 then v else s.xo j := by
  cases h : s.load with
  | none => simp [State.resolveLoad, h]
  | some p =>
    simp only [State.resolveLoad, h]
    exact State.setReg_xo s p.1 j p.2

end Sys2Proof.Machine
end

