-- ==== Sys2Proof/Laws/Bytes.lean ====
section
/-! SUPPORT. The little-endian reads of the byte store as the byte joins of 20_memory.md R64, and what a store leaves
in the bytes it names. -/

namespace Sys2Proof.Machine

/-- A one-byte read. -/
theorem readLE_one (s : State) (p : Nat) : Memory.readLE s.mem p 1 = (s.byteAt p).setWidth 32 := by
  simp [Memory.readLE, State.byteAt]

/-- A two-byte read. -/
theorem readLE_two (s : State) (p : Nat) : Memory.readLE s.mem p 2 = (s.halfAt p).setWidth 32 := by
  simp only [Memory.readLE, State.halfAt, State.byteAt]
  apply BitVec.eq_of_getLsbD_eq
  intro i hi
  simp only [BitVec.getLsbD_or, BitVec.getLsbD_setWidth, BitVec.getLsbD_shiftLeft, BitVec.getLsbD_append]
  grind

/-- A four-byte read. -/
theorem readLE_four (s : State) (p : Nat) : Memory.readLE s.mem p 4 = s.wordAt p := by
  simp only [Memory.readLE, State.wordAt, State.byteAt]
  apply BitVec.eq_of_getLsbD_eq
  intro i hi
  simp only [BitVec.getLsbD_or, BitVec.getLsbD_setWidth, BitVec.getLsbD_shiftLeft, BitVec.getLsbD_append]
  by_cases h1 : i < 8
  · grind
  by_cases h2 : i < 16
  · grind
  by_cases h3 : i < 24 <;> grind

/-- Byte `k` of a store is byte `k` of the value. -/
theorem byteAt_writeLE {s : State} (p n k : Nat) (v : Word) (hm : Memory.wf s.mem = true) (hk : k < n) :
    ({ s with mem := s.mem.writeLE p n v } : State).byteAt (p + k) = v.extractLsb' (8 * k) 8 := by
  rw [State.byteAt, Memory.read_writeLE_inside _ _ _ _ _ hm hk]
  apply BitVec.eq_of_getLsbD_eq
  intro i hi
  simp [BitVec.getLsbD_ushiftRight, hi]

/-- A word stored is the word read back. -/
theorem wordAt_writeLE {s : State} (p : Nat) (v : Word) (hm : Memory.wf s.mem = true) :
    ({ s with mem := s.mem.writeLE p 4 v } : State).wordAt p = v := by
  have h0 := byteAt_writeLE (s := s) p 4 0 v hm (by omega)
  rw [Nat.add_zero] at h0
  rw [State.wordAt, byteAt_writeLE p 4 3 v hm (by omega), byteAt_writeLE p 4 2 v hm (by omega),
    byteAt_writeLE p 4 1 v hm (by omega), h0]
  apply BitVec.eq_of_getLsbD_eq
  intro i hi
  simp only [BitVec.getLsbD_append, BitVec.getLsbD_extractLsb']
  grind

/-- A store changes only memory, and in it only its bytes. -/
theorem storesAt_writeLE (s : State) (p n : Nat) (v : Word) (hm : Memory.wf s.mem = true) :
    StoresAt s { s with mem := s.mem.writeLE p n v } p n :=
  ⟨rfl, fun _ ha => Memory.read_writeLE_outside _ _ _ _ _ hm ha⟩

end Sys2Proof.Machine
end

