-- ==== Sys2Proof/Laws/Decode.lean ====
section
/-! SUPPORT. The fields of an encoded word are the fields it was built from, and a word is built from its fields
(30_encoding.md R91, R92). -/

namespace Sys2Proof

/-- A field that lies in the upper part of a concatenation. -/
theorem field_upper {v w : Nat} (hi : BitVec v) (lo : BitVec w) (start len : Nat) (h : w ≤ start) :
    (hi ++ lo).extractLsb' start len = hi.extractLsb' (start - w) len := BitVec.extractLsb'_append_eq_of_le h

/-- A field that lies in the lower part of a concatenation. -/
theorem field_lower {v w : Nat} (hi : BitVec v) (lo : BitVec w) (start len : Nat) (h : start + len ≤ w) :
    (hi ++ lo).extractLsb' start len = lo.extractLsb' start len := BitVec.extractLsb'_append_eq_of_add_le h

/-- A field that is a whole value. -/
theorem field_all {w : Nat} (v : BitVec w) : v.extractLsb' 0 w = v := BitVec.extractLsb'_eq_self

variable (op fn : BitVec 6) (f : RType) (g : IType) (c : CopType) (tgt : BitVec 26) (cop : BitVec 5)

@[simp] theorem opOf_encodeJ : opOf (encodeJ op tgt) = op :=
  (field_upper op tgt 26 6 (by decide)).trans (field_all op)

@[simp] theorem targetOf_encodeJ : targetOf (encodeJ op tgt) = tgt :=
  (field_lower op tgt 0 26 (by decide)).trans (field_all tgt)

@[simp] theorem opOf_encodeI : opOf (encodeI op g) = op :=
  (field_upper (op ++ g.rs ++ g.rt) g.imm 26 6 (by decide)).trans
    ((field_upper (op ++ g.rs) g.rt 10 6 (by decide)).trans
      ((field_upper op g.rs 5 6 (by decide)).trans (field_all op)))

@[simp] theorem rsOf_encodeI : rsOf (encodeI op g) = g.rs :=
  (field_upper (op ++ g.rs ++ g.rt) g.imm 21 5 (by decide)).trans
    ((field_upper (op ++ g.rs) g.rt 5 5 (by decide)).trans
      ((field_lower op g.rs 0 5 (by decide)).trans (field_all g.rs)))

@[simp] theorem rtOf_encodeI : rtOf (encodeI op g) = g.rt :=
  (field_upper (op ++ g.rs ++ g.rt) g.imm 16 5 (by decide)).trans
    ((field_lower (op ++ g.rs) g.rt 0 5 (by decide)).trans (field_all g.rt))

@[simp] theorem immOf_encodeI : immOf (encodeI op g) = g.imm :=
  (field_lower (op ++ g.rs ++ g.rt) g.imm 0 16 (by decide)).trans (field_all g.imm)

@[simp] theorem opOf_encodeR : opOf (encodeR op f fn) = op :=
  (field_upper (op ++ f.rs ++ f.rt ++ f.rd ++ f.shamt) fn 26 6 (by decide)).trans
    ((field_upper (op ++ f.rs ++ f.rt ++ f.rd) f.shamt 20 6 (by decide)).trans
      ((field_upper (op ++ f.rs ++ f.rt) f.rd 15 6 (by decide)).trans
        ((field_upper (op ++ f.rs) f.rt 10 6 (by decide)).trans
          ((field_upper op f.rs 5 6 (by decide)).trans (field_all op)))))

@[simp] theorem rsOf_encodeR : rsOf (encodeR op f fn) = f.rs :=
  (field_upper (op ++ f.rs ++ f.rt ++ f.rd ++ f.shamt) fn 21 5 (by decide)).trans
    ((field_upper (op ++ f.rs ++ f.rt ++ f.rd) f.shamt 15 5 (by decide)).trans
      ((field_upper (op ++ f.rs ++ f.rt) f.rd 10 5 (by decide)).trans
        ((field_upper (op ++ f.rs) f.rt 5 5 (by decide)).trans
          ((field_lower op f.rs 0 5 (by decide)).trans (field_all f.rs)))))

@[simp] theorem rtOf_encodeR : rtOf (encodeR op f fn) = f.rt :=
  (field_upper (op ++ f.rs ++ f.rt ++ f.rd ++ f.shamt) fn 16 5 (by decide)).trans
    ((field_upper (op ++ f.rs ++ f.rt ++ f.rd) f.shamt 10 5 (by decide)).trans
      ((field_upper (op ++ f.rs ++ f.rt) f.rd 5 5 (by decide)).trans
        ((field_lower (op ++ f.rs) f.rt 0 5 (by decide)).trans (field_all f.rt))))

@[simp] theorem rdOf_encodeR : rdOf (encodeR op f fn) = f.rd :=
  (field_upper (op ++ f.rs ++ f.rt ++ f.rd ++ f.shamt) fn 11 5 (by decide)).trans
    ((field_upper (op ++ f.rs ++ f.rt ++ f.rd) f.shamt 5 5 (by decide)).trans
      ((field_lower (op ++ f.rs ++ f.rt) f.rd 0 5 (by decide)).trans (field_all f.rd)))

@[simp] theorem shamtOf_encodeR : shamtOf (encodeR op f fn) = f.shamt :=
  (field_upper (op ++ f.rs ++ f.rt ++ f.rd ++ f.shamt) fn 6 5 (by decide)).trans
    ((field_lower (op ++ f.rs ++ f.rt ++ f.rd) f.shamt 0 5 (by decide)).trans (field_all f.shamt))

@[simp] theorem functOf_encodeR : functOf (encodeR op f fn) = fn :=
  (field_lower (op ++ f.rs ++ f.rt ++ f.rd ++ f.shamt) fn 0 6 (by decide)).trans (field_all fn)

@[simp] theorem rtypeOfWord_encodeR : RType.ofWord (encodeR op f fn) = f := by simp [RType.ofWord]

@[simp] theorem itypeOfWord_encodeI : IType.ofWord (encodeI op g) = g := by simp [IType.ofWord]

@[simp] theorem opOf_encodeCop : opOf (encodeCop cop c) = 0x10#6 :=
  (field_upper (0x10#6 ++ cop ++ c.rt ++ c.rd) c.low 26 6 (by decide)).trans
    ((field_upper (0x10#6 ++ cop ++ c.rt) c.rd 15 6 (by decide)).trans
      ((field_upper (0x10#6 ++ cop) c.rt 10 6 (by decide)).trans
        ((field_upper 0x10#6 cop 5 6 (by decide)).trans (field_all _))))

@[simp] theorem copOf_encodeCop : copOf (encodeCop cop c) = cop :=
  (field_upper (0x10#6 ++ cop ++ c.rt ++ c.rd) c.low 21 5 (by decide)).trans
    ((field_upper (0x10#6 ++ cop ++ c.rt) c.rd 10 5 (by decide)).trans
      ((field_upper (0x10#6 ++ cop) c.rt 5 5 (by decide)).trans
        ((field_lower 0x10#6 cop 0 5 (by decide)).trans (field_all cop))))

@[simp] theorem rtOf_encodeCop : rtOf (encodeCop cop c) = c.rt :=
  (field_upper (0x10#6 ++ cop ++ c.rt ++ c.rd) c.low 16 5 (by decide)).trans
    ((field_upper (0x10#6 ++ cop ++ c.rt) c.rd 5 5 (by decide)).trans
      ((field_lower (0x10#6 ++ cop) c.rt 0 5 (by decide)).trans (field_all c.rt)))

@[simp] theorem rdOf_encodeCop : rdOf (encodeCop cop c) = c.rd :=
  (field_upper (0x10#6 ++ cop ++ c.rt ++ c.rd) c.low 11 5 (by decide)).trans
    ((field_lower (0x10#6 ++ cop ++ c.rt) c.rd 0 5 (by decide)).trans (field_all c.rd))

@[simp] theorem copTypeOfWord_encodeCop : CopType.ofWord (encodeCop cop c) = c := by
  have h : (encodeCop cop c).extractLsb' 0 11 = c.low :=
    (field_lower (0x10#6 ++ cop ++ c.rt ++ c.rd) c.low 0 11 (by decide)).trans (field_all c.low)
  simp [CopType.ofWord, h]

/-- A word is its primary opcode and its low 26 bits. -/
theorem encodeJ_fields (w : Word) : encodeJ (opOf w) (targetOf w) = w := by
  have h : (opOf w) ++ (targetOf w) = w.extractLsb' 0 32 :=
    BitVec.extractLsb'_append_extractLsb'_eq_extractLsb' (x := w) (start₁ := 0) (len₁ := 26) (start₂ := 26)
      (len₂ := 6) rfl
  exact h.trans (field_all w)

/-- A word is its I-type fields. -/
theorem encodeI_fields (w : Word) : encodeI (opOf w) (IType.ofWord w) = w := by
  have h1 : opOf w ++ rsOf w = w.extractLsb' 21 11 :=
    BitVec.extractLsb'_append_extractLsb'_eq_extractLsb' (x := w) (start₁ := 21) (len₁ := 5) (start₂ := 26) (len₂ := 6) rfl
  have h2 : w.extractLsb' 21 11 ++ rtOf w = w.extractLsb' 16 16 :=
    BitVec.extractLsb'_append_extractLsb'_eq_extractLsb' (x := w) (start₁ := 16) (len₁ := 5) (start₂ := 21) (len₂ := 11) rfl
  have h3 : w.extractLsb' 16 16 ++ immOf w = w.extractLsb' 0 32 :=
    BitVec.extractLsb'_append_extractLsb'_eq_extractLsb' (x := w) (start₁ := 0) (len₁ := 16) (start₂ := 16) (len₂ := 16) rfl
  calc encodeI (opOf w) (IType.ofWord w) = opOf w ++ rsOf w ++ rtOf w ++ immOf w := rfl
    _ = w.extractLsb' 21 11 ++ rtOf w ++ immOf w := by rw [h1]
    _ = w.extractLsb' 16 16 ++ immOf w := by rw [h2]
    _ = w.extractLsb' 0 32 := h3
    _ = w := field_all w

/-- A word is its R-type fields. -/
theorem encodeR_fields (w : Word) : encodeR (opOf w) (RType.ofWord w) (functOf w) = w := by
  have h1 : opOf w ++ rsOf w = w.extractLsb' 21 11 :=
    BitVec.extractLsb'_append_extractLsb'_eq_extractLsb' (x := w) (start₁ := 21) (len₁ := 5) (start₂ := 26) (len₂ := 6) rfl
  have h2 : w.extractLsb' 21 11 ++ rtOf w = w.extractLsb' 16 16 :=
    BitVec.extractLsb'_append_extractLsb'_eq_extractLsb' (x := w) (start₁ := 16) (len₁ := 5) (start₂ := 21) (len₂ := 11) rfl
  have h3 : w.extractLsb' 16 16 ++ rdOf w = w.extractLsb' 11 21 :=
    BitVec.extractLsb'_append_extractLsb'_eq_extractLsb' (x := w) (start₁ := 11) (len₁ := 5) (start₂ := 16) (len₂ := 16) rfl
  have h4 : w.extractLsb' 11 21 ++ shamtOf w = w.extractLsb' 6 26 :=
    BitVec.extractLsb'_append_extractLsb'_eq_extractLsb' (x := w) (start₁ := 6) (len₁ := 5) (start₂ := 11) (len₂ := 21) rfl
  have h5 : w.extractLsb' 6 26 ++ functOf w = w.extractLsb' 0 32 :=
    BitVec.extractLsb'_append_extractLsb'_eq_extractLsb' (x := w) (start₁ := 0) (len₁ := 6) (start₂ := 6) (len₂ := 26) rfl
  calc encodeR (opOf w) (RType.ofWord w) (functOf w)
      = opOf w ++ rsOf w ++ rtOf w ++ rdOf w ++ shamtOf w ++ functOf w := rfl
    _ = w.extractLsb' 21 11 ++ rtOf w ++ rdOf w ++ shamtOf w ++ functOf w := by rw [h1]
    _ = w.extractLsb' 16 16 ++ rdOf w ++ shamtOf w ++ functOf w := by rw [h2]
    _ = w.extractLsb' 11 21 ++ shamtOf w ++ functOf w := by rw [h3]
    _ = w.extractLsb' 6 26 ++ functOf w := by rw [h4]
    _ = w.extractLsb' 0 32 := h5
    _ = w := field_all w

end Sys2Proof
end

