-- ==== Sys2Proof/Laws/Ops.lean ====
section
/-! SUPPORT. The shared bodies of the instructions: for each, everything it can answer, so that no proof about an
instruction unfolds the Interconnect or the checks again. -/

namespace Sys2Proof.Machine

theorem writeRd_next {f : RType} {op : Word → Word → Word} {s t : State} (h : writeRd f op s = .next t) :
    t = s.setReg f.rd (op (s.x f.rs) (s.x f.rt)) := by injection h with h; exact h.symm

theorem writeRt_next {f : IType} {op : Word → Word} {s t : State} (h : writeRt f op s = .next t) :
    t = s.setReg f.rt (op (s.x f.rs)) := by injection h with h; exact h.symm

/-- A checked instruction writes its register, or halts without a register write (R137). -/
theorem checkedWrite_next {o : Bool} {w v : Word} {d : RegIdx} {s t : State}
    (h : checkedWrite o w d v s = .next t) :
    (o = true ∧ t = s.raise (.overflow w) w) ∨ (o = false ∧ t = s.setReg d v) := by
  unfold checkedWrite at h
  split at h <;> injection h with h <;> subst h
  · exact .inl ⟨‹_›, rfl⟩
  · exact .inr ⟨by simpa using ‹¬o = true›, rfl⟩

theorem setProduct_next {p : Int} {s t : State} (h : setProduct p s = .next t) :
    t = s.setHiLo (BitVec.ofInt 32 (p / 2 ^ 32)) (BitVec.ofInt 32 p) := by injection h with h; exact h.symm

/-- A branch writes `pc` or nothing (R230). -/
theorem branchIf_next {c : Bool} {imm : BitVec 16} {s t : State} (h : branchIf c imm s = .next t) :
    (c = true ∧ t = s.setPc (branchTarget s.pc imm)) ∨ (c = false ∧ t = s) := by
  injection h with h
  cases c <;> simp_all

/-- A linking branch writes register 31 always and `pc` when taken (R239, R240). -/
theorem branchLinkIf_next {c : Bool} {imm : BitVec 16} {s t : State} (h : branchLinkIf c imm s = .next t) :
    (c = true ∧ t = (s.setReg 31#5 s.pc).setPc (branchTarget s.pc imm)) ∨ (c = false ∧ t = s.setReg 31#5 s.pc) :=
  branchIf_next h

/-- Everything an aligned load can do: nothing under isolation, a staged value, or a fatal record. -/
theorem loadInstr_next {w : Word} {f : IType} {n : Width} {ext : Word → Word} {s t : State}
    (h : loadInstr w f n ext s = .next t) :
    (s.isolated = true ∧ t = s) ∨
    (s.isolated = false ∧ ∃ v u, memRead s (effAddr f s) n = .ok v u ∧ t = u.stage f.rt (ext v)) ∨
    (s.isolated = false ∧ ∃ r, memRead s (effAddr f s) n = .fatal r ∧ t = s.raise r w) := by
  unfold loadInstr at h
  split at h
  · injection h with h; exact .inl ⟨‹_›, h.symm⟩
  · have hi : s.isolated = false := by simpa using ‹¬s.isolated = true›
    split at h <;> injection h with h
    · exact .inr (.inl ⟨hi, _, _, ‹_›, h.symm⟩)
    · exact .inr (.inr ⟨hi, _, ‹_›, h.symm⟩)

/-- Everything LWL and LWR can do. -/
theorem loadMerge_next {w : Word} {f : IType} {g : Word → Word → Word → Word} {s t : State}
    (h : loadMerge w f g s = .next t) :
    (s.isolated = true ∧ t = s) ∨
    (s.isolated = false ∧ ∃ v u, memRead s (wordAddr (effAddr f s)) .word = .ok v u ∧
      t = u.stage f.rt (g (effAddr f s) (u.xo f.rt) v)) ∨
    (s.isolated = false ∧ ∃ r, memRead s (wordAddr (effAddr f s)) .word = .fatal r ∧ t = s.raise r w) := by
  unfold loadMerge at h
  split at h
  · injection h with h; exact .inl ⟨‹_›, h.symm⟩
  · have hi : s.isolated = false := by simpa using ‹¬s.isolated = true›
    split at h <;> injection h with h
    · exact .inr (.inl ⟨hi, _, _, ‹_›, h.symm⟩)
    · exact .inr (.inr ⟨hi, _, ‹_›, h.symm⟩)

/-- Everything an aligned store can do. -/
theorem storeInstr_next {w : Word} {f : IType} {n : Width} {s t : State} (h : storeInstr w f n s = .next t) :
    (s.isolated = true ∧ t = s) ∨
    (s.isolated = false ∧ memWrite s (effAddr f s) n (s.x f.rt) = .ok () t) ∨
    (s.isolated = false ∧ ∃ r, memWrite s (effAddr f s) n (s.x f.rt) = .fatal r ∧ t = s.raise r w) := by
  unfold storeInstr at h
  split at h
  · injection h with h; exact .inl ⟨‹_›, h.symm⟩
  · have hi : s.isolated = false := by simpa using ‹¬s.isolated = true›
    split at h <;> injection h with h
    · subst h; exact .inr (.inl ⟨hi, ‹_›⟩)
    · exact .inr (.inr ⟨hi, _, ‹_›, h.symm⟩)

/-- Everything SWL and SWR can do: a failed write keeps what the read did (R294). -/
theorem storeMerge_next {w : Word} {f : IType} {g : Word → Word → Word → Word} {s t : State}
    (h : storeMerge w f g s = .next t) :
    (s.isolated = true ∧ t = s) ∨
    (s.isolated = false ∧ ∃ r, memRead s (wordAddr (effAddr f s)) .word = .fatal r ∧ t = s.raise r w) ∨
    (s.isolated = false ∧ ∃ v u, memRead s (wordAddr (effAddr f s)) .word = .ok v u ∧
      (memWrite u (wordAddr (effAddr f s)) .word (g (effAddr f s) v (s.x f.rt)) = .ok () t ∨
       ∃ r, memWrite u (wordAddr (effAddr f s)) .word (g (effAddr f s) v (s.x f.rt)) = .fatal r ∧ t = u.raise r w)) := by
  unfold storeMerge at h
  split at h
  · injection h with h; exact .inl ⟨‹_›, h.symm⟩
  · have hi : s.isolated = false := by simpa using ‹¬s.isolated = true›
    split at h
    · injection h with h; exact .inr (.inl ⟨hi, _, ‹_›, h.symm⟩)
    · split at h <;> injection h with h
      · subst h; exact .inr (.inr ⟨hi, _, _, ‹_›, .inl ‹_›⟩)
      · exact .inr (.inr ⟨hi, _, _, ‹_›, .inr ⟨_, ‹_›, h.symm⟩⟩)

/-- Everything MTC0 can do (R261). -/
theorem execMtc0_next {f : CopType} {s t : State} (h : execMtc0 f s = .next t) :
    (f.rd = srNumber ∧ t = { s with sr := s.x f.rt }) ∨ (f.rd ≠ srNumber ∧ s.x f.rt = 0#32 ∧ t = s) ∨
    (f.rd ≠ srNumber ∧ s.x f.rt ≠ 0#32 ∧ t = s.raise (.cop0Write f.rd (s.x f.rt)) (encode (.mtc0 f))) := by
  unfold execMtc0 at h
  split at h
  · injection h with h; exact .inl ⟨‹_›, h.symm⟩
  · split at h <;> injection h with h
    · exact .inr (.inl ⟨‹_›, ‹_›, h.symm⟩)
    · exact .inr (.inr ⟨‹_›, ‹_›, h.symm⟩)

/-- Everything MFC0 can do (R262). -/
theorem execMfc0_next {f : CopType} {s t : State} (h : execMfc0 f s = .next t) :
    (f.rd = srNumber ∧ t = s.stage f.rt s.sr) ∨
    (f.rd ≠ srNumber ∧ t = s.raise (.cop0Read f.rd) (encode (.mfc0 f))) := by
  unfold execMfc0 at h
  split at h <;> injection h with h
  · exact .inl ⟨‹_›, h.symm⟩
  · exact .inr ⟨‹_›, h.symm⟩

theorem raiseUnimplemented_next {w : Word} {s t : State} (h : raiseUnimplemented w s = .next t) :
    t = s.raise (.unimplemented w) w := by injection h with h; exact h.symm

end Sys2Proof.Machine
end

