-- ==== Sys2Proof/Laws/Step.lean ====
section
/-! SUPPORT. What a step can do, said once: the fetch stopped it, or the latched word executed and the step ended. -/

namespace Sys2Proof.Machine

/-- The end of a step of a machine that still runs is the commit (R125). -/
theorem endStep_running {s : State} (h : s.halted = none) : s.endStep = s.commit := by simp [State.endStep, h]

/-- The end of a step that raised a fatal condition leaves the unspecified halted state (R132). -/
theorem endStep_halted {s : State} {r : FatalRecord} (h : s.halted = some r) : s.endStep = s.unspecify := by
  simp [State.endStep, h]

@[simp] theorem endStep_halted_field (s : State) : s.endStep.halted = s.halted := by
  cases h : s.halted <;> simp [State.endStep, h]

@[simp] theorem endStep_mem (s : State) : s.endStep.mem = s.mem := by
  cases h : s.halted <;> simp [State.endStep, h]

@[simp] theorem endStep_history (s : State) : s.endStep.history = s.history := by
  cases h : s.halted <;> simp [State.endStep, h]

@[simp] theorem endStep_pc (s : State) : s.endStep.pc = s.pc := by
  cases h : s.halted <;> simp [State.endStep, h]

@[simp] theorem endStep_nextInstr (s : State) : s.endStep.nextInstr = s.nextInstr := by
  cases h : s.halted <;> simp [State.endStep, h]

variable (s : State) (w : Word)

@[simp] theorem enterExecute_pc : (enterExecute s w).pc = s.pc + 4#32 := by simp [enterExecute]
@[simp] theorem enterExecute_nextInstr : (enterExecute s w).nextInstr = w := by simp [enterExecute]
@[simp] theorem enterExecute_load : (enterExecute s w).load = none := by simp [enterExecute]
@[simp] theorem enterExecute_committed : (enterExecute s w).committed = s.committed := by simp [enterExecute]
@[simp] theorem enterExecute_sr : (enterExecute s w).sr = s.sr := by simp [enterExecute]
@[simp] theorem enterExecute_hi : (enterExecute s w).hi = s.hi := by simp [enterExecute]
@[simp] theorem enterExecute_lo : (enterExecute s w).lo = s.lo := by simp [enterExecute]
@[simp] theorem enterExecute_halted : (enterExecute s w).halted = s.halted := by simp [enterExecute]
@[simp] theorem enterExecute_mem : (enterExecute s w).mem = s.mem := by simp [enterExecute]
@[simp] theorem enterExecute_history : (enterExecute s w).history = s.history := by simp [enterExecute]
@[simp] theorem enterExecute_draws : (enterExecute s w).draws = s.draws := by simp [enterExecute]

/-- Everything a step with a next state did. -/
theorem step_next {s s' : State} (h : step s = .next s') :
    s.halted = none ∧
    ((∃ r, fetch s = .fatal r ∧ s' = s.raiseInFetch r) ∨
     (∃ fetched t u, fetch s = .ok fetched t ∧ execute s.nextInstr (enterExecute t fetched) = .next u ∧
       s' = u.endStep)) := by
  unfold step at h
  split at h
  · cases h
  · rename_i hh
    refine ⟨hh, ?_⟩
    split at h
    · injection h with h; exact .inl ⟨_, ‹_›, h.symm⟩
    · unfold runLatched at h
      split at h
      · injection h with h; exact .inr ⟨_, _, _, ‹_›, ‹_›, h.symm⟩
      · cases h
      · cases h

/-- Everything the execution of a word can be. -/
theorem execute_cases (w : Word) (s : State) :
    (∃ i, decode w = .ok i ∧ execute w s = exec i s) ∨
    (∃ e, decode w = .error e ∧ execute w s = .next (s.raise (.unimplemented w) w)) := by
  cases h : decode w with
  | ok i => exact .inl ⟨i, rfl, by simp [execute, h]⟩
  | error e => exact .inr ⟨e, rfl, by simp [execute, h, raiseUnimplemented]⟩

end Sys2Proof.Machine
end

