-- ==== Sys2Proof/Laws/Exec.lean ====
section
/-! SUPPORT. What executing one instruction can change, said once for every instruction: the whole-machine rules and the
invariant cite this and unfold no meaning. -/

namespace Sys2Proof.Machine

/-- What an access of the Interconnect leaves alone: everything but memory and the devices' history. -/
structure AccessFrame (s t : State) : Prop where
  same : t = { s with mem := t.mem, history := t.history }
  canonical : Memory.wf s.mem = true → Memory.wf t.mem = true
  /-- Memory lists bytes of RAM, SCRATCH and BIOS only. -/
  mapped : (∀ c ∈ s.mem, isMemoryAddress c.1 = true) → ∀ c ∈ t.mem, isMemoryAddress c.1 = true
  /-- No byte outside RAM and SCRATCH changes (20_memory.md R66, R67). -/
  readOnly : Memory.wf s.mem = true → ∀ p, isBiosAddress p = true → t.byteAt p = s.byteAt p

theorem AccessFrame.refl (s : State) : AccessFrame s s := ⟨rfl, id, id, fun _ _ _ => rfl⟩

theorem AccessFrame.trans {s t u : State} (h : AccessFrame s t) (g : AccessFrame t u) : AccessFrame s u where
  same := by rw [g.same, h.same]
  canonical := g.canonical ∘ h.canonical
  mapped := g.mapped ∘ h.mapped
  readOnly := fun hm p hp => (g.readOnly (h.canonical hm) p hp).trans (h.readOnly hm p hp)

theorem memRead_mem {s t : State} {addr v : Word} {n : Width} (h : memRead s addr n = .ok v t) : t.mem = s.mem := by
  obtain ⟨-, r, -, ⟨-, -, rfl⟩ | ⟨-, -, -, rfl⟩⟩ := memRead_ok h <;> rfl

theorem memRead_frame {s t : State} {addr v : Word} {n : Width} (h : memRead s addr n = .ok v t) :
    AccessFrame s t where
  same := by obtain ⟨-, r, -, ⟨-, -, rfl⟩ | ⟨-, -, -, rfl⟩⟩ := memRead_ok h <;> rfl
  canonical := memRead_wf h
  mapped := by rw [memRead_mem h]; exact id
  readOnly := fun _ p _ => by rw [State.byteAt, State.byteAt, memRead_mem h]

theorem bytesOf_cases (n : Width) : bytesOf n = 1 ∨ bytesOf n = 2 ∨ bytesOf n = 4 := by cases n <;> simp [bytesOf]

theorem memWrite_frame {s t : State} {addr v : Word} {n : Width} {u : Unit} (h : memWrite s addr n v = .ok u t) :
    AccessFrame s t where
  same := by obtain ⟨-, r, -, ⟨-, rfl⟩ | ⟨-, -, rfl⟩⟩ := memWrite_ok h <;> rfl
  canonical := memWrite_wf h
  mapped := by
    obtain ⟨ha, r, hr, ⟨hk, rfl⟩ | ⟨-, -, rfl⟩⟩ := memWrite_ok h
    · intro hm c hc
      obtain hc | ⟨k, hkn, he⟩ := Memory.mem_writeLE hc
      · exact hm c hc
      · rw [isMemoryAddress, he, storage_classify hr hk ((aligned_iff addr n).1 ha) (bytesOf_cases n) hkn]
        simp [hk]
    · exact id
  readOnly := by
    obtain ⟨ha, r, hr, ⟨hk, rfl⟩ | ⟨-, -, rfl⟩⟩ := memWrite_ok h
    · intro hm p hp
      refine Memory.read_writeLE_outside _ _ _ _ _ hm ?_
      by_contra hin
      have hc := storage_classify (k := p - (physical addr).toNat) hr hk ((aligned_iff addr n).1 ha) (bytesOf_cases n)
        (by omega)
      rw [Nat.add_sub_cancel' (by omega)] at hc
      simp only [isBiosAddress, hc, beq_iff_eq] at hp
      rw [hp] at hk; cases hk
    · exact fun _ _ _ => rfl

/-- What `exec i` can change, when it answers a next state. -/
structure ExecFrame (i : Instr) (s t : State) : Prop where
  /-- No instruction writes the committed bank (40_pipeline_cycle.md R124). -/
  committed : t.committed = s.committed
  nextInstr : t.nextInstr = s.nextInstr
  draws : t.draws = s.draws
  /-- Of the output bank, only the direct destination changes (10_state.md R26). -/
  output : ∀ j, directDest i ≠ some j → t.xo j = s.xo j
  outputZero : Bank.zeroed s.output → Bank.zeroed t.output
  pc : transfersControl i = false → t.pc = s.pc
  load : stages i = false → t.load = s.load
  sr : t.sr = s.sr ∨ ∃ f, i = .mtc0 f ∧ f.rd = srNumber ∧ t.sr = s.x f.rt
  hiLo : writesHiLo i = false → t.hi = s.hi ∧ t.lo = s.lo
  mem : t.mem ≠ s.mem → isStore i = true ∧ s.isolated = false ∧ t.halted = s.halted
  canonical : Memory.wf s.mem = true → Memory.wf t.mem = true
  mapped : (∀ c ∈ s.mem, isMemoryAddress c.1 = true) → ∀ c ∈ t.mem, isMemoryAddress c.1 = true
  readOnly : Memory.wf s.mem = true → ∀ p, isBiosAddress p = true → t.byteAt p = s.byteAt p
  halted : t.halted = s.halted ∨
    ∃ r, t = { s with halted := some ⟨r, .execute, encode i, s.pc⟩, history := t.history }

theorem ExecFrame.refl (i : Instr) (s : State) : ExecFrame i s s where
  committed := rfl
  nextInstr := rfl
  draws := rfl
  output := fun _ _ => rfl
  outputZero := id
  pc := fun _ => rfl
  load := fun _ => rfl
  sr := .inl rfl
  hiLo := fun _ => ⟨rfl, rfl⟩
  mem := fun h => absurd rfl h
  canonical := id
  mapped := id
  readOnly := fun _ _ _ => rfl
  halted := .inl rfl

/-- A fatal condition changes `halted` alone (60_exceptions.md R291). -/
theorem ExecFrame.raise (i : Instr) (s : State) (r : FatalReason) : ExecFrame i s (s.raise r (encode i)) where
  committed := rfl
  nextInstr := rfl
  draws := rfl
  output := fun _ _ => rfl
  outputZero := id
  pc := fun _ => rfl
  load := fun _ => rfl
  sr := .inl rfl
  hiLo := fun _ => ⟨rfl, rfl⟩
  mem := fun h => absurd rfl h
  canonical := id
  mapped := id
  readOnly := fun _ _ _ => rfl
  halted := .inr ⟨r, rfl⟩

/-- A direct write of the instruction's destination. -/
theorem ExecFrame.setReg {i : Instr} (s : State) {d : RegIdx} (v : Word) (h : directDest i = some d) :
    ExecFrame i s (s.setReg d v) where
  committed := rfl
  nextInstr := rfl
  draws := rfl
  output := fun j hj => by
    have : j ≠ d := fun e => hj (e ▸ h)
    simp [State.setReg_xo, this]
  outputZero := Bank.zeroed_write _ _ _
  pc := fun _ => rfl
  load := fun _ => rfl
  sr := .inl rfl
  hiLo := fun _ => ⟨rfl, rfl⟩
  mem := fun h => absurd rfl h
  canonical := id
  mapped := id
  readOnly := fun _ _ _ => rfl
  halted := .inl rfl

/-- A write of `HI` and `LO`. -/
theorem ExecFrame.setHiLo {i : Instr} (s : State) (a b : Word) (h : writesHiLo i = true) :
    ExecFrame i s (s.setHiLo a b) where
  committed := rfl
  nextInstr := rfl
  draws := rfl
  output := fun _ _ => rfl
  outputZero := id
  pc := fun _ => rfl
  load := fun _ => rfl
  sr := .inl rfl
  hiLo := fun h' => by simp [h] at h'
  mem := fun h => absurd rfl h
  canonical := id
  mapped := id
  readOnly := fun _ _ _ => rfl
  halted := .inl rfl

/-- A write of `pc` after what else the instruction did. -/
theorem ExecFrame.setPc {i : Instr} {s t : State} (g : ExecFrame i s t) (v : Word) (h : transfersControl i = true)
    (hh : t.halted = s.halted) : ExecFrame i s (t.setPc v) where
  committed := g.committed
  nextInstr := g.nextInstr
  draws := g.draws
  output := g.output
  outputZero := g.outputZero
  pc := fun h' => by simp [h] at h'
  load := g.load
  sr := g.sr
  hiLo := g.hiLo
  mem := g.mem
  canonical := g.canonical
  mapped := g.mapped
  readOnly := g.readOnly
  halted := .inl hh

/-- A staged value. -/
theorem ExecFrame.stage {i : Instr} {s t : State} (g : AccessFrame s t) (d : RegIdx) (v : Word)
    (h : stages i = true) (hm : t.mem = s.mem) : ExecFrame i s (t.stage d v) := by
  rw [g.same, hm]
  exact {
    committed := rfl
    nextInstr := rfl
    draws := rfl
    output := fun _ _ => rfl
    outputZero := id
    pc := fun _ => rfl
    load := fun h' => by simp [h] at h'
    sr := .inl rfl
    hiLo := fun _ => ⟨rfl, rfl⟩
    mem := fun h => absurd rfl h
    canonical := id
    mapped := id
    readOnly := fun _ _ _ => rfl
    halted := .inl rfl }

/-- A store. -/
theorem ExecFrame.stored {i : Instr} {s t : State} (g : AccessFrame s t) (h : isStore i = true)
    (hi : s.isolated = false) : ExecFrame i s t := by
  have hc := g.canonical
  have hm := g.mapped
  have hb := g.readOnly
  rw [g.same] at hc hm hb ⊢
  exact {
    committed := rfl
    nextInstr := rfl
    draws := rfl
    output := fun _ _ => rfl
    outputZero := id
    pc := fun _ => rfl
    load := fun _ => rfl
    sr := .inl rfl
    hiLo := fun _ => ⟨rfl, rfl⟩
    mem := fun _ => ⟨h, hi, rfl⟩
    canonical := hc
    mapped := hm
    readOnly := hb
    halted := .inl rfl }

theorem loadInstr_frame {i : Instr} {f : IType} {n : Width} {ext : Word → Word} {s t : State}
    (h : loadInstr (encode i) f n ext s = .next t) (hs : stages i = true) : ExecFrame i s t := by
  obtain ⟨-, rfl⟩ | ⟨-, v, u, hr, rfl⟩ | ⟨-, r, -, rfl⟩ := loadInstr_next h
  · exact .refl i _
  · exact .stage (memRead_frame hr) _ _ hs (memRead_mem hr)
  · exact .raise i s r

theorem loadMerge_frame {i : Instr} {f : IType} {g : Word → Word → Word → Word} {s t : State}
    (h : loadMerge (encode i) f g s = .next t) (hs : stages i = true) : ExecFrame i s t := by
  obtain ⟨-, rfl⟩ | ⟨-, v, u, hr, rfl⟩ | ⟨-, r, -, rfl⟩ := loadMerge_next h
  · exact .refl i _
  · exact .stage (memRead_frame hr) _ _ hs (memRead_mem hr)
  · exact .raise i s r

theorem storeInstr_frame {i : Instr} {f : IType} {n : Width} {s t : State}
    (h : storeInstr (encode i) f n s = .next t) (hs : isStore i = true) : ExecFrame i s t := by
  obtain ⟨-, rfl⟩ | ⟨hi, hw⟩ | ⟨-, r, -, rfl⟩ := storeInstr_next h
  · exact .refl i _
  · exact .stored (memWrite_frame hw) hs hi
  · exact .raise i s r

theorem storeMerge_frame {i : Instr} {f : IType} {g : Word → Word → Word → Word} {s t : State}
    (h : storeMerge (encode i) f g s = .next t) (hs : isStore i = true) : ExecFrame i s t := by
  obtain ⟨-, rfl⟩ | ⟨-, r, -, rfl⟩ | ⟨hi, v, u, hr, hw | ⟨r, -, rfl⟩⟩ := storeMerge_next h
  · exact .refl i _
  · exact .raise i s r
  · exact .stored ((memRead_frame hr).trans (memWrite_frame hw)) hs hi
  · rw [(memRead_frame hr).same, memRead_mem hr]
    exact { ExecFrame.raise i s r with halted := .inr ⟨r, rfl⟩ }

theorem writeRd_frame {i : Instr} {f : RType} {op : Word → Word → Word} {s t : State} (h : writeRd f op s = .next t)
    (hd : directDest i = some f.rd) : ExecFrame i s t := writeRd_next h ▸ .setReg s _ hd

theorem writeRt_frame {i : Instr} {f : IType} {op : Word → Word} {s t : State} (h : writeRt f op s = .next t)
    (hd : directDest i = some f.rt) : ExecFrame i s t := writeRt_next h ▸ .setReg s _ hd

theorem checkedWrite_frame {i : Instr} {o : Bool} {d : RegIdx} {v : Word} {s t : State}
    (h : checkedWrite o (encode i) d v s = .next t) (hd : directDest i = some d) : ExecFrame i s t := by
  obtain ⟨-, rfl⟩ | ⟨-, rfl⟩ := checkedWrite_next h
  · exact .raise i s _
  · exact .setReg s v hd

theorem setProduct_frame {i : Instr} {p : Int} {s t : State} (h : setProduct p s = .next t)
    (hw : writesHiLo i = true) : ExecFrame i s t := setProduct_next h ▸ .setHiLo s _ _ hw

theorem branchIf_frame {i : Instr} {c : Bool} {imm : BitVec 16} {s t : State} (h : branchIf c imm s = .next t)
    (hc : transfersControl i = true) : ExecFrame i s t := by
  obtain ⟨-, rfl⟩ | ⟨-, rfl⟩ := branchIf_next h
  · exact (ExecFrame.refl i s).setPc _ hc rfl
  · exact .refl i _

theorem branchLinkIf_frame {i : Instr} {c : Bool} {imm : BitVec 16} {s t : State}
    (h : branchLinkIf c imm s = .next t) (hd : directDest i = some 31#5) (hc : transfersControl i = true) :
    ExecFrame i s t := by
  obtain ⟨-, rfl⟩ | ⟨-, rfl⟩ := branchLinkIf_next h
  · exact (ExecFrame.setReg s s.pc hd).setPc _ hc rfl
  · exact .setReg s s.pc hd

theorem raiseUnimplemented_frame {i : Instr} {s t : State} (h : raiseUnimplemented (encode i) s = .next t) :
    ExecFrame i s t := raiseUnimplemented_next h ▸ .raise i s _

theorem execMtc0_frame {f : CopType} {s t : State} (h : execMtc0 f s = .next t) : ExecFrame (.mtc0 f) s t := by
  obtain ⟨hf, rfl⟩ | ⟨-, -, rfl⟩ | ⟨-, -, rfl⟩ := execMtc0_next h
  · exact { ExecFrame.refl (.mtc0 f) s with sr := .inr ⟨f, rfl, hf, rfl⟩, halted := .inl rfl }
  · exact .refl _ _
  · exact .raise _ s _

theorem execMfc0_frame {f : CopType} {s t : State} (h : execMfc0 f s = .next t) : ExecFrame (.mfc0 f) s t := by
  obtain ⟨-, rfl⟩ | ⟨-, rfl⟩ := execMfc0_next h
  · exact .stage (.refl s) _ _ rfl rfl
  · exact .raise _ s _

theorem next_eq {s t : State} (h : (Host.Outcome.next s : Outcome) = .next t) : t = s := by injection h with h; exact h.symm

/-- Whatever `exec` answers with a next state, it changed only what the instruction may change. -/
theorem exec_frame {i : Instr} {s t : State} (h : exec i s = .next t) : ExecFrame i s t := by
  cases i with
  | add _ | sub _ | addi _ => exact checkedWrite_frame h rfl
  | addu _ | subu _ | and _ | or _ | xor _ | nor _ | slt _ | sltu _ | sll _ | srl _ | sra _ | sllv _ | srlv _
  | srav _ =>
    simp only [exec, execAddu, execSubu, execAnd, execOr, execXor, execNor, execSlt, execSltu, execSll, execSrl, execSra,
      execSllv, execSrlv, execSrav] at h
    exact writeRd_frame h rfl
  | addiu _ | slti _ | sltiu _ | andi _ | ori _ | xori _ =>
    simp only [exec, execAddiu, execSlti, execSltiu, execAndi, execOri, execXori] at h
    exact writeRt_frame h rfl
  | lui _ | mfhi _ | mflo _ => exact next_eq h ▸ .setReg s _ rfl
  | mult _ | multu _ => exact setProduct_frame h rfl
  | div _ | divu _ | mthi _ | mtlo _ => exact next_eq h ▸ .setHiLo s _ _ rfl
  | lb _ | lbu _ | lh _ | lhu _ | lw _ => exact loadInstr_frame h rfl
  | lwl _ | lwr _ => exact loadMerge_frame h rfl
  | sb _ | sh _ | sw _ => exact storeInstr_frame h rfl
  | swl _ | swr _ => exact storeMerge_frame h rfl
  | beq _ | bne _ | blez _ | bgtz _ | bltz _ _ | bgez _ _ => exact branchIf_frame h rfl
  | bltzal _ _ | bgezal _ _ => exact branchLinkIf_frame h rfl rfl
  | j _ | jr _ => exact next_eq h ▸ (ExecFrame.refl _ s).setPc _ rfl rfl
  | jal _ | jalr _ => exact next_eq h ▸ (ExecFrame.setReg s _ rfl).setPc _ rfl rfl
  | mfc0 _ => exact execMfc0_frame h
  | mtc0 _ => exact execMtc0_frame h
  | syscall _ | brk _ | cfc0 _ | ctc0 _ | bc0 _ _ | rfe _ | cop0Co _ | cop1 _ | cop2 _ | cop3 _ | lwc0 _ | lwc1 _
  | lwc2 _ | lwc3 _ | swc0 _ | swc1 _ | swc2 _ | swc3 _ => exact raiseUnimplemented_frame h

/-- No instruction ends in a fault or a refusal. -/
theorem exec_next (i : Instr) (s : State) : ∃ t, exec i s = .next t := by
  cases i <;> simp only [exec, execAdd, execSub, execAddi, checkedWrite, execLb, execLbu, execLh, execLhu, execLw, execLwl,
    execLwr, execSb, execSh, execSw, execSwl, execSwr, loadInstr, loadMerge, storeInstr, storeMerge, execMfc0, execMtc0] <;>
    first | exact ⟨_, rfl⟩ | (repeat' split) <;> exact ⟨_, rfl⟩

/-- The devices' history only grows. -/
theorem exec_history {i : Instr} {s t : State} (h : exec i s = .next t) : s.history <+: t.history := by
  cases i with
  | lb _ | lbu _ | lh _ | lhu _ | lw _ =>
    obtain ⟨-, rfl⟩ | ⟨-, v, u, hr, rfl⟩ | ⟨-, r, -, rfl⟩ := loadInstr_next h
    · exact List.prefix_rfl
    · exact (memRead_history hr :)
    · exact List.prefix_rfl
  | lwl _ | lwr _ =>
    obtain ⟨-, rfl⟩ | ⟨-, v, u, hr, rfl⟩ | ⟨-, r, -, rfl⟩ := loadMerge_next h
    · exact List.prefix_rfl
    · exact (memRead_history hr :)
    · exact List.prefix_rfl
  | sb _ | sh _ | sw _ =>
    obtain ⟨-, rfl⟩ | ⟨-, hw⟩ | ⟨-, r, -, rfl⟩ := storeInstr_next h
    · exact List.prefix_rfl
    · exact memWrite_history hw
    · exact List.prefix_rfl
  | swl _ | swr _ =>
    obtain ⟨-, rfl⟩ | ⟨-, r, -, rfl⟩ | ⟨-, v, u, hr, hw | ⟨r, -, rfl⟩⟩ := storeMerge_next h
    · exact List.prefix_rfl
    · exact List.prefix_rfl
    · exact (memRead_history hr).trans (memWrite_history hw)
    · exact (memRead_history hr :)
  | add _ | sub _ | addi _ => obtain ⟨-, rfl⟩ | ⟨-, rfl⟩ := checkedWrite_next h <;> exact List.prefix_rfl
  | mfc0 _ => obtain ⟨-, rfl⟩ | ⟨-, rfl⟩ := execMfc0_next h <;> exact List.prefix_rfl
  | mtc0 _ => obtain ⟨-, rfl⟩ | ⟨-, -, rfl⟩ | ⟨-, -, rfl⟩ := execMtc0_next h <;> exact List.prefix_rfl
  | beq _ | bne _ | blez _ | bgtz _ | bltz _ _ | bgez _ _ =>
    obtain ⟨-, rfl⟩ | ⟨-, rfl⟩ := branchIf_next h <;> exact List.prefix_rfl
  | bltzal _ _ | bgezal _ _ => obtain ⟨-, rfl⟩ | ⟨-, rfl⟩ := branchLinkIf_next h <;> exact List.prefix_rfl
  | _ => exact next_eq h ▸ List.prefix_rfl

end Sys2Proof.Machine
end

