-- ==== Sys2Proof/Laws/Output.lean ====
section
/-! SUPPORT. What an instruction reads of the output bank, said once for every instruction: nothing but the merge input of
LWL and LWR (40_pipeline_cycle.md R124; 43_load_store.md R209, R210). It is why the instruction in a load's delay slot does not see the
loaded value. -/

namespace Sys2Proof.Machine

/-- A load of the Interconnect reads and writes neither the output bank nor the slot. -/
theorem memRead_output (s : State) (o : Bank) (l : Option (RegIdx × Word)) (addr : Word) (n : Width) :
    memRead { s with output := o, load := l } addr n =
      match memRead s addr n with
      | .ok v t => .ok v { t with output := o, load := l }
      | .fatal r => .fatal r := by
  unfold memRead deviceLoad
  repeat' first | rfl | split

/-- A store of the Interconnect reads and writes neither the output bank nor the slot. -/
theorem memWrite_output (s : State) (o : Bank) (l : Option (RegIdx × Word)) (addr v : Word) (n : Width) :
    memWrite { s with output := o, load := l } addr n v =
      match memWrite s addr n v with
      | .ok u t => .ok u { t with output := o, load := l }
      | .fatal r => .fatal r := by
  unfold memWrite deviceStore
  repeat' first | rfl | split

/-- How the next states `t` and `u` of one instruction agree, when it ran from `s` and from `s` with the output bank `o`. -/
structure OutputFrame (i : Instr) (s : State) (o : Bank) (t u : State) : Prop where
  same : u = { t with output := u.output, load := u.load }
  /-- Only the merge input of LWL and LWR is read from the output bank (43_load_store.md R209, R210). -/
  load : (∀ f, i = .lwl f ∨ i = .lwr f → Bank.read o f.rt = s.xo f.rt) → u.load = t.load
  /-- A register that held one value in both output banks still does. -/
  output : ∀ k, Bank.read o k = s.xo k → u.xo k = t.xo k

variable {i : Instr} {s t u : State} {o : Bank} {d : RegIdx} {v w : Word}

theorem OutputFrame.kept (ht : t.output = s.output) : OutputFrame i s o t { t with output := o } :=
  ⟨rfl, fun _ => rfl, fun k hk => by simpa [State.xo, ht] using hk⟩

theorem OutputFrame.setReg : OutputFrame i s o (s.setReg d v) (State.setReg { s with output := o } d v) where
  same := rfl
  load := fun _ => rfl
  output := fun k hk => by
    rw [State.setReg_xo, State.setReg_xo]
    split
    · rfl
    · exact hk

theorem OutputFrame.setPc (h : OutputFrame i s o t u) (v : Word) : OutputFrame i s o (t.setPc v) (u.setPc v) :=
  ⟨by rw [h.same]; rfl, h.load, h.output⟩

/-- What this file says of an instruction or of a shared body: run on another output bank, it answers a next state too. -/
def SameFor (i : Instr) (s : State) (o : Bank) (f : State → Outcome) : Prop :=
  ∀ t, f s = .next t → ∃ u, f { s with output := o } = .next u ∧ OutputFrame i s o t u

theorem SameFor.of_next (g : State → State) (h : OutputFrame i s o (g s) (g { s with output := o })) :
    SameFor i s o (fun s => .next (g s)) := by
  intro t ht
  injection ht with ht
  exact ⟨_, rfl, ht ▸ h⟩

theorem checkedWrite_output (c : Bool) : SameFor i s o (checkedWrite c w d v) := by
  cases c
  · exact .of_next (·.setReg d v) .setReg
  · exact .of_next (·.raise (.overflow w) w) (.kept rfl)

theorem branchIf_output (c : Bool) (imm : BitVec 16) : SameFor i s o (branchIf c imm) := by
  cases c
  · exact .of_next id (.kept rfl)
  · exact .of_next (fun s => s.setPc (branchTarget s.pc imm)) (.kept rfl)

theorem branchLinkIf_output (c : Bool) (imm : BitVec 16) : SameFor i s o (branchLinkIf c imm) := by
  cases c
  · exact .of_next (fun s => s.setReg 31#5 s.pc) .setReg
  · exact .of_next (fun s => (s.setReg 31#5 s.pc).setPc (branchTarget s.pc imm)) (.setPc .setReg _)

theorem memRead_ok_output {a : Word} {n : Width} (h : memRead s a n = .ok v t) :
    memRead { s with output := o } a n = .ok v { t with output := o } := by
  have hm := memRead_output s o s.load a n
  rw [h] at hm
  rw [hm, (memRead_frame h).same]

theorem memRead_fatal_output {a : Word} {n : Width} {r : FatalReason} (h : memRead s a n = .fatal r) :
    memRead { s with output := o } a n = .fatal r := by
  have hm := memRead_output s o s.load a n
  rwa [h] at hm

theorem memWrite_ok_output {a : Word} {n : Width} {e : Unit} (h : memWrite s a n v = .ok e t) :
    memWrite { s with output := o } a n v = .ok e { t with output := o } := by
  have hm := memWrite_output s o s.load a v n
  rw [h] at hm
  rw [hm, (memWrite_frame h).same]

theorem memWrite_fatal_output {a : Word} {n : Width} {r : FatalReason} (h : memWrite s a n v = .fatal r) :
    memWrite { s with output := o } a n v = .fatal r := by
  have hm := memWrite_output s o s.load a v n
  rwa [h] at hm

@[simp] theorem effAddr_output (f : IType) (s : State) (o : Bank) : effAddr f { s with output := o } = effAddr f s := rfl
@[simp] theorem isolated_output (s : State) (o : Bank) : State.isolated { s with output := o } = s.isolated := rfl
@[simp] theorem x_output (s : State) (o : Bank) (k : RegIdx) : State.x { s with output := o } k = s.x k := rfl

theorem loadInstr_output (f : IType) (n : Width) (ext : Word → Word) : SameFor i s o (loadInstr w f n ext) := by
  intro t h
  obtain ⟨hi, rfl⟩ | ⟨hi, v, u, hr, rfl⟩ | ⟨hi, r, hr, rfl⟩ := loadInstr_next h
  · exact ⟨_, by simp [loadInstr, hi], .kept rfl⟩
  · exact ⟨_, by simp [loadInstr, hi, memRead_ok_output hr]; rfl,
      .kept (t := u.stage f.rt (ext v)) (by rw [(memRead_frame hr).same]; rfl)⟩
  · exact ⟨_, by simp [loadInstr, hi, memRead_fatal_output hr]; rfl, .kept (t := s.raise r w) rfl⟩

theorem loadMerge_output (f : IType) (g : Word → Word → Word → Word) (hf : i = .lwl f ∨ i = .lwr f) :
    SameFor i s o (loadMerge w f g) := by
  intro t h
  obtain ⟨hi, rfl⟩ | ⟨hi, v, u, hr, rfl⟩ | ⟨hi, r, hr, rfl⟩ := loadMerge_next h
  · exact ⟨_, by simp [loadMerge, hi], .kept rfl⟩
  · have hu : u.output = s.output := by rw [(memRead_frame hr).same]
    refine ⟨_, by simp [loadMerge, hi, memRead_ok_output hr]; rfl, ⟨rfl, fun hk => ?_, fun k hk => ?_⟩⟩
    · have : Bank.read o f.rt = u.xo f.rt := (hk f hf).trans (by simp [State.xo, hu])
      simp [State.xo, this]
    · exact hk.trans (by simp [State.xo, hu])
  · exact ⟨_, by simp [loadMerge, hi, memRead_fatal_output hr]; rfl, .kept (t := s.raise r w) rfl⟩

theorem storeInstr_output (f : IType) (n : Width) : SameFor i s o (storeInstr w f n) := by
  intro t h
  obtain ⟨hi, rfl⟩ | ⟨hi, hw⟩ | ⟨hi, r, hw, rfl⟩ := storeInstr_next h
  · exact ⟨_, by simp [storeInstr, hi], .kept rfl⟩
  · exact ⟨_, by simp [storeInstr, hi, memWrite_ok_output hw], .kept (by rw [(memWrite_frame hw).same])⟩
  · exact ⟨_, by simp [storeInstr, hi, memWrite_fatal_output hw]; rfl, .kept (t := s.raise r w) rfl⟩

theorem storeMerge_output (f : IType) (g : Word → Word → Word → Word) : SameFor i s o (storeMerge w f g) := by
  intro t h
  obtain ⟨hi, rfl⟩ | ⟨hi, r, hr, rfl⟩ | ⟨hi, v, u, hr, hw | ⟨r, hw, rfl⟩⟩ := storeMerge_next h
  · exact ⟨_, by simp [storeMerge, hi], .kept rfl⟩
  · exact ⟨_, by simp [storeMerge, hi, memRead_fatal_output hr]; rfl, .kept (t := s.raise r w) rfl⟩
  · exact ⟨_, by simp [storeMerge, hi, memRead_ok_output hr, memWrite_ok_output hw],
      .kept (by rw [(memWrite_frame hw).same, (memRead_frame hr).same])⟩
  · exact ⟨_, by simp [storeMerge, hi, memRead_ok_output hr, memWrite_fatal_output hw]; rfl,
      .kept (t := u.raise r w) (by rw [(memRead_frame hr).same]; rfl)⟩

/-- An instruction reads nothing of the output bank but the merge input of LWL and LWR. -/
theorem exec_output (i : Instr) (s : State) (o : Bank) : SameFor i s o (exec i) := by
  cases i with
  | add _ | sub _ | addi _ => intro t h; exact checkedWrite_output _ t h
  | addu f | subu f | and f | or f | xor f | nor f | slt f | sltu f | sll f | srl f | sra f | sllv f | srlv f | srav f
  | addiu f | slti f | sltiu f | andi f | ori f | xori f | lui f | mfhi f | mflo f =>
    intro t h; injection h with h; subst h; exact ⟨_, rfl, .setReg⟩
  | mult _ | multu _ | div _ | divu _ | mthi _ | mtlo _ | j _ | jr _ | syscall _ | brk _ | cfc0 _ | ctc0 _ | bc0 _ _
  | rfe _ | cop0Co _ | cop1 _ | cop2 _ | cop3 _ | lwc0 _ | lwc1 _ | lwc2 _ | lwc3 _ | swc0 _ | swc1 _ | swc2 _
  | swc3 _ => intro t h; injection h with h; subst h; exact ⟨_, rfl, .kept rfl⟩
  | lb _ | lbu _ | lh _ | lhu _ | lw _ => intro t h; exact loadInstr_output _ _ _ t h
  | lwl f => intro t h; exact loadMerge_output f _ (.inl rfl) t h
  | lwr f => intro t h; exact loadMerge_output f _ (.inr rfl) t h
  | sb _ | sh _ | sw _ => intro t h; exact storeInstr_output _ _ t h
  | swl _ | swr _ => intro t h; exact storeMerge_output _ _ t h
  | beq _ | bne _ | blez _ | bgtz _ | bltz _ _ | bgez _ _ => intro t h; exact branchIf_output _ _ t h
  | bltzal _ _ | bgezal _ _ => intro t h; exact branchLinkIf_output _ _ t h
  | jal _ | jalr _ => intro t h; injection h with h; subst h; exact ⟨_, rfl, .setPc .setReg _⟩
  | mfc0 f =>
    intro t h
    obtain ⟨hf, rfl⟩ | ⟨hf, rfl⟩ := execMfc0_next h
    · exact ⟨_, by simp [exec, execMfc0, hf]; rfl, .kept rfl⟩
    · exact ⟨_, by simp [exec, execMfc0, hf]; rfl, .kept rfl⟩
  | mtc0 f =>
    intro t h
    obtain ⟨hf, rfl⟩ | ⟨hf, hz, rfl⟩ | ⟨hf, hz, rfl⟩ := execMtc0_next h
    · exact ⟨_, by simp [exec, execMtc0, hf], .kept rfl⟩
    · exact ⟨_, by simp [exec, execMtc0, hf, hz], .kept rfl⟩
    · exact ⟨_, by simp [exec, execMtc0, hf, hz]; rfl, .kept rfl⟩

end Sys2Proof.Machine
end

