-- ==== Sys2Proof/Laws/PerInstr.lean ====
section
/-! SUPPORT. Statements made for every instruction, one lemma per constructor. TableRow: the encoder agrees with the
mask and match of the instruction's row in opcode_table.json, whatever its operands. -/

namespace Sys2Proof.Laws

/-- The row of opcode_table.json: its mask and its match. -/
structure TableRow.Row where
  mask : Word
  pattern : Word
  deriving DecidableEq, Repr

/-- The row of each instruction, copied from opcode_table.json. -/
def TableRow.row : Instr → TableRow.Row
  | .sll _ => ⟨0xFC00003F#32, 0x00000000#32⟩
  | .srl _ => ⟨0xFC00003F#32, 0x00000002#32⟩
  | .sra _ => ⟨0xFC00003F#32, 0x00000003#32⟩
  | .sllv _ => ⟨0xFC00003F#32, 0x00000004#32⟩
  | .srlv _ => ⟨0xFC00003F#32, 0x00000006#32⟩
  | .srav _ => ⟨0xFC00003F#32, 0x00000007#32⟩
  | .jr _ => ⟨0xFC00003F#32, 0x00000008#32⟩
  | .jalr _ => ⟨0xFC00003F#32, 0x00000009#32⟩
  | .mfhi _ => ⟨0xFC00003F#32, 0x00000010#32⟩
  | .mthi _ => ⟨0xFC00003F#32, 0x00000011#32⟩
  | .mflo _ => ⟨0xFC00003F#32, 0x00000012#32⟩
  | .mtlo _ => ⟨0xFC00003F#32, 0x00000013#32⟩
  | .mult _ => ⟨0xFC00003F#32, 0x00000018#32⟩
  | .multu _ => ⟨0xFC00003F#32, 0x00000019#32⟩
  | .div _ => ⟨0xFC00003F#32, 0x0000001A#32⟩
  | .divu _ => ⟨0xFC00003F#32, 0x0000001B#32⟩
  | .add _ => ⟨0xFC00003F#32, 0x00000020#32⟩
  | .addu _ => ⟨0xFC00003F#32, 0x00000021#32⟩
  | .sub _ => ⟨0xFC00003F#32, 0x00000022#32⟩
  | .subu _ => ⟨0xFC00003F#32, 0x00000023#32⟩
  | .and _ => ⟨0xFC00003F#32, 0x00000024#32⟩
  | .or _ => ⟨0xFC00003F#32, 0x00000025#32⟩
  | .xor _ => ⟨0xFC00003F#32, 0x00000026#32⟩
  | .nor _ => ⟨0xFC00003F#32, 0x00000027#32⟩
  | .slt _ => ⟨0xFC00003F#32, 0x0000002A#32⟩
  | .sltu _ => ⟨0xFC00003F#32, 0x0000002B#32⟩
  | .j _ => ⟨0xFC000000#32, 0x08000000#32⟩
  | .jal _ => ⟨0xFC000000#32, 0x0C000000#32⟩
  | .beq _ => ⟨0xFC000000#32, 0x10000000#32⟩
  | .bne _ => ⟨0xFC000000#32, 0x14000000#32⟩
  | .blez _ => ⟨0xFC000000#32, 0x18000000#32⟩
  | .bgtz _ => ⟨0xFC000000#32, 0x1C000000#32⟩
  | .addi _ => ⟨0xFC000000#32, 0x20000000#32⟩
  | .addiu _ => ⟨0xFC000000#32, 0x24000000#32⟩
  | .slti _ => ⟨0xFC000000#32, 0x28000000#32⟩
  | .sltiu _ => ⟨0xFC000000#32, 0x2C000000#32⟩
  | .andi _ => ⟨0xFC000000#32, 0x30000000#32⟩
  | .ori _ => ⟨0xFC000000#32, 0x34000000#32⟩
  | .xori _ => ⟨0xFC000000#32, 0x38000000#32⟩
  | .lui _ => ⟨0xFC000000#32, 0x3C000000#32⟩
  | .lb _ => ⟨0xFC000000#32, 0x80000000#32⟩
  | .lh _ => ⟨0xFC000000#32, 0x84000000#32⟩
  | .lwl _ => ⟨0xFC000000#32, 0x88000000#32⟩
  | .lw _ => ⟨0xFC000000#32, 0x8C000000#32⟩
  | .lbu _ => ⟨0xFC000000#32, 0x90000000#32⟩
  | .lhu _ => ⟨0xFC000000#32, 0x94000000#32⟩
  | .lwr _ => ⟨0xFC000000#32, 0x98000000#32⟩
  | .sb _ => ⟨0xFC000000#32, 0xA0000000#32⟩
  | .sh _ => ⟨0xFC000000#32, 0xA4000000#32⟩
  | .swl _ => ⟨0xFC000000#32, 0xA8000000#32⟩
  | .sw _ => ⟨0xFC000000#32, 0xAC000000#32⟩
  | .swr _ => ⟨0xFC000000#32, 0xB8000000#32⟩
  | .bltz _ _ => ⟨0xFC1F0000#32, 0x04000000#32⟩
  | .bgez _ _ => ⟨0xFC1F0000#32, 0x04010000#32⟩
  | .bltzal _ _ => ⟨0xFC1F0000#32, 0x04100000#32⟩
  | .bgezal _ _ => ⟨0xFC1F0000#32, 0x04110000#32⟩
  | .mfc0 _ => ⟨0xFFE00000#32, 0x40000000#32⟩
  | .mtc0 _ => ⟨0xFFE00000#32, 0x40800000#32⟩
  | .syscall _ => ⟨0xFC00003F#32, 0x0000000C#32⟩
  | .brk _ => ⟨0xFC00003F#32, 0x0000000D#32⟩
  | .cfc0 _ => ⟨0xFFE00000#32, 0x40400000#32⟩
  | .ctc0 _ => ⟨0xFFE00000#32, 0x40C00000#32⟩
  | .bc0 _ _ => ⟨0xFFE00000#32, 0x41000000#32⟩
  | .rfe _ => ⟨0xFFE0003F#32, 0x42000010#32⟩
  | .cop0Co _ => ⟨0xFE000000#32, 0x42000000#32⟩
  | .cop1 _ => ⟨0xFC000000#32, 0x44000000#32⟩
  | .cop2 _ => ⟨0xFC000000#32, 0x48000000#32⟩
  | .cop3 _ => ⟨0xFC000000#32, 0x4C000000#32⟩
  | .lwc0 _ => ⟨0xFC000000#32, 0xC0000000#32⟩
  | .lwc1 _ => ⟨0xFC000000#32, 0xC4000000#32⟩
  | .lwc2 _ => ⟨0xFC000000#32, 0xC8000000#32⟩
  | .lwc3 _ => ⟨0xFC000000#32, 0xCC000000#32⟩
  | .swc0 _ => ⟨0xFC000000#32, 0xE0000000#32⟩
  | .swc1 _ => ⟨0xFC000000#32, 0xE4000000#32⟩
  | .swc2 _ => ⟨0xFC000000#32, 0xE8000000#32⟩
  | .swc3 _ => ⟨0xFC000000#32, 0xEC000000#32⟩

/-- The encoded word has the bits that opcode_table.json fixes for the row. -/
def TableRow.Statement (i : Instr) : Prop := encode i &&& (TableRow.row i).mask = (TableRow.row i).pattern

theorem TableRow.masked_upper {v w : Nat} (a c : BitVec v) (b d : BitVec w) : (a ++ b) &&& (c ++ d) = (a &&& c) ++ (b &&& d) := by
  apply BitVec.eq_of_getLsbD_eq
  intro i hi
  simp only [BitVec.getLsbD_and, BitVec.getLsbD_append]
  split <;> rfl

theorem TableRow.encodeJ_masked (op : BitVec 6) (t : BitVec 26) : encodeJ op t &&& 0xFC000000#32 = encodeJ op 0#26 := by
  have h := TableRow.masked_upper op 0x3F#6 t 0#26
  rw [show (0x3F#6 : BitVec 6) = BitVec.allOnes 6 from rfl, BitVec.and_allOnes, BitVec.and_zero] at h
  exact h

theorem TableRow.encodeI_masked (op : BitVec 6) (g : IType) : encodeI op g &&& 0xFC000000#32 = encodeJ op 0#26 := by
  have h := TableRow.encodeJ_masked (opOf (encodeI op g)) (targetOf (encodeI op g))
  rwa [encodeJ_fields, opOf_encodeI] at h

theorem TableRow.encodeI_masked_rt (op : BitVec 6) (g : IType) :
    encodeI op g &&& 0xFC1F0000#32 = encodeI op ⟨0#5, g.rt, 0#16⟩ := by
  have h1 := TableRow.masked_upper (op ++ g.rs ++ g.rt) (0x3F#6 ++ 0#5 ++ 0x1F#5) g.imm 0#16
  rw [TableRow.masked_upper (op ++ g.rs) (0x3F#6 ++ 0#5) g.rt 0x1F#5, TableRow.masked_upper op 0x3F#6 g.rs 0#5,
    show (0x3F#6 : BitVec 6) = BitVec.allOnes 6 from rfl, show (0x1F#5 : BitVec 5) = BitVec.allOnes 5 from rfl,
    BitVec.and_allOnes, BitVec.and_zero, BitVec.and_allOnes, BitVec.and_zero] at h1
  exact h1

theorem TableRow.encodeI_masked_rs (op : BitVec 6) (g : IType) :
    encodeI op g &&& 0xFFE00000#32 = encodeI op ⟨g.rs, 0#5, 0#16⟩ := by
  have h1 := TableRow.masked_upper (op ++ g.rs ++ g.rt) (0x3F#6 ++ 0x1F#5 ++ 0#5) g.imm 0#16
  rw [TableRow.masked_upper (op ++ g.rs) (0x3F#6 ++ 0x1F#5) g.rt 0#5, TableRow.masked_upper op 0x3F#6 g.rs 0x1F#5,
    show (0x3F#6 : BitVec 6) = BitVec.allOnes 6 from rfl, show (0x1F#5 : BitVec 5) = BitVec.allOnes 5 from rfl,
    BitVec.and_allOnes, BitVec.and_zero, BitVec.and_allOnes, BitVec.and_zero] at h1
  exact h1

theorem TableRow.encodeRegimm_masked (sel rs : BitVec 5) (imm : BitVec 16) :
    encodeRegimm sel rs imm &&& 0xFC1F0000#32 = encodeI 0x01#6 ⟨0#5, sel, 0#16⟩ :=
  TableRow.encodeI_masked_rt 0x01#6 ⟨rs, sel, imm⟩

theorem TableRow.bc0_masked (rs rt : BitVec 5) (imm : BitVec 16) :
    encodeI 0x10#6 ⟨rs, rt, imm⟩ &&& 0xFFE00000#32 = encodeI 0x10#6 ⟨rs, 0#5, 0#16⟩ :=
  TableRow.encodeI_masked_rs 0x10#6 ⟨rs, rt, imm⟩

theorem TableRow.encodeCop_masked (cop : BitVec 5) (c : CopType) :
    encodeCop cop c &&& 0xFFE00000#32 = encodeI 0x10#6 ⟨cop, 0#5, 0#16⟩ := by
  have h := TableRow.encodeI_masked_rs (opOf (encodeCop cop c)) (IType.ofWord (encodeCop cop c))
  rw [encodeI_fields, opOf_encodeCop] at h
  rw [h]
  exact congrArg (fun r => encodeI 0x10#6 ⟨r, 0#5, 0#16⟩) (copOf_encodeCop c cop)

theorem TableRow.encodeR_masked (op fn : BitVec 6) (f : RType) :
    encodeR op f fn &&& 0xFC00003F#32 = encodeR op ⟨0#5, 0#5, 0#5, 0#5⟩ fn := by
  have h1 := TableRow.masked_upper (op ++ f.rs ++ f.rt ++ f.rd ++ f.shamt) (0x3F#6 ++ 0#5 ++ 0#5 ++ 0#5 ++ 0#5) fn 0x3F#6
  rw [TableRow.masked_upper (op ++ f.rs ++ f.rt ++ f.rd) (0x3F#6 ++ 0#5 ++ 0#5 ++ 0#5) f.shamt 0#5,
    TableRow.masked_upper (op ++ f.rs ++ f.rt) (0x3F#6 ++ 0#5 ++ 0#5) f.rd 0#5,
    TableRow.masked_upper (op ++ f.rs) (0x3F#6 ++ 0#5) f.rt 0#5, TableRow.masked_upper op 0x3F#6 f.rs 0#5,
    show (0x3F#6 : BitVec 6) = BitVec.allOnes 6 from rfl] at h1
  simp only [BitVec.and_allOnes, BitVec.and_zero] at h1
  exact h1

/-- SYSCALL and BREAK: the code field is masked out. -/
theorem TableRow.code_masked (fn : BitVec 6) (code : BitVec 20) :
    ((0x00#6 ++ code ++ fn : Word) &&& 0xFC00003F#32) = (0x00#6 ++ 0#20 ++ fn : Word) := by
  have h := TableRow.masked_upper (0x00#6 ++ code) (0x3F#6 ++ 0#20) fn 0x3F#6
  rw [TableRow.masked_upper 0x00#6 0x3F#6 code 0#20, show (0x3F#6 : BitVec 6) = BitVec.allOnes 6 from rfl,
    BitVec.and_allOnes, BitVec.and_allOnes, BitVec.and_zero] at h
  exact h

theorem TableRow.rfe_masked (mid : BitVec 15) :
    ((0x10#6 ++ 16#5 ++ mid ++ 0x10#6 : Word) &&& 0xFFE0003F#32) = 0x42000010#32 := by
  have h := TableRow.masked_upper (0x10#6 ++ 16#5 ++ mid) (0x3F#6 ++ 0x1F#5 ++ 0#15) 0x10#6 0x3F#6
  rw [TableRow.masked_upper (0x10#6 ++ 16#5) (0x3F#6 ++ 0x1F#5) mid 0#15, BitVec.and_zero] at h
  exact h

theorem TableRow.co_masked (low : BitVec 25) : ((0x10#6 ++ 1#1 ++ low : Word) &&& 0xFE000000#32) = 0x42000000#32 := by
  have h := TableRow.masked_upper (0x10#6 ++ 1#1) (0x3F#6 ++ 1#1) low 0#25
  rw [BitVec.and_zero] at h
  exact h

namespace TableRow

theorem sll (f : RType) : Statement (.sll f) := TableRow.encodeR_masked _ _ f
theorem srl (f : RType) : Statement (.srl f) := TableRow.encodeR_masked _ _ f
theorem sra (f : RType) : Statement (.sra f) := TableRow.encodeR_masked _ _ f
theorem sllv (f : RType) : Statement (.sllv f) := TableRow.encodeR_masked _ _ f
theorem srlv (f : RType) : Statement (.srlv f) := TableRow.encodeR_masked _ _ f
theorem srav (f : RType) : Statement (.srav f) := TableRow.encodeR_masked _ _ f
theorem jr (f : RType) : Statement (.jr f) := TableRow.encodeR_masked _ _ f
theorem jalr (f : RType) : Statement (.jalr f) := TableRow.encodeR_masked _ _ f
theorem mfhi (f : RType) : Statement (.mfhi f) := TableRow.encodeR_masked _ _ f
theorem mthi (f : RType) : Statement (.mthi f) := TableRow.encodeR_masked _ _ f
theorem mflo (f : RType) : Statement (.mflo f) := TableRow.encodeR_masked _ _ f
theorem mtlo (f : RType) : Statement (.mtlo f) := TableRow.encodeR_masked _ _ f
theorem mult (f : RType) : Statement (.mult f) := TableRow.encodeR_masked _ _ f
theorem multu (f : RType) : Statement (.multu f) := TableRow.encodeR_masked _ _ f
theorem div (f : RType) : Statement (.div f) := TableRow.encodeR_masked _ _ f
theorem divu (f : RType) : Statement (.divu f) := TableRow.encodeR_masked _ _ f
theorem add (f : RType) : Statement (.add f) := TableRow.encodeR_masked _ _ f
theorem addu (f : RType) : Statement (.addu f) := TableRow.encodeR_masked _ _ f
theorem sub (f : RType) : Statement (.sub f) := TableRow.encodeR_masked _ _ f
theorem subu (f : RType) : Statement (.subu f) := TableRow.encodeR_masked _ _ f
theorem and (f : RType) : Statement (.and f) := TableRow.encodeR_masked _ _ f
theorem or (f : RType) : Statement (.or f) := TableRow.encodeR_masked _ _ f
theorem xor (f : RType) : Statement (.xor f) := TableRow.encodeR_masked _ _ f
theorem nor (f : RType) : Statement (.nor f) := TableRow.encodeR_masked _ _ f
theorem slt (f : RType) : Statement (.slt f) := TableRow.encodeR_masked _ _ f
theorem sltu (f : RType) : Statement (.sltu f) := TableRow.encodeR_masked _ _ f
theorem j (target : BitVec 26) : Statement (.j target) := TableRow.encodeJ_masked _ target
theorem jal (target : BitVec 26) : Statement (.jal target) := TableRow.encodeJ_masked _ target
theorem beq (f : IType) : Statement (.beq f) := TableRow.encodeI_masked _ f
theorem bne (f : IType) : Statement (.bne f) := TableRow.encodeI_masked _ f
theorem blez (f : IType) : Statement (.blez f) := TableRow.encodeI_masked _ f
theorem bgtz (f : IType) : Statement (.bgtz f) := TableRow.encodeI_masked _ f
theorem addi (f : IType) : Statement (.addi f) := TableRow.encodeI_masked _ f
theorem addiu (f : IType) : Statement (.addiu f) := TableRow.encodeI_masked _ f
theorem slti (f : IType) : Statement (.slti f) := TableRow.encodeI_masked _ f
theorem sltiu (f : IType) : Statement (.sltiu f) := TableRow.encodeI_masked _ f
theorem andi (f : IType) : Statement (.andi f) := TableRow.encodeI_masked _ f
theorem ori (f : IType) : Statement (.ori f) := TableRow.encodeI_masked _ f
theorem xori (f : IType) : Statement (.xori f) := TableRow.encodeI_masked _ f
theorem lui (f : IType) : Statement (.lui f) := TableRow.encodeI_masked _ f
theorem lb (f : IType) : Statement (.lb f) := TableRow.encodeI_masked _ f
theorem lh (f : IType) : Statement (.lh f) := TableRow.encodeI_masked _ f
theorem lwl (f : IType) : Statement (.lwl f) := TableRow.encodeI_masked _ f
theorem lw (f : IType) : Statement (.lw f) := TableRow.encodeI_masked _ f
theorem lbu (f : IType) : Statement (.lbu f) := TableRow.encodeI_masked _ f
theorem lhu (f : IType) : Statement (.lhu f) := TableRow.encodeI_masked _ f
theorem lwr (f : IType) : Statement (.lwr f) := TableRow.encodeI_masked _ f
theorem sb (f : IType) : Statement (.sb f) := TableRow.encodeI_masked _ f
theorem sh (f : IType) : Statement (.sh f) := TableRow.encodeI_masked _ f
theorem swl (f : IType) : Statement (.swl f) := TableRow.encodeI_masked _ f
theorem sw (f : IType) : Statement (.sw f) := TableRow.encodeI_masked _ f
theorem swr (f : IType) : Statement (.swr f) := TableRow.encodeI_masked _ f
theorem bltz (rs : RegIdx) (imm : BitVec 16) : Statement (.bltz rs imm) := TableRow.encodeRegimm_masked 0#5 rs imm
theorem bgez (rs : RegIdx) (imm : BitVec 16) : Statement (.bgez rs imm) := TableRow.encodeRegimm_masked 1#5 rs imm
theorem bltzal (rs : RegIdx) (imm : BitVec 16) : Statement (.bltzal rs imm) := TableRow.encodeRegimm_masked 16#5 rs imm
theorem bgezal (rs : RegIdx) (imm : BitVec 16) : Statement (.bgezal rs imm) := TableRow.encodeRegimm_masked 17#5 rs imm
theorem mfc0 (f : CopType) : Statement (.mfc0 f) := TableRow.encodeCop_masked _ f
theorem mtc0 (f : CopType) : Statement (.mtc0 f) := TableRow.encodeCop_masked _ f
theorem syscall (code : BitVec 20) : Statement (.syscall code) := TableRow.code_masked _ code
theorem brk (code : BitVec 20) : Statement (.brk code) := TableRow.code_masked _ code
theorem cfc0 (f : CopType) : Statement (.cfc0 f) := TableRow.encodeCop_masked _ f
theorem ctc0 (f : CopType) : Statement (.ctc0 f) := TableRow.encodeCop_masked _ f
theorem bc0 (rt : RegIdx) (imm : BitVec 16) : Statement (.bc0 rt imm) := TableRow.bc0_masked 8#5 rt imm
theorem rfe (mid : BitVec 15) : Statement (.rfe mid) := TableRow.rfe_masked mid
theorem cop0Co (low : BitVec 25) : Statement (.cop0Co low) := TableRow.co_masked low
theorem cop1 (low : BitVec 26) : Statement (.cop1 low) := TableRow.encodeJ_masked _ low
theorem cop2 (low : BitVec 26) : Statement (.cop2 low) := TableRow.encodeJ_masked _ low
theorem cop3 (low : BitVec 26) : Statement (.cop3 low) := TableRow.encodeJ_masked _ low
theorem lwc0 (f : IType) : Statement (.lwc0 f) := TableRow.encodeI_masked _ f
theorem lwc1 (f : IType) : Statement (.lwc1 f) := TableRow.encodeI_masked _ f
theorem lwc2 (f : IType) : Statement (.lwc2 f) := TableRow.encodeI_masked _ f
theorem lwc3 (f : IType) : Statement (.lwc3 f) := TableRow.encodeI_masked _ f
theorem swc0 (f : IType) : Statement (.swc0 f) := TableRow.encodeI_masked _ f
theorem swc1 (f : IType) : Statement (.swc1 f) := TableRow.encodeI_masked _ f
theorem swc2 (f : IType) : Statement (.swc2 f) := TableRow.encodeI_masked _ f
theorem swc3 (f : IType) : Statement (.swc3 f) := TableRow.encodeI_masked _ f

end TableRow
end Sys2Proof.Laws
end

