-- ==== Sys2Proof/Tests/Slice0.lean ====
section
/-! SUPPORT. Tests. Words and expected values are those of the spec: the examples of its rules and the vectors of
95_test_vectors.md, named in each section's comment. The witnesses show a state and operands that meet the hypotheses of each
obligation, with a boundary value for each clause. -/

open Sys2Proof Sys2Proof.Machine

namespace Sys2Proof.Tests

/-! ## WellFormed: a "COP0 CO (other)" term that holds the bits of RFE is refused -/

theorem test_wellFormed_refuses_rfe_as_other_co : (Instr.cop0Co 0x0000010#25).wellFormed = false := by decide
theorem test_wellFormed_refuses_rfe_with_ignored_bits : (Instr.cop0Co 0x01FFFD0#25).wellFormed = false := by decide
theorem test_wellFormed_accepts_other_co :
    (Instr.cop0Co 0x0000001#25).wellFormed = true ∧ (Instr.cop0Co 0x0200010#25).wellFormed = true := by decide
theorem test_wellFormed_accepts_rfe : (Instr.rfe 0#15).wellFormed = true := by decide

/-! ## Decoding: one word per constructor, from the encodings of 30_encoding.md and the spec's own examples -/

theorem test_decode_shifts :
    decode 0x00084FC0#32 = .ok (.sll ⟨0#5, 8#5, 9#5, 31#5⟩) ∧ decode 0x00084902#32 = .ok (.srl ⟨0#5, 8#5, 9#5, 4#5⟩) ∧
    decode 0x00084FC3#32 = .ok (.sra ⟨0#5, 8#5, 9#5, 31#5⟩) ∧ decode 0x01285004#32 = .ok (.sllv ⟨9#5, 8#5, 10#5, 0#5⟩) ∧
    decode 0x01285006#32 = .ok (.srlv ⟨9#5, 8#5, 10#5, 0#5⟩) ∧
    decode 0x01285007#32 = .ok (.srav ⟨9#5, 8#5, 10#5, 0#5⟩) := by decide

theorem test_decode_jumps :
    decode 0x01000008#32 = .ok (.jr ⟨8#5, 0#5, 0#5, 0#5⟩) ∧ decode 0x0100F809#32 = .ok (.jalr ⟨8#5, 0#5, 31#5, 0#5⟩) ∧
    decode 0x08004000#32 = .ok (.j 0x4000#26) ∧ decode 0x0C00800C#32 = .ok (.jal 0x800C#26) := by decide

theorem test_decode_muldiv :
    decode 0x00005010#32 = .ok (.mfhi ⟨0#5, 0#5, 10#5, 0#5⟩) ∧ decode 0x01000011#32 = .ok (.mthi ⟨8#5, 0#5, 0#5, 0#5⟩) ∧
    decode 0x00005012#32 = .ok (.mflo ⟨0#5, 0#5, 10#5, 0#5⟩) ∧ decode 0x01000013#32 = .ok (.mtlo ⟨8#5, 0#5, 0#5, 0#5⟩) ∧
    decode 0x01090018#32 = .ok (.mult ⟨8#5, 9#5, 0#5, 0#5⟩) ∧ decode 0x01090019#32 = .ok (.multu ⟨8#5, 9#5, 0#5, 0#5⟩) ∧
    decode 0x0109001A#32 = .ok (.div ⟨8#5, 9#5, 0#5, 0#5⟩) ∧
    decode 0x0109001B#32 = .ok (.divu ⟨8#5, 9#5, 0#5, 0#5⟩) := by decide

theorem test_decode_register_alu :
    decode 0x01095020#32 = .ok (.add ⟨8#5, 9#5, 10#5, 0#5⟩) ∧ decode 0x01095021#32 = .ok (.addu ⟨8#5, 9#5, 10#5, 0#5⟩) ∧
    decode 0x01095022#32 = .ok (.sub ⟨8#5, 9#5, 10#5, 0#5⟩) ∧ decode 0x01095023#32 = .ok (.subu ⟨8#5, 9#5, 10#5, 0#5⟩) ∧
    decode 0x01095024#32 = .ok (.and ⟨8#5, 9#5, 10#5, 0#5⟩) ∧ decode 0x01095025#32 = .ok (.or ⟨8#5, 9#5, 10#5, 0#5⟩) ∧
    decode 0x01095026#32 = .ok (.xor ⟨8#5, 9#5, 10#5, 0#5⟩) ∧ decode 0x01095027#32 = .ok (.nor ⟨8#5, 9#5, 10#5, 0#5⟩) ∧
    decode 0x0109502A#32 = .ok (.slt ⟨8#5, 9#5, 10#5, 0#5⟩) ∧
    decode 0x0109502B#32 = .ok (.sltu ⟨8#5, 9#5, 10#5, 0#5⟩) := by decide

theorem test_decode_immediate_alu :
    decode 0x2109FFFF#32 = .ok (.addi ⟨8#5, 9#5, 0xFFFF#16⟩) ∧ decode 0x2509000A#32 = .ok (.addiu ⟨8#5, 9#5, 10#16⟩) ∧
    decode 0x2909FFFF#32 = .ok (.slti ⟨8#5, 9#5, 0xFFFF#16⟩) ∧ decode 0x2D09FFFF#32 = .ok (.sltiu ⟨8#5, 9#5, 0xFFFF#16⟩) ∧
    decode 0x3109FFFF#32 = .ok (.andi ⟨8#5, 9#5, 0xFFFF#16⟩) ∧ decode 0x35098000#32 = .ok (.ori ⟨8#5, 9#5, 0x8000#16⟩) ∧
    decode 0x3909FFFF#32 = .ok (.xori ⟨8#5, 9#5, 0xFFFF#16⟩) ∧
    decode 0x3C081F80#32 = .ok (.lui ⟨0#5, 8#5, 0x1F80#16⟩) := by decide

theorem test_decode_branches :
    decode 0x11090003#32 = .ok (.beq ⟨8#5, 9#5, 3#16⟩) ∧ decode 0x1500FFFD#32 = .ok (.bne ⟨8#5, 0#5, 0xFFFD#16⟩) ∧
    decode 0x19000002#32 = .ok (.blez ⟨8#5, 0#5, 2#16⟩) ∧ decode 0x1D000002#32 = .ok (.bgtz ⟨8#5, 0#5, 2#16⟩) ∧
    decode 0x05000002#32 = .ok (.bltz 8#5 2#16) ∧ decode 0x05010002#32 = .ok (.bgez 8#5 2#16) ∧
    decode 0x07F00002#32 = .ok (.bltzal 31#5 2#16) ∧ decode 0x05110002#32 = .ok (.bgezal 8#5 2#16) := by decide

theorem test_decode_loads :
    decode 0x81280004#32 = .ok (.lb ⟨9#5, 8#5, 4#16⟩) ∧ decode 0x85280006#32 = .ok (.lh ⟨9#5, 8#5, 6#16⟩) ∧
    decode 0x89280001#32 = .ok (.lwl ⟨9#5, 8#5, 1#16⟩) ∧ decode 0x8D28FFFC#32 = .ok (.lw ⟨9#5, 8#5, 0xFFFC#16⟩) ∧
    decode 0x91280005#32 = .ok (.lbu ⟨9#5, 8#5, 5#16⟩) ∧ decode 0x95280003#32 = .ok (.lhu ⟨9#5, 8#5, 3#16⟩) ∧
    decode 0x99490211#32 = .ok (.lwr ⟨10#5, 9#5, 0x211#16⟩) := by decide

theorem test_decode_stores :
    decode 0xA1280003#32 = .ok (.sb ⟨9#5, 8#5, 3#16⟩) ∧ decode 0xA5280002#32 = .ok (.sh ⟨9#5, 8#5, 2#16⟩) ∧
    decode 0xA9280001#32 = .ok (.swl ⟨9#5, 8#5, 1#16⟩) ∧ decode 0xAF200014#32 = .ok (.sw ⟨25#5, 0#5, 20#16⟩) ∧
    decode 0xB9280003#32 = .ok (.swr ⟨9#5, 8#5, 3#16⟩) := by decide

theorem test_decode_cop0 :
    decode 0x400B6000#32 = .ok (.mfc0 ⟨11#5, 12#5, 0#11⟩) ∧ decode 0x40881800#32 = .ok (.mtc0 ⟨8#5, 3#5, 0#11⟩) ∧
    decode 0x40486000#32 = .ok (.cfc0 ⟨8#5, 12#5, 0#11⟩) ∧ decode 0x40C86000#32 = .ok (.ctc0 ⟨8#5, 12#5, 0#11⟩) ∧
    decode 0x41000000#32 = .ok (.bc0 0#5 0#16) ∧ decode 0x42000010#32 = .ok (.rfe 0#15) ∧
    decode 0x42000001#32 = .ok (.cop0Co 1#25) := by decide

theorem test_decode_system_and_absent_coprocessors :
    decode 0x0000000C#32 = .ok (.syscall 0#20) ∧ decode 0x0000000D#32 = .ok (.brk 0#20) ∧
    decode 0x44080000#32 = .ok (.cop1 0x80000#26) ∧ decode 0x48080000#32 = .ok (.cop2 0x80000#26) ∧
    decode 0x4C080000#32 = .ok (.cop3 0x80000#26) ∧
    decode 0xC1280000#32 = .ok (.lwc0 ⟨9#5, 8#5, 0#16⟩) ∧ decode 0xC5280000#32 = .ok (.lwc1 ⟨9#5, 8#5, 0#16⟩) ∧
    decode 0xC9280000#32 = .ok (.lwc2 ⟨9#5, 8#5, 0#16⟩) ∧ decode 0xCD280000#32 = .ok (.lwc3 ⟨9#5, 8#5, 0#16⟩) ∧
    decode 0xE1280000#32 = .ok (.swc0 ⟨9#5, 8#5, 0#16⟩) ∧ decode 0xE5280000#32 = .ok (.swc1 ⟨9#5, 8#5, 0#16⟩) ∧
    decode 0xE9280000#32 = .ok (.swc2 ⟨9#5, 8#5, 0#16⟩) ∧
    decode 0xED280000#32 = .ok (.swc3 ⟨9#5, 8#5, 0#16⟩) := by decide

/-- A decoder answer is a rejection. -/
def rejects (w : Word) : Bool :=
  match decode w with
  | .ok _ => false
  | .error _ => true

-- 95_test_vectors.md 2.6
theorem test_decode_rejects_unassigned :
    [0x00000001#32, 0x00000005#32, 0x0000000E#32, 0x00000014#32, 0x0000002C#32, 0x0000003F#32, 0x04020000#32, 0x04120000#32,
      0x7C000000#32, 0x9C000000#32, 0xBC000000#32, 0xFC000000#32].all rejects = true := by decide

-- 30_encoding.md R100: under `r3000a` every selector decodes, by its bits 16 and 20:17
theorem test_decode_regimm_r3000a :
    decodeRegimm .r3000a 0x05020002#32 = .ok (.bltz 8#5 2#16) ∧ decodeRegimm .r3000a 0x05110002#32 = .ok (.bgezal 8#5 2#16) ∧
    decodeRegimm .r3000a 0x05030002#32 = .ok (.bgez 8#5 2#16) := by decide

theorem test_decodeTableWord : decodeTableWord 32 0x2509000A = some (.addiu ⟨8#5, 9#5, 10#16⟩) ∧
    decodeTableWord 32 0x7C000000 = none := by decide

theorem test_encode_is_the_word :
    encode (.addiu ⟨8#5, 9#5, 10#16⟩) = 0x2509000A#32 ∧ encode (.sra ⟨0#5, 9#5, 10#5, 31#5⟩) = 0x000957C3#32 ∧
    encode (.mtc0 ⟨8#5, 12#5, 0#11⟩) = 0x40886000#32 ∧ encode (.rfe 0#15) = 0x42000010#32 := by decide

/-! ## One step of each instruction: 95_test_vectors.md 2.1 to 2.6, from its start state -/

/-- The start state of a one-step vector: `pc` is 0x8000_1004, and the registers not named are 0. -/
def withRegs (rs : List (RegIdx × Word)) : State :=
  let b := rs.foldl (fun b r => Bank.write b r.1 r.2) State.reset.committed
  { State.reset with pc := 0x80001004#32, committed := b, output := b }

/-- Registers 8 (t0) and 9 (t1). -/
def regs (t0 t1 : Word) : State := withRegs [(8#5, t0), (9#5, t1)]

/-- A word of memory, at a physical address. -/
def withWord (s : State) (p : Nat) (w : Word) : State := { s with mem := s.mem.writeLE p 4 w }

/-- The state after the step that executes a word. -/
def after (w : Word) (s : State) : Option State :=
  match step { s with nextInstr := w } with
  | .next t => some t
  | .fault _ | .refused _ => none

/-- A register after the step that executes a word. -/
def reg (w : Word) (s : State) (d : RegIdx) : Option Word := (after w s).map (·.x d)

/-- `HI` and `LO` after the step. -/
def hiLo (w : Word) (s : State) : Option (Word × Word) := (after w s).map (fun t => (t.hi, t.lo))

/-- `pc` and register 31 after the step. -/
def pcRa (w : Word) (s : State) : Option (Word × Word) := (after w s).map (fun t => (t.pc, t.x 31#5))

/-- The load-delay slot after the step. -/
def staged (w : Word) (s : State) : Option (RegIdx × Word) := (after w s).bind (·.load)

/-- The fatal record after the step. -/
def fatal (w : Word) (s : State) : Option FatalRecord := (after w s).bind (·.halted)

theorem test_add_overflow : fatal 0x01095020#32 (regs 0x7FFFFFFF#32 1#32) =
    some ⟨.overflow 0x01095020#32, .execute, 0x01095020#32, 0x80001008#32⟩ := by decide
theorem test_add_fits : reg 0x01095020#32 (regs 0x7FFFFFFF#32 0x80000000#32) 10#5 = some 0xFFFFFFFF#32 := by decide
theorem test_addu_wraps : reg 0x01095021#32 (regs 0xFFFFFFFF#32 2#32) 10#5 = some 1#32 := by decide
theorem test_sub_overflow : (fatal 0x01095022#32 (regs 0#32 0x80000000#32)).map (·.reason) =
    some (.overflow 0x01095022#32) := by decide
theorem test_sub_fits : reg 0x01095022#32 (regs 0xFFFFFFFF#32 0x7FFFFFFF#32) 10#5 = some 0x80000000#32 := by decide
theorem test_subu_wraps : reg 0x01095023#32 (regs 0#32 1#32) 10#5 = some 0xFFFFFFFF#32 := by decide
theorem test_and : reg 0x01095024#32 (regs 0xF0F0F0F0#32 0xFF00FF00#32) 10#5 = some 0xF000F000#32 := by decide
theorem test_or : reg 0x01095025#32 (regs 0xF0F0F0F0#32 0xFF00FF00#32) 10#5 = some 0xFFF0FFF0#32 := by decide
theorem test_xor : reg 0x01095026#32 (regs 0xF0F0F0F0#32 0xFF00FF00#32) 10#5 = some 0x0FF00FF0#32 := by decide
theorem test_nor : reg 0x01095027#32 (regs 0xF0F0F0F0#32 0xFF00FF00#32) 10#5 = some 0x000F000F#32 := by decide
theorem test_slt_signed : reg 0x0109502A#32 (regs 0x80000000#32 0x7FFFFFFF#32) 10#5 = some 1#32 := by decide
theorem test_sltu_unsigned : reg 0x0109502B#32 (regs 0x80000000#32 0x7FFFFFFF#32) 10#5 = some 0#32 := by decide
theorem test_addi_overflow : (fatal 0x2109FFFF#32 (regs 0x80000000#32 0#32)).map (·.reason) =
    some (.overflow 0x2109FFFF#32) := by decide
theorem test_addi_largest : reg 0x21097FFF#32 (regs 0x7FFF8000#32 0#32) 9#5 = some 0x7FFFFFFF#32 := by decide
theorem test_addiu_extends_sign : reg 0x25098000#32 (regs 0#32 0#32) 9#5 = some 0xFFFF8000#32 := by decide
theorem test_slti : reg 0x29090000#32 (regs 0x80000000#32 0#32) 9#5 = some 1#32 := by decide
theorem test_sltiu_extends_sign : reg 0x2D09FFFF#32 (regs 0xFFFFFFFE#32 0#32) 9#5 = some 1#32 := by decide
theorem test_andi_extends_zero : reg 0x3109FFFF#32 (regs 0xFFFFFFFF#32 0#32) 9#5 = some 0x0000FFFF#32 := by decide
theorem test_ori_extends_zero : reg 0x35098000#32 (regs 0#32 0#32) 9#5 = some 0x00008000#32 := by decide
theorem test_xori_extends_zero : reg 0x3909FFFF#32 (regs 0xFFFF0000#32 0#32) 9#5 = some 0xFFFFFFFF#32 := by decide
theorem test_lui_clears_low : reg 0x3C098000#32 (regs 0#32 0x1234#32) 9#5 = some 0x80000000#32 := by decide
theorem test_lui_zero_discarded : reg 0x3C00FFFF#32 (regs 0#32 0#32) 0#5 = some 0#32 := by decide
theorem test_sll : reg 0x00084FC0#32 (regs 3#32 0#32) 9#5 = some 0x80000000#32 := by decide
theorem test_srl : reg 0x00084902#32 (regs 0x89ABCDEF#32 0#32) 9#5 = some 0x089ABCDE#32 := by decide
theorem test_sra : reg 0x00084903#32 (regs 0x89ABCDEF#32 0#32) 9#5 = some 0xF89ABCDE#32 := by decide
theorem test_sllv_low_five_bits : reg 0x01285004#32 (regs 1#32 33#32) 10#5 = some 2#32 := by decide
theorem test_srlv_low_five_bits : reg 0x01285006#32 (regs 0x80000000#32 32#32) 10#5 = some 0x80000000#32 := by decide
theorem test_srav : reg 0x01285007#32 (regs 0x80000000#32 63#32) 10#5 = some 0xFFFFFFFF#32 := by decide

theorem test_mult : hiLo 0x01090018#32 (regs 0x12345678#32 0x9ABCDEF0#32) = some (0xF8CC93D6#32, 0x242D2080#32) := by decide
theorem test_multu : hiLo 0x01090019#32 (regs 0x12345678#32 0x9ABCDEF0#32) = some (0x0B00EA4E#32, 0x242D2080#32) := by decide
theorem test_div_truncates : hiLo 0x0109001A#32 (regs 0xFFFFFFF9#32 2#32) = some (0xFFFFFFFF#32, 0xFFFFFFFD#32) := by decide
theorem test_div_special_rows :
    hiLo 0x0109001A#32 (regs 0xFFFFFFFB#32 0#32) = some (0xFFFFFFFB#32, 1#32) ∧
    hiLo 0x0109001A#32 (regs 0#32 0#32) = some (0#32, 0xFFFFFFFF#32) ∧
    hiLo 0x0109001A#32 (regs 0x80000000#32 0xFFFFFFFF#32) = some (0#32, 0x80000000#32) := by decide
theorem test_divu : hiLo 0x0109001B#32 (regs 0xFFFFFFF9#32 2#32) = some (1#32, 0x7FFFFFFC#32) := by decide
theorem test_divu_by_zero : hiLo 0x0109001B#32 (regs 5#32 0#32) = some (5#32, 0xFFFFFFFF#32) := by decide
theorem test_mfhi : reg 0x00005010#32 { regs 0#32 0#32 with hi := 0xCAFEF00D#32 } 10#5 = some 0xCAFEF00D#32 := by decide
theorem test_mflo : reg 0x00005012#32 { regs 0#32 0#32 with lo := 0x0BADBEEF#32 } 10#5 = some 0x0BADBEEF#32 := by decide
theorem test_mthi : hiLo 0x01000011#32 { regs 0x11112222#32 0#32 with lo := 5#32 } = some (0x11112222#32, 5#32) := by decide
theorem test_mtlo : hiLo 0x01000013#32 { regs 0x33334444#32 0#32 with hi := 6#32 } = some (6#32, 0x33334444#32) := by decide

/-- The memory image of 95_test_vectors.md 2.3: t0 is 0xAABB_CCDD, t1 is 0x8000_0100. -/
def image : State := withWord (withWord (regs 0xAABBCCDD#32 0x80000100#32) 0x100 0x44332211#32) 0x104 0x017FFF80#32

theorem test_lb_extends_sign : staged 0x81280004#32 image = some (8#5, 0xFFFFFF80#32) := by decide
theorem test_lbu_extends_zero : staged 0x91280004#32 image = some (8#5, 0x00000080#32) := by decide
theorem test_lh_extends_sign : staged 0x85280004#32 image = some (8#5, 0xFFFFFF80#32) := by decide
theorem test_lh_unaligned : (fatal 0x85280001#32 image).map (·.reason) =
    some (.unaligned 0x80000101#32 .half .load) := by decide
theorem test_lhu_extends_zero : staged 0x95280004#32 image = some (8#5, 0x0000FF80#32) := by decide
theorem test_lw : staged 0x8D280004#32 image = some (8#5, 0x017FFF80#32) ∧
    reg 0x8D280004#32 image 8#5 = some 0xAABBCCDD#32 := by decide
theorem test_lw_unmapped : (fatal 0x8D280000#32 (regs 0#32 0x80200000#32)).map (·.reason) =
    some (.unmapped 0x80200000#32 0x00200000#32 .word .load) := by decide
theorem test_lwl : staged 0x89280000#32 image = some (8#5, 0x11BBCCDD#32) ∧
    staged 0x89280001#32 image = some (8#5, 0x2211CCDD#32) ∧ staged 0x89280002#32 image = some (8#5, 0x332211DD#32) ∧
    staged 0x89280003#32 image = some (8#5, 0x44332211#32) := by decide
theorem test_lwr : staged 0x99280000#32 image = some (8#5, 0x44332211#32) ∧
    staged 0x99280001#32 image = some (8#5, 0xAA443322#32) ∧ staged 0x99280002#32 image = some (8#5, 0xAABB4433#32) ∧
    staged 0x99280003#32 image = some (8#5, 0xAABBCC44#32) := by decide
-- sequence S14: LWL merges into the value the resolve of the same step has put into the output bank
theorem test_lwl_merges_into_output_bank :
    staged 0x89280004#32 { image with load := some (8#5, 0x00443322#32) } = some (8#5, 0x80443322#32) := by decide

/-- The word at physical 0x100 after the step. -/
def stored (w : Word) (s : State) : Option Word := (after w s).map (·.wordAt 0x100)

theorem test_sb : stored 0xA1280003#32 image = some 0xDD332211#32 := by decide
theorem test_sh : stored 0xA5280002#32 image = some 0xCCDD2211#32 := by decide
theorem test_sw : stored 0xAD280000#32 image = some 0xAABBCCDD#32 := by decide
theorem test_sw_bios : (fatal 0xAD280000#32 (regs 0#32 0xBFC00000#32)).map (·.reason) =
    some (.biosStore 0xBFC00000#32 .word) := by decide
theorem test_swl : stored 0xA9280000#32 image = some 0x443322AA#32 ∧ stored 0xA9280001#32 image = some 0x4433AABB#32 ∧
    stored 0xA9280002#32 image = some 0x44AABBCC#32 ∧ stored 0xA9280003#32 image = some 0xAABBCCDD#32 := by decide
theorem test_swr : stored 0xB9280000#32 image = some 0xAABBCCDD#32 ∧ stored 0xB9280001#32 image = some 0xBBCCDD11#32 ∧
    stored 0xB9280002#32 image = some 0xCCDD2211#32 ∧ stored 0xB9280003#32 image = some 0xDD332211#32 := by decide
theorem test_isolation_suppresses_load_first :
    (after 0x8D280000#32 { regs 7#32 0x80400000#32 with sr := 0x00010000#32 }).map (fun t => (t.load, t.halted, t.x 8#5)) =
      some (none, none, 7#32) := by decide
theorem test_isolation_suppresses_store_first :
    (after 0xAD280000#32 { regs 7#32 0xBFC00000#32 with sr := 0x00010000#32 }).map (fun t => (t.mem, t.halted)) =
      some ([], none) := by decide

theorem test_beq : pcRa 0x11090003#32 (regs 5#32 5#32) = some (0x80001010#32, 0#32) ∧
    pcRa 0x11090003#32 (regs 5#32 6#32) = some (0x80001008#32, 0#32) := by decide
theorem test_beq_backwards : pcRa 0x10008000#32 (regs 0#32 0#32) = some (0x7FFE1004#32, 0#32) := by decide
theorem test_bne : pcRa 0x15090003#32 (regs 5#32 6#32) = some (0x80001010#32, 0#32) ∧
    pcRa 0x15090003#32 (regs 5#32 5#32) = some (0x80001008#32, 0#32) := by decide

/-- Whether a one-register branch at 0x8000_1000 with the offset +2 is taken, for each t0 of 95_test_vectors.md 2.4. -/
def takenFor (w : Word) : List Bool :=
  [0#32, 1#32, 0xFFFFFFFF#32, 0x80000000#32, 0x7FFFFFFF#32].map
    (fun t0 => (after w (regs t0 0#32)).map (·.pc) == some 0x8000100C#32)

theorem test_blez : takenFor 0x19000002#32 = [true, false, true, true, false] := by decide
theorem test_bgtz : takenFor 0x1D000002#32 = [false, true, false, false, true] := by decide
theorem test_bltz : takenFor 0x05000002#32 = [false, false, true, true, false] := by decide
theorem test_bgez : takenFor 0x05010002#32 = [true, true, false, false, true] := by decide
theorem test_bltzal : takenFor 0x05100002#32 = [false, false, true, true, false] := by decide
theorem test_bltzal_reads_old_link :
    pcRa 0x07F00002#32 (withRegs [(31#5, 0xFFFFFFFF#32)]) = some (0x8000100C#32, 0x80001008#32) := by decide
theorem test_bgezal : takenFor 0x05110002#32 = [true, true, false, false, true] := by decide
theorem test_bgezal_links_not_taken :
    pcRa 0x07F10002#32 (withRegs [(31#5, 0xFFFFFFFF#32)]) = some (0x80001008#32, 0x80001008#32) := by decide
theorem test_j : pcRa 0x08004000#32 (regs 0#32 0#32) = some (0x80010000#32, 0#32) := by decide
theorem test_jal : pcRa 0x0C004000#32 (regs 0#32 0#32) = some (0x80010000#32, 0x80001008#32) := by decide
theorem test_jal_region : pcRa 0x0C000000#32 { regs 0#32 0#32 with pc := 0xBFC00004#32 } =
    some (0xB0000000#32, 0xBFC00008#32) := by decide
theorem test_jr : pcRa 0x01000008#32 (regs 0x80001002#32 0#32) = some (0x80001002#32, 0#32) := by decide
theorem test_jalr_same_register : (after 0x01004009#32 (regs 0x80001234#32 0#32)).map (fun t => (t.pc, t.x 8#5)) =
    some (0x80001234#32, 0x80001008#32) := by decide
theorem test_jalr_zero : (after 0x01000009#32 (regs 0x80001234#32 0#32)).map (fun t => (t.pc, t.x 0#5)) =
    some (0x80001234#32, 0#32) := by decide

theorem test_mtc0_stores_all_bits : (after 0x40886000#32 (regs 0xFFFFFFFF#32 0#32)).map (·.sr) =
    some 0xFFFFFFFF#32 := by decide
theorem test_mtc0_others :
    (fatal 0x40881800#32 (regs 1#32 0#32)).map (·.reason) = some (.cop0Write 3#5 1#32) ∧
    (after 0x40801800#32 (regs 1#32 0#32)).map (fun t => (t.sr, t.halted)) = some (0#32, none) := by decide
theorem test_mfc0 : staged 0x40086000#32 { regs 7#32 0#32 with sr := 0x00010003#32 } =
    some (8#5, 0x00010003#32) := by decide
theorem test_mfc0_others : (fatal 0x40086800#32 (regs 1#32 0#32)).map (·.reason) = some (.cop0Read 13#5) := by decide

/-- The word stops the machine with `Unimplemented`, also under isolation. -/
def unimplemented (w : Word) : Bool :=
  fatal w (regs 1#32 2#32) == some ⟨.unimplemented w, .execute, w, 0x80001008#32⟩ &&
  fatal w { regs 1#32 2#32 with sr := 0x00010000#32 } == some ⟨.unimplemented w, .execute, w, 0x80001008#32⟩

theorem test_system_words_stop :
    [0x0000000C#32, 0x0000000D#32, 0x42000010#32, 0x40486000#32, 0x40C86000#32, 0x41000000#32].all unimplemented = true := by
  decide
theorem test_coprocessor_words_stop :
    [0x44080000#32, 0x48080000#32, 0x4C080000#32, 0xC1280000#32, 0xC9280000#32, 0xE1280000#32,
      0xE9280000#32].all unimplemented = true := by decide
theorem test_unassigned_words_stop :
    [0x00000001#32, 0x0000003F#32, 0x04020000#32, 0x7C000000#32, 0xFC000000#32].all unimplemented = true := by decide

/-! ## The step, the Interconnect and reset: 95_test_vectors.md 2.7 and 2.8 -/

-- sequence S8: the jump's delay slot never executes
theorem test_fetch_unaligned : fatal 0x24090001#32 { regs 0#32 0#32 with pc := 0x80001002#32 } =
    some ⟨.unaligned 0x80001002#32 .word .load, .fetch, 0x24090001#32, 0x80001002#32⟩ := by decide
-- sequence S8b
theorem test_fetch_unmapped : fatal 0x24090001#32 { regs 0#32 0#32 with pc := 0x80400000#32 } =
    some ⟨.unmapped 0x80400000#32 0x00400000#32 .word .load, .fetch, 0x24090001#32, 0x80400000#32⟩ := by decide
-- sequence S3: a direct write in a load's delay slot replaces the loaded value
theorem test_direct_write_beats_pending_load :
    reg 0x24080009#32 { regs 0xAAAA#32 0#32 with load := some (8#5, 0x44332211#32) } 8#5 = some 9#32 := by decide
-- sequence S1: the instruction in the load's delay slot reads the old value
theorem test_load_delay_slot_reads_old :
    (after 0x01004821#32 { regs 0xAAAA#32 0#32 with load := some (8#5, 0x44332211#32) }).map
      (fun t => (t.x 8#5, t.x 9#5, t.load)) = some (0x44332211#32, 0xAAAA#32, none) := by decide
theorem test_pending_load_to_zero_discarded :
    reg 0x00000000#32 { regs 0#32 0#32 with load := some (0#5, 0x44332211#32) } 0#5 = some 0#32 := by decide
-- sequence S11: the store to the next word is not seen by that word's execution
theorem test_store_over_next_word :
    (after 0xAF200004#32 (withWord (withRegs [(25#5, 0x80001000#32)]) 0x1004 0x24080001#32)).map
      (fun t => (t.nextInstr, t.wordAt 0x1004)) = some (0x24080001#32, 0#32) := by decide

/-- The device and the offset an address is routed to. -/
def routed (a : Word) : Option (Device × Nat) := (classify (physicalOf a)).map (fun r => (r.dev, physicalOf a - r.base))

theorem test_routing :
    routed 0xA0000100#32 = some (.ram, 0x100) ∧ routed 0x801FFFFC#32 = some (.ram, 0x1FFFFC) ∧
    routed 0x80200000#32 = none ∧ routed 0x1F8003FC#32 = some (.scratch, 0x3FC) ∧ routed 0xBF801810#32 = some (.gpu, 0) ∧
    routed 0x9FC7FFFC#32 = some (.bios, 0x7FFFC) ∧ routed 0xBFC80000#32 = none ∧ routed 0xC0000000#32 = none ∧
    routed 0xFFFE0130#32 = some (.cachectl, 0) ∧ routed 0xFFFE0134#32 = none ∧ routed 0x1FFE0130#32 = none ∧
    routed 0x1F802041#32 = some (.exp2, 0x41) ∧ routed 0x1F802042#32 = none := by decide

/-- The reason a load reports. -/
def loadFails (a : Word) (n : Width) : Option FatalReason :=
  match memRead State.reset a n with
  | .ok _ _ => none
  | .fatal r => some r

theorem test_check_order :
    loadFails 0x80400002#32 .word = some (.unaligned 0x80400002#32 .word .load) ∧
    loadFails 0x80200001#32 .half = some (.unaligned 0x80200001#32 .half .load) ∧
    loadFails 0x80200001#32 .byte = some (.unmapped 0x80200001#32 0x00200001#32 .byte .load) := by decide

-- 70_reset_and_hazards.md R312
theorem test_first_step_from_reset :
    (after 0x00000000#32 State.reset).map (fun t => (t.pc, t.nextInstr, t.halted)) =
      some (0xBFC00004#32, 0x00000000#32, none) := by decide

theorem test_withFetchWord_runs_the_word :
    (match step (State.reset.withFetchWord 32 0x3C081F80) with
      | .next t => some (t.x 8#5)
      | .fault _ | .refused _ => none) = some 0x1F800000#32 := by decide

/-- The codes of R281's table. -/
theorem test_fatal_codes :
    [FatalReason.unimplemented 0xC#32, .cop0Write 13#5 1#32, .cop0Read 13#5, .unmapped 0x80200000#32 0x00200000#32 .word .load,
      .unaligned 1#32 .half .store, .overflow 0x01095020#32, .widthMismatch .gpu 0 .byte .load,
      .biosStore 0xBFC00000#32 .word].map FatalReason.code = [1, 2, 3, 4, 5, 6, 7, 8] := by decide

theorem test_memory_canonical :
    Memory.write [(4, 1#8)] 4 0#8 = [] ∧ Memory.write [(4, 1#8)] 2 7#8 = [(2, 7#8), (4, 1#8)] ∧
    Memory.wf [(4, 1#8), (4, 2#8)] = false ∧ Memory.wf [(4, 0#8)] = false := by decide

/-! ## Witnesses: a state and operands that meet the hypotheses of each obligation -/

theorem witness_WrappingArithmeticResults :
    (opOf 0x01095021#32 = 0x00#6 ∧ functOf 0x01095021#32 = 0x21#6) ∧ (opOf 0x01095023#32 = 0x00#6 ∧
      functOf 0x01095023#32 = 0x23#6) ∧ opOf 0x2509000A#32 = 0x09#6 := by decide

/-- Both outcomes of each check, at the ends of the range. -/
theorem witness_CheckedArithmeticResults :
    ((0x7FFFFFFF#32).toInt + (1#32).toInt = 2 ^ 31 ∧ (0x7FFFFFFF#32).toInt + (0#32).toInt = 2 ^ 31 - 1) ∧
    ((0x80000000#32).toInt - (1#32).toInt = -2 ^ 31 - 1 ∧ (0x80000000#32).toInt - (0#32).toInt = -2 ^ 31) ∧
    ((0x80000000#32).toInt + (0xFFFF#16).toInt = -2 ^ 31 - 1 ∧ (0x7FFF8000#32).toInt + (0x7FFF#16).toInt = 2 ^ 31 - 1) ∧
    (opOf 0x01095020#32 = 0x00#6 ∧ functOf 0x01095020#32 = 0x20#6) ∧
    (opOf 0x01095022#32 = 0x00#6 ∧ functOf 0x01095022#32 = 0x22#6) ∧ opOf 0x2109FFFF#32 = 0x08#6 := by decide

theorem witness_BitwiseLogicResults :
    [0x01095024#32, 0x01095025#32, 0x01095026#32, 0x01095027#32].map (fun w => (opOf w, functOf w)) =
      [(0#6, 0x24#6), (0#6, 0x25#6), (0#6, 0x26#6), (0#6, 0x27#6)] ∧
    [0x3109FFFF#32, 0x35098000#32, 0x3909FFFF#32, 0x3C09FFFF#32].map opOf = [0x0C#6, 0x0D#6, 0x0E#6, 0x0F#6] := by decide

theorem witness_CompareResults :
    [0x0109502A#32, 0x0109502B#32].map (fun w => (opOf w, functOf w)) = [(0#6, 0x2A#6), (0#6, 0x2B#6)] ∧
    [0x2909FFFF#32, 0x2D09FFFF#32].map opOf = [0x0A#6, 0x0B#6] := by decide

theorem witness_ShiftResults :
    [0x00084FC0#32, 0x00084FC2#32, 0x00084FC3#32, 0x01285004#32, 0x01285006#32, 0x01285007#32].map
      (fun w => (opOf w, functOf w)) =
      [(0#6, 0x00#6), (0#6, 0x02#6), (0#6, 0x03#6), (0#6, 0x04#6), (0#6, 0x06#6), (0#6, 0x07#6)] := by decide

theorem witness_MultiplyResults :
    [0x01090018#32, 0x01090019#32].map (fun w => (opOf w, functOf w)) = [(0#6, 0x18#6), (0#6, 0x19#6)] := by decide

/-- The three rows of DIV and the two of DIVU. -/
theorem witness_DivideResults :
    [0x0109001A#32, 0x0109001B#32].map (fun w => (opOf w, functOf w)) = [(0#6, 0x1A#6), (0#6, 0x1B#6)] ∧
    (regs 5#32 0#32).x 9#5 = 0#32 ∧
    ((regs 0x80000000#32 0xFFFFFFFF#32).x 8#5 = 0x80000000#32 ∧ (regs 0x80000000#32 0xFFFFFFFF#32).x 9#5 = 0xFFFFFFFF#32) ∧
    ((regs 0x80000000#32 2#32).x 9#5 ≠ 0#32 ∧ (regs 0x80000000#32 2#32).x 9#5 ≠ 0xFFFFFFFF#32) := by decide

theorem witness_DivisionIdentity :
    (∃ t, exec (.div ⟨8#5, 9#5, 0#5, 0#5⟩) (regs 0xFFFFFFF9#32 2#32) = .next t) ∧
    (regs 0xFFFFFFF9#32 2#32).x 9#5 ≠ 0#32 ∧
    ¬((regs 0xFFFFFFF9#32 2#32).x 8#5 = 0x80000000#32 ∧ (regs 0xFFFFFFF9#32 2#32).x 9#5 = 0xFFFFFFFF#32) :=
  ⟨⟨_, rfl⟩, by decide⟩

theorem witness_HiLoMoveResults :
    [0x00005010#32, 0x01000011#32, 0x00005012#32, 0x01000013#32].map (fun w => (opOf w, functOf w)) =
      [(0#6, 0x10#6), (0#6, 0x11#6), (0#6, 0x12#6), (0#6, 0x13#6)] := by decide

/-- An access by `offset(t1)` with this base is not isolated and lies in RAM, SCRATCH or BIOS. -/
def reachesMemory (base : Word) (imm : BitVec 16) : Bool :=
  !(regs 0#32 base).isolated && isMemoryAddress (physicalOf (effAddr ⟨9#5, 8#5, imm⟩ (regs 0#32 base)))

/-- The last byte, half-word and word of RAM, SCRATCH and BIOS. -/
theorem witness_AlignedLoadResults :
    [0x801FFFFF#32, 0x1F8003FF#32, 0xBFC7FFFF#32].all (reachesMemory · 0#16) = true ∧
    [0x801FFFFE#32, 0x1F8003FE#32, 0xBFC7FFFE#32].all (fun a => reachesMemory a 0#16 && a.toNat % 2 == 0) = true ∧
    [0x801FFFFC#32, 0x1F8003FC#32, 0xBFC7FFFC#32].all (fun a => reachesMemory a 0#16 && a.toNat % 4 == 0) = true := by decide

/-- Each byte position of the last word of RAM. -/
theorem witness_UnalignedLoadResults :
    (regs 0#32 0x801FFFFC#32).isolated = false ∧
    [(0x801FFFFC#32, 0), (0x801FFFFD#32, 1), (0x801FFFFE#32, 2), (0x801FFFFF#32, 3)].all
      (fun c => isMemoryAddress (physicalOf (wordAddr (effAddr ⟨9#5, 8#5, 0#16⟩ (regs 0#32 c.1)))) &&
        (effAddr ⟨9#5, 8#5, 0#16⟩ (regs 0#32 c.1)).toNat % 4 == c.2) = true := by decide

/-- The pair in each window and segment: the last four bytes of RAM, SCRATCH and BIOS, and an address of each alignment. -/
theorem witness_LwlLwrPairLoadsUnalignedWord :
    [0x001FFFFC#32, 0x801FFFF9#32, 0xA0000002#32, 0x1F8003FC#32, 0x9F800001#32, 0xBFC7FFFC#32, 0x1FC00003#32].all (fun a =>
      !(regs 0#32 a).isolated &&
      effAddr ⟨9#5, 8#5, 3#16⟩ (regs 0#32 a) == effAddr ⟨9#5, 8#5, 0#16⟩ (regs 0#32 a) + 3#32 &&
      reachesMemory a 0#16 && reachesMemory a 3#16) = true ∧ (8#5 : RegIdx) ≠ 0#5 := by decide

/-- A store by `0(t1)` with this base is not isolated and goes to RAM or SCRATCH. -/
def reachesStorage (base : Word) : Bool :=
  !(regs 0#32 base).isolated && Memory.wf (regs 0#32 base).mem &&
    match classify (physicalOf (effAddr ⟨9#5, 8#5, 0#16⟩ (regs 0#32 base))) with
    | some r => kindOf r.dev == .storage
    | none => false

theorem witness_AlignedStoreResults :
    [0x801FFFFF#32, 0x1F8003FF#32].all reachesStorage = true ∧
    [0x801FFFFE#32, 0x1F8003FE#32].all (fun a => reachesStorage a && a.toNat % 2 == 0) = true ∧
    [0x801FFFFC#32, 0x1F8003FC#32].all (fun a => reachesStorage a && a.toNat % 4 == 0) = true := by decide

theorem witness_UnalignedStoreResults :
    [(0x801FFFFC#32, 0), (0x801FFFFD#32, 1), (0x801FFFFE#32, 2), (0x801FFFFF#32, 3)].all
      (fun c => reachesStorage (wordAddr c.1) && c.1.toNat % 4 == c.2 &&
        effAddr ⟨9#5, 8#5, 0#16⟩ (regs 0#32 c.1) == c.1) = true := by decide

/-- The same of RAM and SCRATCH. -/
theorem witness_SwlSwrPairStoresUnalignedWord :
    [0x001FFFFC#32, 0x801FFFF9#32, 0xA0000002#32, 0x1F8003FC#32, 0x9F800001#32].all (fun a =>
      effAddr ⟨9#5, 8#5, 3#16⟩ (regs 0#32 a) == effAddr ⟨9#5, 8#5, 0#16⟩ (regs 0#32 a) + 3#32 &&
      reachesStorage a && reachesStorage (a + 3#32)) = true := by decide

theorem witness_MisalignedAccessHalts :
    (regs 0#32 0x80000101#32).isolated = false ∧
    (effAddr ⟨9#5, 8#5, 0#16⟩ (regs 0#32 0x80000101#32)).toNat % 2 ≠ 0 ∧
    (effAddr ⟨9#5, 8#5, 0#16⟩ (regs 0#32 0x80000102#32)).toNat % 4 ≠ 0 := by decide

/-- The first addresses after RAM, SCRATCH and CACHECTL. -/
theorem witness_UnmappedAccessHalts :
    (regs 0#32 0x80200000#32).isolated = false ∧
    [0x80200000#32, 0x1F800400#32, 0xFFFE0134#32].all (fun a =>
      classify (physicalOf (effAddr ⟨9#5, 8#5, 0#16⟩ (regs 0#32 a))) == none && a.toNat % 4 == 0 &&
      classify (physicalOf (wordAddr (effAddr ⟨9#5, 8#5, 3#16⟩ (regs 0#32 a)))) == none) = true := by decide

theorem witness_BiosStoreHalts :
    (regs 0#32 0xBFC00000#32).isolated = false ∧
    [0xBFC00000#32, 0x9FC7FFFC#32].all (fun a =>
      isBiosAddress (physicalOf (effAddr ⟨9#5, 8#5, 0#16⟩ (regs 0#32 a))) && a.toNat % 4 == 0 &&
      isBiosAddress (physicalOf (wordAddr (effAddr ⟨9#5, 8#5, 3#16⟩ (regs 0#32 a))))) = true := by decide

/-- The first word of the GPU window, and the last byte of EXP2 with the word that holds it. -/
theorem witness_DeviceLoadResults :
    (regs 0#32 0x1F801810#32).isolated = false ∧ kindOf .gpu = .external ∧ kindOf .exp2 = .external ∧
    classify (physicalOf (effAddr ⟨9#5, 8#5, 0#16⟩ (regs 0#32 0x1F801810#32))) = some ⟨.gpu, 0x1F801810, 0x8⟩ ∧
    (effAddr ⟨9#5, 8#5, 0#16⟩ (regs 0#32 0x1F801810#32)).toNat % 4 = 0 ∧
    classify (physicalOf (effAddr ⟨9#5, 8#5, 0#16⟩ (regs 0#32 0x1F802041#32))) = some ⟨.exp2, 0x1F802000, 0x42⟩ ∧
    classify (physicalOf (wordAddr (effAddr ⟨9#5, 8#5, 0#16⟩ (regs 0#32 0x1F802041#32)))) =
      some ⟨.exp2, 0x1F802000, 0x42⟩ := by decide

theorem witness_DeviceStoreResults :
    (regs 0#32 0xFFFE0130#32).isolated = false ∧ kindOf .cachectl = .external ∧
    classify (physicalOf (effAddr ⟨9#5, 8#5, 0#16⟩ (regs 0#32 0xFFFE0130#32))) = some ⟨.cachectl, 0xFFFE0130, 0x4⟩ ∧
    (effAddr ⟨9#5, 8#5, 0#16⟩ (regs 0#32 0xFFFE0130#32)).toNat % 4 = 0 ∧
    classify (physicalOf (wordAddr (effAddr ⟨9#5, 8#5, 3#16⟩ (regs 0#32 0xFFFE0130#32)))) =
      some ⟨.cachectl, 0xFFFE0130, 0x4⟩ := by decide

theorem witness_IsolatedAccessesDoNothing : (0x00010000#32).getLsbD 16 = true := by decide

/-- The instruction at 0x8000_1000 of 95_test_vectors.md 2.4, for each outcome of each condition. -/
theorem witness_ConditionalBranchResults :
    { regs 5#32 5#32 with pc := 0x80001008#32 }.pc = 0x80001000#32 + 8#32 ∧
    (regs 5#32 5#32).x 8#5 = (regs 5#32 5#32).x 9#5 ∧ (regs 5#32 6#32).x 8#5 ≠ (regs 5#32 6#32).x 9#5 ∧
    (0#32).toInt ≤ 0 ∧ (0#32).toInt ≥ 0 ∧ (0x80000000#32).toInt < 0 ∧ (1#32).toInt > 0 := by decide

theorem witness_LinkingBranchResults :
    { regs 5#32 5#32 with pc := 0x80001008#32 }.pc = 0x80001000#32 + 8#32 ∧
    [0x05100002#32, 0x05110002#32].map (fun w => (opOf w, rtOf w)) = [(1#6, 16#5), (1#6, 17#5)] := by decide

theorem witness_JumpResults :
    { regs 5#32 5#32 with pc := 0xBFC00008#32 }.pc = 0xBFC00000#32 + 8#32 ∧
    [0x08004000#32, 0x0C004000#32].map opOf = [2#6, 3#6] ∧
    [0x01000008#32, 0x0100F809#32].map (fun w => (opOf w, functOf w)) = [(0#6, 8#6), (0#6, 9#6)] := by decide

theorem witness_StatusMoveResults :
    [0x40886000#32, 0x40086000#32].map (fun w => (opOf w, copOf w)) = [(0x10#6, 4#5), (0x10#6, 0#5)] ∧
    (CopType.mk 8#5 12#5 0#11).rd = 12#5 ∧ (CopType.mk 8#5 13#5 0#11).rd ≠ 12#5 ∧ (regs 0#32 0#32).x 8#5 = 0#32 ∧
    (regs 1#32 0#32).x 8#5 ≠ 0#32 := by decide

theorem witness_FatalFormsHalt :
    [Instr.syscall 0#20, .brk 0#20, .cfc0 ⟨8#5, 12#5, 0#11⟩, .ctc0 ⟨8#5, 12#5, 0#11⟩, .bc0 0#5 0#16, .rfe 0#15, .cop0Co 1#25,
      .cop1 0#26, .cop2 0#26, .cop3 0#26, .lwc0 ⟨9#5, 8#5, 0#16⟩, .lwc1 ⟨9#5, 8#5, 0#16⟩, .lwc2 ⟨9#5, 8#5, 0#16⟩,
      .lwc3 ⟨9#5, 8#5, 0#16⟩, .swc0 ⟨9#5, 8#5, 0#16⟩, .swc1 ⟨9#5, 8#5, 0#16⟩, .swc2 ⟨9#5, 8#5, 0#16⟩,
      .swc3 ⟨9#5, 8#5, 0#16⟩].all isFatalForm = true := by decide

/-- A COP0 word of each kind, and a word of each other clause. -/
theorem witness_FatalWordsHalt :
    [0x40486000#32, 0x43FFFFFF#32, 0x40200000#32].all (fun w => opOf w == 0x10#6 && copOf w != 0#5 && copOf w != 4#5) = true ∧
    [0x44080000#32, 0x48080000#32, 0x4C080000#32, 0xC1280000#32, 0xC5280000#32, 0xC9280000#32, 0xCD280000#32, 0xE1280000#32,
      0xE5280000#32, 0xE9280000#32, 0xED280000#32].map opOf =
      [0x11#6, 0x12#6, 0x13#6, 0x30#6, 0x31#6, 0x32#6, 0x33#6, 0x38#6, 0x39#6, 0x3A#6, 0x3B#6] ∧
    [0x0000000C#32, 0x03FFFFCD#32].map (fun w => (opOf w, functOf w)) = [(0#6, 0x0C#6), (0#6, 0x0D#6)] := by decide

/-- The ends of each range of unassigned codes. -/
theorem witness_UnassignedWordsHalt :
    [0x50000000#32, 0x7C000000#32, 0x9C000000#32, 0xB0000000#32, 0xB4000000#32, 0xBC000000#32, 0xD0000000#32, 0xDC000000#32,
      0xF0000000#32, 0xFC000000#32].map (fun w => (opOf w).toNat) =
      [0x14, 0x1F, 0x27, 0x2C, 0x2D, 0x2F, 0x34, 0x37, 0x3C, 0x3F] ∧
    [0x00000001#32, 0x0000002C#32, 0x0000003F#32].map (fun w => (opOf w, (functOf w).toNat)) = [(0#6, 1), (0#6, 44), (0#6, 63)] ∧
    [0x04020000#32, 0x041F0000#32].map (fun w => (opOf w, (rtOf w).toNat)) = [(1#6, 2), (1#6, 31)] := by decide

theorem witness_DecodeOfEncode : (Instr.cop0Co 1#25).WellFormed ∧ (Instr.jalr ⟨8#5, 31#5, 9#5, 7#5⟩).WellFormed := by decide

theorem witness_EncodeOfDecode : decode 0x03FFFFC9#32 = .ok (.jalr ⟨31#5, 31#5, 31#5, 31#5⟩) := by decide

/-- A step that goes on, with a pending load, and a step that stops in the execute phase. -/
theorem witness_StepRunsTheDecodedInstruction :
    (∃ s t v fetched i, s.halted = none ∧ s.load ≠ none ∧ memRead s s.pc .word = .ok fetched t ∧
      decode s.nextInstr = .ok i ∧
      exec i { t with
        nextInstr := fetched
        pc := s.pc + 4#32
        output := match s.load with
          | some (k, w) => Bank.write s.output k w
          | none => s.output
        load := none } = .next v ∧ v.halted = none) ∧
    (∃ s t v fetched i r, s.halted = none ∧ memRead s s.pc .word = .ok fetched t ∧ decode s.nextInstr = .ok i ∧
      exec i { t with
        nextInstr := fetched
        pc := s.pc + 4#32
        output := match s.load with
          | some (k, w) => Bank.write s.output k w
          | none => s.output
        load := none } = .next v ∧ v.halted = some r) :=
  ⟨⟨{ regs 1#32 2#32 with nextInstr := 0x01095021#32, load := some (8#5, 7#32) }, _, _, _, _,
      rfl, by decide, rfl, rfl, rfl, rfl⟩,
    ⟨{ regs 1#32 2#32 with nextInstr := 0x0000000C#32 }, _, _, _, _, _, rfl, rfl, rfl, rfl, rfl⟩⟩

/-- A fetch at the end of RAM, and a `pc` at the end of the window of EXP1. -/
theorem witness_LatchHoldsTheWordFetchedBeforeExecution :
    (∃ s s', isMemoryAddress (physicalOf s.pc) = true ∧ step s = .next s' ∧ s'.running) ∧
    let s := { regs 1#32 2#32 with pc := 0x1F07FFFC#32 }
    s.running ∧ s.pc.toNat % 4 = 0 ∧ classify (physicalOf s.pc) = some ⟨.exp1, 0x1F000000, 0x00080000⟩ ∧
    kindOf .exp1 = .external :=
  ⟨⟨{ regs 1#32 2#32 with pc := 0x001FFFFC#32 }, _, by decide, rfl, rfl⟩, by decide⟩

/-- Unaligned, unmapped, and in the window of CACHECTL. -/
theorem witness_FetchFatalChangesNothing :
    (regs 1#32 2#32).running ∧
    (∃ r, memRead { regs 1#32 2#32 with pc := 0x80001002#32 } 0x80001002#32 .word = .fatal r) ∧
    (0x80001002#32).toNat % 4 ≠ 0 ∧ ((0x80200000#32).toNat % 4 = 0 ∧ classify (physicalOf 0x80200000#32) = none) ∧
    (0xFFFE0130#32).toNat % 4 = 0 ∧ classify (physicalOf 0xFFFE0130#32) = some ⟨.cachectl, 0xFFFE0130, 0x4⟩ ∧
    kindOf .cachectl = .external :=
  ⟨rfl, ⟨_, rfl⟩, by decide⟩

/-- A step that stops in the fetch and a step that stops in the execute phase. -/
theorem witness_FatalStepKeepsMemory :
    (∃ s s', step s = .next s' ∧ ¬s'.running) ∧ ∃ s s', step s = .next s' ∧ ¬s'.running ∧ s'.mem ≠ [] :=
  ⟨⟨{ regs 1#32 2#32 with pc := 0x80200000#32 }, _, rfl, by decide⟩,
    ⟨{ image with nextInstr := 0xAD280002#32 }, _, rfl, by decide, by decide⟩⟩

theorem witness_StepsExactlyWhileRunning :
    (regs 1#32 2#32).running ∧
    { regs 1#32 2#32 with halted := some ⟨.unimplemented 0xC#32, .execute, 0xC#32, 0#32⟩ }.halted =
      some ⟨.unimplemented 0xC#32, .execute, 0xC#32, 0#32⟩ := by decide

/-- A running state with registers, a pending load and memory that meets the invariant. -/
theorem image_inv : State.Inv image :=
  ⟨by decide, by decide, fun _ => rfl, by decide, by decide⟩

theorem witness_StepKeepsInvariant : ∃ s s', s.Inv ∧ step s = .next s' :=
  ⟨image, _, image_inv, rfl⟩

/-- A RAM word and the BIOS word of reset as launch inputs. -/
theorem witness_PowerOnState :
    Memory.wf [(0, 0x78#8), (0x1FC00000, 0x05#8)] = true ∧
    (∀ c ∈ ([(0, 0x78#8), (0x1FC00000, 0x05#8)] : Memory), isMemoryAddress c.1 = true) := by decide

theorem witness_RangesAreDisjoint :
    (⟨.bios, 0x1FC00000, 0x00080000⟩ : Range) ∈ rangeTable ∧
    (⟨.bios, 0x1FC00000, 0x00080000⟩ : Range).holds 0x1FC7FFFF = true := by decide

theorem witness_SegmentMirrorsAgree :
    (0x001FFFFC#32).toNat < 0x20000000 ∧ isMemoryAddress (0x001FFFFC#32).toNat = true ∧
    aligned 0x001FFFFC#32 .word = true ∧ (0x1FFFFFFF#32).toNat < 0x20000000 := by decide

theorem witness_StoreThenLoadGivesTheWord : [0x801FFFFC#32, 0x1F8003FC#32].all
    (fun a => reachesStorage a && (effAddr ⟨9#5, 8#5, 0#16⟩ (regs 0#32 a)).toNat % 4 == 0) = true := by decide

theorem witness_MixedWidthsAreLittleEndian :
    Memory.wf image.mem = true ∧ (0x801FFFFC#32).toNat % 4 = 0 ∧
    classify (physicalOf 0x801FFFFC#32) = some ⟨.ram, 0x00000000, 0x00200000⟩ := by decide

theorem witness_BiosNeverChanges :
    ∃ s s', Memory.wf s.mem = true ∧ step s = .next s' ∧ s'.mem ≠ s.mem ∧ isBiosAddress 0x1FC7FFFF = true :=
  ⟨{ image with nextInstr := 0xAD280000#32 }, _, by decide, rfl, by decide, by decide⟩

theorem witness_MemoryChangesOnlyByUnisolatedStores : ∃ s s', step s = .next s' ∧ s'.mem ≠ s.mem :=
  ⟨{ image with nextInstr := 0xB9280001#32 }, _, rfl, by decide⟩

theorem witness_StatusChangesOnlyByMtc0 : ∃ s s', step s = .next s' ∧ s'.running ∧ s'.sr ≠ s.sr :=
  ⟨{ regs 1#32 2#32 with nextInstr := 0x40886000#32 }, _, rfl, rfl, by decide⟩

theorem witness_HiLoChangeOnlyByTheirWriters :
    ∃ s s', step s = .next s' ∧ s'.running ∧ (s'.hi ≠ s.hi ∨ s'.lo ≠ s.lo) :=
  ⟨{ regs 1#32 2#32 with nextInstr := 0x01090018#32 }, _, rfl, rfl, by decide⟩

/-- A register changed by a pending load, and one changed by its instruction. -/
theorem witness_RegistersChangeOnlyByTheirWriters :
    (∃ s s', s.Inv ∧ step s = .next s' ∧ s'.running ∧ s'.x 8#5 ≠ s.x 8#5) ∧
    (∃ s s', s.Inv ∧ step s = .next s' ∧ s'.running ∧ s'.x 10#5 ≠ s.x 10#5) :=
  ⟨⟨{ image with load := some (8#5, 7#32) }, _, ⟨by decide, by decide, fun _ => rfl, by decide, by decide⟩, rfl, rfl,
      by decide⟩,
    ⟨{ image with nextInstr := 0x01095021#32 }, _, ⟨by decide, by decide, fun _ => rfl, by decide, by decide⟩, rfl, rfl,
      by decide⟩⟩

theorem witness_PcAdvancesByFour : ∃ s s', step s = .next s' ∧ s'.running ∧ s'.pc ≠ s.pc + 4#32 :=
  ⟨{ regs 1#32 2#32 with nextInstr := 0x08004000#32 }, _, rfl, rfl, by decide⟩

theorem witness_SlotIsFilledOnlyByLoads : ∃ s s' p, step s = .next s' ∧ s'.running ∧ s'.load = some p :=
  ⟨{ image with nextInstr := 0x8D280000#32 }, _, _, rfl, rfl, rfl⟩

theorem witness_PendingLoadIsCommitted :
    ∃ s s' j v i, step s = .next s' ∧ s'.running ∧ s.load = some (j, v) ∧ j ≠ 0#5 ∧ decode s.nextInstr = .ok i ∧
      directDest i ≠ some j :=
  ⟨{ regs 1#32 2#32 with load := some (8#5, 7#32) }, _, _, _, _, rfl, rfl, rfl, by decide, rfl, by decide⟩

theorem witness_DirectWriteInDelaySlotWins :
    ∃ s s' s'' j v i, s.load = some (j, v) ∧ decode s.nextInstr = .ok i ∧ directDest i = some j ∧ step s = .next s' ∧
      s'.running ∧ step { s with load := none } = .next s'' :=
  ⟨{ regs 1#32 2#32 with load := some (8#5, 7#32), nextInstr := 0x24080009#32 }, _, _, _, _, _, rfl, rfl, rfl, rfl, rfl, rfl⟩

/-- Sequence S1 of 95_test_vectors.md, with an ADDU of two registers: the LW is latched and its delay slot is the word at
`pc`. -/
def loadThenUse : State :=
  withWord (withWord { regs 0xAAAA#32 0#32 with nextInstr := 0x8C080100#32 } 0x100 0x44332211#32) 0x1004 0x01095021#32

/-- An ADDU of the loaded register with another one, and the same instruction with two pending values. -/
theorem witness_LoadDelaySlotReadsTheOldValue :
    ((loadThenUse.Inv ∧ loadThenUse.isolated = false ∧ loadThenUse.load = none ∧
      decode loadThenUse.nextInstr = .ok (.lw ⟨0#5, 8#5, 0x100#16⟩) ∧
      isMemoryAddress (physicalOf (effAddr ⟨0#5, 8#5, 0x100#16⟩ loadThenUse)) = true ∧
      isMemoryAddress (physicalOf loadThenUse.pc) = true ∧
      decode (loadThenUse.wordAt (physicalOf loadThenUse.pc)) = .ok (.addu ⟨8#5, 9#5, 10#5, 0#5⟩)) ∧
    ∃ s1 s2, step loadThenUse = .next s1 ∧ step s1 = .next s2 ∧ s2.running) ∧
    (decode 0x01095021#32 = .ok (.addu ⟨8#5, 9#5, 10#5, 0#5⟩) ∧
      mergesInto 8#5 (.addu ⟨8#5, 9#5, 10#5, 0#5⟩) = false ∧
      ∃ a b, step { regs 1#32 2#32 with nextInstr := 0x01095021#32, load := some (8#5, 7#32) } = .next a ∧
        step { regs 1#32 2#32 with nextInstr := 0x01095021#32, load := some (8#5, 9#32) } = .next b ∧ a.running) ∧
    mergesInto 8#5 (.lwl ⟨9#5, 8#5, 0#16⟩) = true :=
  ⟨⟨⟨⟨by decide, by decide, fun _ => rfl, by decide, by decide⟩, by decide⟩, ⟨_, _, rfl, rfl, rfl⟩⟩,
    ⟨by decide, by decide, ⟨_, _, rfl, rfl, rfl⟩⟩, by decide⟩

theorem witness_TakenBranchRunsItsDelaySlot :
    ∃ s s1 s2 f, decode s.nextInstr = .ok (.beq f) ∧ s.x f.rs = s.x f.rt ∧ isMemoryAddress (physicalOf s.pc) = true ∧
      isMemoryAddress (physicalOf (s.pc + BitVec.ofInt 32 (4 * f.imm.toInt))) = true ∧
      step s = .next s1 ∧ step s1 = .next s2 ∧ s2.running :=
  ⟨{ regs 5#32 5#32 with nextInstr := 0x11090003#32 }, _, _, ⟨8#5, 9#5, 3#16⟩, by decide, by decide, by decide, by decide,
    rfl, rfl, rfl⟩

/-- `beq $zero, $zero, +3` at 0x8000_0100 is latched, and its delay slot holds the given word. -/
def slotHolding (w : Word) : State := withWord { regs 0#32 0#32 with pc := 0x80000104#32, nextInstr := 0x10000003#32 } 0x104 w

/-- Sequence S9 of 95_test_vectors.md, from the step of its first branch on. -/
def branchInSlot : State := slotHolding 0x10000001#32

/-- BEQ in BEQ's slot, then in the slot of the same BEQ a branch that is not taken, a J and a JALR that links. -/
theorem witness_BranchInDelaySlotGoesFromTheFirstTarget :
    (decode branchInSlot.nextInstr = .ok (.beq ⟨0#5, 0#5, 3#16⟩) ∧ isMemoryAddress (physicalOf branchInSlot.pc) = true ∧
      decode (branchInSlot.wordAt (physicalOf branchInSlot.pc)) = .ok (.beq ⟨0#5, 0#5, 1#16⟩) ∧
      transferTarget branchInSlot.x (branchInSlot.pc + 4#32) (.beq ⟨0#5, 0#5, 3#16⟩) = some 0x80000110#32 ∧
      isMemoryAddress (physicalOf 0x80000110#32) = true) ∧
    (∃ s1 s2, step branchInSlot = .next s1 ∧ step s1 = .next s2 ∧ s2.running ∧
      transferTarget s1.x (0x80000110#32 + 4#32) (.beq ⟨0#5, 0#5, 1#16⟩) = some 0x80000114#32) ∧
    (∃ s1 s2, step (slotHolding 0x14000001#32) = .next s1 ∧ step s1 = .next s2 ∧ s2.running ∧
      transferTarget s1.x (0x80000110#32 + 4#32) (.bne ⟨0#5, 0#5, 1#16⟩) = some 0x80000114#32) ∧
    (∃ s1 s2, step (slotHolding 0x08004000#32) = .next s1 ∧ step s1 = .next s2 ∧ s2.running ∧
      transferTarget s1.x (0x80000110#32 + 4#32) (.j 0x4000#26) = some 0x80010000#32) ∧
    (∃ s1 s2, step (slotHolding 0x0000F809#32) = .next s1 ∧ step s1 = .next s2 ∧ s2.running ∧
      transferTarget s1.x (0x80000110#32 + 4#32) (.jalr ⟨0#5, 0#5, 31#5, 0#5⟩) = some 0#32 ∧
      linkDest (.jalr ⟨0#5, 0#5, 31#5, 0#5⟩) = some 31#5) :=
  ⟨by decide, ⟨_, _, rfl, rfl, rfl, by decide⟩, ⟨_, _, rfl, rfl, rfl, by decide⟩, ⟨_, _, rfl, rfl, rfl, by decide⟩,
    ⟨_, _, rfl, rfl, rfl, by decide, by decide⟩⟩

/-- The first two instructions of sequence S12 of 95_test_vectors.md. -/
def isolateThenStore : State :=
  withWord { regs 0x00010000#32 0xDEADBEEF#32 with nextInstr := 0x40886000#32 } 0x1004 0xAC090100#32

theorem witness_StatusWriteSuppressesTheNextStore :
    (decode isolateThenStore.nextInstr = .ok (.mtc0 ⟨8#5, 12#5, 0#11⟩) ∧ (isolateThenStore.x 8#5).getLsbD 16 = true ∧
      isMemoryAddress (physicalOf isolateThenStore.pc) = true ∧
      decode (isolateThenStore.wordAt (physicalOf isolateThenStore.pc)) = .ok (.sw ⟨0#5, 9#5, 0x100#16⟩) ∧
      isMemoryAddress (physicalOf (isolateThenStore.pc + 4#32)) = true) ∧
    ∃ s1 s2, step isolateThenStore = .next s1 ∧ step s1 = .next s2 :=
  ⟨by decide, ⟨_, _, rfl, rfl⟩⟩

theorem witness_JumpToUnalignedTargetHalts :
    let s := { regs 0x80001002#32 0#32 with nextInstr := 0x01000008#32 }
    s.running ∧ decode s.nextInstr = .ok (.jr ⟨8#5, 0#5, 0#5, 0#5⟩) ∧ s.pc.toNat % 4 = 0 ∧
    isMemoryAddress (physicalOf s.pc) = true ∧ (s.x 8#5).toNat % 4 ≠ 0 := by decide

/-- Each clause under isolation: the last half-word of RAM, a misaligned word, the first address after RAM, the last word of
BIOS and the last of the GPU. -/
theorem witness_HostAccessesIgnoreIsolation :
    let s := { image with sr := 0x00010000#32 }
    Memory.wf s.mem = true ∧ aligned 0x801FFFFE#32 .half = true ∧
    classify (physicalOf 0x801FFFFE#32) = some ⟨.ram, 0x00000000, 0x00200000⟩ ∧ kindOf .ram = .storage ∧
    aligned 0x801FFFFE#32 .word = false ∧
    (aligned 0x80200000#32 .word = true ∧ classify (physicalOf 0x80200000#32) = none) ∧
    (aligned 0xBFC7FFFC#32 .word = true ∧
      classify (physicalOf 0xBFC7FFFC#32) = some ⟨.bios, 0x1FC00000, 0x00080000⟩ ∧ kindOf .bios = .readOnly) ∧
    aligned 0xBF801814#32 .word = true ∧ classify (physicalOf 0xBF801814#32) = some ⟨.gpu, 0x1F801810, 0x8⟩ ∧
    kindOf .gpu = .external := by decide

end Sys2Proof.Tests
end

section
/-! PROOFS. What every step keeps of the state: the invariant, HI and LO, the registers and the load-delay slot. -/

namespace Sys2Proof.Machine

/-! ## The phases of a step -/

/-- The fetch changes nothing but the devices' history (40_pipeline_cycle.md R121). -/
theorem fetch_same {s t : State} {w : Word} (h : fetch s = .ok w t) : t = { s with history := t.history } := by
  have hs := (memRead_frame h).same
  rwa [memRead_mem h] at hs

/-- Everything the execution of a word did, when it answers a next state. -/
theorem execute_next {w : Word} {s t : State} (h : execute w s = .next t) :
    (∃ i, decode w = .ok i ∧ exec i s = .next t) ∨ t = s.raise (.unimplemented w) w := by
  obtain ⟨i, hi, he⟩ | ⟨-, -, he⟩ := execute_cases w s
  · exact .inl ⟨i, hi, he ▸ h⟩
  · exact .inr (next_eq (he ▸ h))

/-- A step after which the machine runs on: the fetch answered a word, the latched word named an instruction, and that
instruction's next state was committed. -/
theorem step_running {s s' : State} (h : step s = .next s') (hr : s'.running) :
    ∃ fetched t i u, fetch s = .ok fetched t ∧ decode s.nextInstr = .ok i ∧
      exec i (enterExecute t fetched) = .next u ∧ s' = u.commit := by
  obtain ⟨-, ⟨r, -, rfl⟩ | ⟨fetched, t, u, hf, hx, rfl⟩⟩ := step_next h
  · simp [State.running] at hr
  · have hu : u.halted = none := endStep_halted_field u ▸ hr
    obtain ⟨i, hi, he⟩ | rfl := execute_next hx
    · exact ⟨fetched, t, i, u, hf, hi, he, endStep_running hu⟩
    · simp at hu

/-- What the executing instruction finds in the output bank: what the load resolve of the state before the step leaves
there (40_pipeline_cycle.md R123). -/
theorem enterExecute_xo {s t : State} {w : Word} (h : fetch s = .ok w t) (j : RegIdx) :
    (enterExecute t w).xo j = s.resolveLoad.xo j := by
  rw [fetch_same h]
  exact (State.resolveLoad_xo _ j).trans (State.resolveLoad_xo s j).symm

/-- The load resolve leaves a register of the output bank alone, or gives it the value pending for it. -/
theorem resolveLoad_xo_cases (s : State) (j : RegIdx) :
    s.resolveLoad.xo j = s.xo j ∨ ∃ v, s.load = some (j, v) ∧ s.resolveLoad.xo j = v := by
  rw [State.resolveLoad_xo]
  cases hl : s.load with
  | none => exact .inl rfl
  | some p =>
    obtain ⟨k, v⟩ := p
    by_cases hk : j = k ∧ k ≠ 0#5
    · exact .inr ⟨v, by rw [hk.1], if_pos hk⟩
    · exact .inl (if_neg hk)

/-! ## The invariant -/

/-- The part of the invariant that holds between the phases of a step too. The committed bank is not in it: the end of the
step overwrites it. -/
structure State.PhaseInv (s : State) : Prop where
  outputZero : Bank.zeroed s.output
  memoryCanonical : Memory.wf s.mem = true
  memoryMapped : ∀ c ∈ s.mem, isMemoryAddress c.1 = true

theorem State.Inv.phaseInv {s : State} (h : s.Inv) : s.PhaseInv := ⟨h.outputZero, h.memoryCanonical, h.memoryMapped⟩

theorem fetch_phaseInv {s t : State} {w : Word} (h : fetch s = .ok w t) (hs : s.PhaseInv) : t.PhaseInv := by
  rw [fetch_same h]
  exact ⟨hs.outputZero, hs.memoryCanonical, hs.memoryMapped⟩

theorem zeroed_resolveLoad {s : State} (h : Bank.zeroed s.output) : Bank.zeroed s.resolveLoad.output := by
  unfold State.resolveLoad
  split
  · exact h
  · exact Bank.zeroed_write _ _ _ h

theorem enterExecute_phaseInv {s : State} (w : Word) (hs : s.PhaseInv) : (enterExecute s w).PhaseInv where
  outputZero := zeroed_resolveLoad hs.outputZero
  memoryCanonical := by simpa using hs.memoryCanonical
  memoryMapped := by simpa using hs.memoryMapped

theorem execute_phaseInv {w : Word} {s t : State} (h : execute w s = .next t) (hs : s.PhaseInv) : t.PhaseInv := by
  obtain ⟨i, -, he⟩ | rfl := execute_next h
  · have hf := exec_frame he
    exact ⟨hf.outputZero hs.outputZero, hf.canonical hs.memoryCanonical, hf.mapped hs.memoryMapped⟩
  · exact ⟨hs.outputZero, hs.memoryCanonical, hs.memoryMapped⟩

/-- The end of a step makes the whole invariant of the part kept between the phases: the commit makes the banks equal, and the
free banks of a halted machine hold 0 in entry 0. -/
theorem endStep_inv {s : State} (hs : s.PhaseInv) : s.endStep.Inv := by
  cases hh : s.halted with
  | none =>
    rw [endStep_running hh]
    exact ⟨hs.outputZero, hs.outputZero, fun _ => rfl, hs.memoryCanonical, hs.memoryMapped⟩
  | some r =>
    rw [endStep_halted hh]
    exact ⟨Bank.zeroed_freeBank _, Bank.zeroed_freeBank _, fun hr => by simp [State.running, hh] at hr,
      hs.memoryCanonical, hs.memoryMapped⟩

theorem raiseInFetch_inv {s : State} (r : FatalReason) (hs : s.Inv) : (s.raiseInFetch r).Inv :=
  ⟨hs.committedZero, hs.outputZero, fun hr => by simp [State.running] at hr, hs.memoryCanonical, hs.memoryMapped⟩

/-- Settles O38: each phase keeps the part of the invariant that its own end needs. -/
theorem stepKeepsInvariant : Obligations.StepKeepsInvariant := by
  intro s s' hs h
  obtain ⟨-, ⟨r, -, rfl⟩ | ⟨fetched, t, u, hf, hx, rfl⟩⟩ := step_next h
  · exact raiseInFetch_inv r hs
  · have ht : t.PhaseInv := fetch_phaseInv hf hs.phaseInv
    exact endStep_inv (execute_phaseInv hx (enterExecute_phaseInv fetched ht))

/-- Settles O39: both banks are the bank of zeros, and memory lists nothing. -/
theorem resetMeetsInvariant : Obligations.ResetMeetsInvariant where
  committedZero := by decide
  outputZero := by decide
  banksEqual := fun _ => rfl
  memoryCanonical := reset_memory_wf
  memoryMapped := by simp [State.reset]

/-! ## What only its writers change -/

/-- Settles O49: neither the fetch nor the load resolve touches HI or LO, so a change is the instruction's. -/
theorem hiLoChangeOnlyByTheirWriters : Obligations.HiLoChangeOnlyByTheirWriters := by
  intro s s' h hr hne
  obtain ⟨fetched, t, i, u, hf, hi, he, rfl⟩ := step_running h hr
  refine ⟨i, hi, ?_⟩
  by_contra hw
  obtain ⟨hhi, hlo⟩ := (exec_frame he).hiLo (by simpa using hw)
  rw [fetch_same hf] at hhi hlo
  obtain hne | hne := hne
  · exact hne (by simpa using hhi)
  · exact hne (by simpa using hlo)

/-- Settles O52: the load resolve empties the slot, so a value in it was staged by the instruction. -/
theorem slotIsFilledOnlyByLoads : Obligations.SlotIsFilledOnlyByLoads := by
  intro s s' p h hr hp
  obtain ⟨fetched, t, i, u, -, hi, he, rfl⟩ := step_running h hr
  refine ⟨i, hi, ?_⟩
  by_contra hst
  have hload : u.load = none := by simpa using (exec_frame he).load (by simpa using hst)
  simp [hload] at hp

/-- Under the invariant the output bank of a running machine reads as the committed one (10_state.md R24). -/
theorem State.Inv.xo_eq_x {s : State} (hs : s.Inv) (hr : s.running) (j : RegIdx) : s.xo j = s.x j := by
  rw [State.xo, State.x, hs.banksEqual hr]

/-- Settles O50: a register that the instruction does not write directly is committed as the load resolve left it. -/
theorem registersChangeOnlyByTheirWriters : Obligations.RegistersChangeOnlyByTheirWriters := by
  intro s s' j hs h hr hne
  have hrun : s.running := (step_next h).1
  obtain ⟨fetched, t, i, u, hf, hi, he, rfl⟩ := step_running h hr
  by_cases hd : directDest i = some j
  · exact .inr ⟨i, hi, hd⟩
  have hx : u.commit.x j = s.resolveLoad.xo j := ((exec_frame he).output j hd).trans (enterExecute_xo hf j)
  obtain hkept | ⟨v, hl, hv⟩ := resolveLoad_xo_cases s j
  · exact absurd (hx.trans (hkept.trans (hs.xo_eq_x hrun j))) hne
  · exact .inl ⟨v, hl, hx.trans hv⟩

end Sys2Proof.Machine
end

section
/-! PROOFS. The Interconnect (20_memory.md) and the accesses that reach it: what each shared body of the loads and stores
answers, the fatal accesses, the external devices, the segment mirrors, RAM and SCRATCH as a byte store, and what a step can
do to memory. -/

namespace Sys2Proof.Machine

/-! ## Ranges -/

/-- Of two rows of the table, one ends before the other begins (20_memory.md R61). -/
theorem rangeTable_pairwise :
    rangeTable.Pairwise (fun a b => a.base + a.size ≤ b.base ∨ b.base + b.size ≤ a.base) := by decide

theorem Range.holds_iff (r : Range) (p : Nat) : r.holds p = true ↔ r.base ≤ p ∧ p < r.base + r.size := by
  simp [Range.holds]

/-- Two rows of the table that hold one address are one row. -/
theorem range_unique {p : Nat} {a b : Range} (ha : a ∈ rangeTable) (hb : b ∈ rangeTable) (hpa : a.holds p = true)
    (hpb : b.holds p = true) : a = b := by
  rw [Range.holds_iff] at hpa hpb
  by_contra hne
  have : Std.Symm (fun x y : Range => x.base + x.size ≤ y.base ∨ y.base + y.size ≤ x.base) := ⟨fun _ _ => Or.symm⟩
  have := rangeTable_pairwise.forall ha hb hne
  omega

/-- Classification finds the row that holds the address. -/
theorem classify_of_holds {p : Nat} {a : Range} (ha : a ∈ rangeTable) (hpa : a.holds p = true) : classify p = some a := by
  cases hc : classify p with
  | none => exact absurd ((a.holds_iff p).1 hpa) (classify_none.1 hc a ha)
  | some r =>
    obtain ⟨hr, hpr⟩ := classify_some hc
    rw [range_unique ha hr hpa ((r.holds_iff p).2 hpr)]

/-- Settles O42, by the order of the rows of the table. -/
theorem rangesAreDisjoint : Obligations.RangesAreDisjoint :=
  fun _ _ _ ha hb hpa hpb => ⟨range_unique ha hb hpa hpb, classify_of_holds ha hpa⟩

/-- A memory window is one that no external device stands behind (R66, R67). -/
theorem classify_of_isMemoryAddress {p : Nat} (h : isMemoryAddress p = true) :
    ∃ r, classify p = some r ∧ kindOf r.dev ≠ .external := by
  unfold isMemoryAddress at h
  split at h
  · exact ⟨_, ‹_›, by simpa using h⟩
  · cases h

/-- The BIOS window is read-only (R67). -/
theorem classify_of_isBiosAddress {p : Nat} (h : isBiosAddress p = true) :
    ∃ r, classify p = some r ∧ kindOf r.dev = .readOnly := by
  unfold isBiosAddress at h
  split at h
  · rename_i r hr
    have hd : r.dev = .bios := by simpa using h
    exact ⟨r, hr, by rw [hd]; rfl⟩
  · cases h

/-! ## Alignment (R56) -/

theorem aligned_of_mod {a : Word} {n : Width} (h : a.toNat % bytesOf n = 0) : aligned a n = true := by
  simp [aligned, h]

theorem not_aligned_of_mod {a : Word} {n : Width} (h : a.toNat % bytesOf n ≠ 0) : aligned a n = false := by
  simp [aligned, h]

theorem aligned_byte (a : Word) : aligned a .byte = true := aligned_of_mod (Nat.mod_one _)

theorem aligned_wordAddr (a : Word) : aligned (wordAddr a) .word = true := by
  have h : (wordAddr a).toNat % 4 = 0 := by
    rw [wordAddr_toNat]
    omega
  exact aligned_of_mod h

/-! ## The stores that fail -/

/-- A misaligned store (R56). -/
theorem memWrite_misaligned (s : State) (addr v : Word) (n : Width) (ha : aligned addr n = false) :
    memWrite s addr n v = .fatal (.unaligned addr n .store) := by simp [memWrite, ha]

/-- A store that no range matches (R58). -/
theorem memWrite_unmapped (s : State) (addr v : Word) (n : Width) (ha : aligned addr n = true)
    (hr : classify (physicalOf addr) = none) :
    memWrite s addr n v = .fatal (.unmapped addr (physical addr) n .store) := by
  rw [physicalOf] at hr
  simp [memWrite, ha, hr]

/-- A store to the read-only image (R67, R289). -/
theorem memWrite_readOnly (s : State) (addr v : Word) (n : Width) (r : Range) (ha : aligned addr n = true)
    (hr : classify (physicalOf addr) = some r) (hk : kindOf r.dev = .readOnly) :
    memWrite s addr n v = .fatal (.biosStore addr n) := by
  rw [physicalOf] at hr
  simp [memWrite, ha, hr, deviceStore, hk]

/-! ## The shared bodies of the loads and stores, by the answer of the Interconnect -/

section Bodies

variable {word : Word} {f : IType} {n : Width} {ext : Word → Word} {merge : Word → Word → Word → Word} {s t u : State}
  {v : Word} {r : FatalReason}

theorem loadInstr_ok (hi : s.isolated = false) (hr : memRead s (effAddr f s) n = .ok v t) :
    loadInstr word f n ext s = .next (t.stage f.rt (ext v)) := by simp [loadInstr, hi, hr]

theorem loadInstr_fatal (hi : s.isolated = false) (hr : memRead s (effAddr f s) n = .fatal r) :
    loadInstr word f n ext s = .next (s.raise r word) := by simp [loadInstr, hi, hr]

theorem loadMerge_ok (hi : s.isolated = false) (hr : memRead s (wordAddr (effAddr f s)) .word = .ok v t) :
    loadMerge word f merge s = .next (t.stage f.rt (merge (effAddr f s) (t.xo f.rt) v)) := by simp [loadMerge, hi, hr]

theorem loadMerge_fatal (hi : s.isolated = false) (hr : memRead s (wordAddr (effAddr f s)) .word = .fatal r) :
    loadMerge word f merge s = .next (s.raise r word) := by simp [loadMerge, hi, hr]

theorem storeInstr_ok (hi : s.isolated = false) (hw : memWrite s (effAddr f s) n (s.x f.rt) = .ok () t) :
    storeInstr word f n s = .next t := by simp [storeInstr, hi, hw]

theorem storeInstr_fatal (hi : s.isolated = false) (hw : memWrite s (effAddr f s) n (s.x f.rt) = .fatal r) :
    storeInstr word f n s = .next (s.raise r word) := by simp [storeInstr, hi, hw]

theorem storeMerge_readFatal (hi : s.isolated = false) (hr : memRead s (wordAddr (effAddr f s)) .word = .fatal r) :
    storeMerge word f merge s = .next (s.raise r word) := by simp [storeMerge, hi, hr]

theorem storeMerge_writeFatal (hi : s.isolated = false) (hr : memRead s (wordAddr (effAddr f s)) .word = .ok v t)
    (hw : memWrite t (wordAddr (effAddr f s)) .word (merge (effAddr f s) v (s.x f.rt)) = .fatal r) :
    storeMerge word f merge s = .next (t.raise r word) := by simp [storeMerge, hi, hr, hw]

theorem storeMerge_ok (hi : s.isolated = false) (hr : memRead s (wordAddr (effAddr f s)) .word = .ok v t)
    (hw : memWrite t (wordAddr (effAddr f s)) .word (merge (effAddr f s) v (s.x f.rt)) = .ok () u) :
    storeMerge word f merge s = .next u := by simp [storeMerge, hi, hr, hw]

/-- An answer that is the fatal condition and nothing else halts with its record (60_exceptions.md R291). -/
theorem halts_of_raise {o : Outcome} (h : o = .next (s.raise r word)) : ∃ t, o = .next t ∧ HaltsWith s t r word :=
  ⟨_, h, rfl⟩

end Bodies

/-! ## The accesses that halt -/

/-- Settles O17: alignment is checked before the mapping, so the Interconnect answers `Unaligned` and does nothing. -/
theorem misalignedAccessHalts : Obligations.MisalignedAccessHalts := by
  intro f s hi a
  have hload : ∀ {n : Width}, a.toNat % bytesOf n ≠ 0 → memRead s a n = .fatal (.unaligned a n .load) :=
    fun h => memRead_misaligned s a _ (not_aligned_of_mod h)
  have hstore : ∀ {n : Width}, a.toNat % bytesOf n ≠ 0 → memWrite s a n (s.x f.rt) = .fatal (.unaligned a n .store) :=
    fun h => memWrite_misaligned s a _ _ (not_aligned_of_mod h)
  refine ⟨fun h2 => ⟨?lh, ?lhu, ?sh⟩, fun h4 => ⟨?lw, ?sw⟩⟩
  case lh | lhu => exact halts_of_raise (loadInstr_fatal (n := .half) hi (hload h2))
  case sh => exact halts_of_raise (storeInstr_fatal (n := .half) hi (hstore h2))
  case lw => exact halts_of_raise (loadInstr_fatal (n := .word) hi (hload h4))
  case sw => exact halts_of_raise (storeInstr_fatal (n := .word) hi (hstore h4))

/-- Settles O18: an aligned access finds no range; LWL, LWR, SWL and SWR find none for the load of their aligned word. -/
theorem unmappedAccessHalts : Obligations.UnmappedAccessHalts := by
  intro f s hi a w
  refine ⟨fun hc => ?_, fun hc => ?_⟩
  · have hload : ∀ {n : Width}, aligned a n = true → memRead s a n = .fatal (.unmapped a (physical a) n .load) :=
      fun ha => memRead_unmapped s a _ ha hc
    have hstore : ∀ {n : Width}, aligned a n = true →
        memWrite s a n (s.x f.rt) = .fatal (.unmapped a (physical a) n .store) := fun ha => memWrite_unmapped s a _ _ ha hc
    refine ⟨?lb, ?lbu, ?sb, fun h2 => ⟨?lh, ?lhu, ?sh⟩, fun h4 => ⟨?lw, ?sw⟩⟩
    case lb | lbu => exact halts_of_raise (loadInstr_fatal hi (hload (aligned_byte a)))
    case sb => exact halts_of_raise (storeInstr_fatal hi (hstore (aligned_byte a)))
    case lh | lhu => exact halts_of_raise (loadInstr_fatal (n := .half) hi (hload (aligned_of_mod h2)))
    case sh => exact halts_of_raise (storeInstr_fatal (n := .half) hi (hstore (aligned_of_mod h2)))
    case lw => exact halts_of_raise (loadInstr_fatal (n := .word) hi (hload (aligned_of_mod h4)))
    case sw => exact halts_of_raise (storeInstr_fatal (n := .word) hi (hstore (aligned_of_mod h4)))
  · have hload : memRead s w .word = .fatal (.unmapped w (physical w) .word .load) :=
      memRead_unmapped s w .word (aligned_wordAddr a) hc
    refine ⟨?lwl, ?lwr, ?swl, ?swr⟩
    case lwl | lwr => exact halts_of_raise (loadMerge_fatal hi hload)
    case swl | swr => exact halts_of_raise (storeMerge_readFatal hi hload)

/-- Settles O19: the image refuses the store; SWL and SWR load the aligned word first, which changes nothing. -/
theorem biosStoreHalts : Obligations.BiosStoreHalts := by
  intro f s hi a w
  refine ⟨fun hb => ?_, fun hb => ?_⟩
  · obtain ⟨r, hc, hk⟩ := classify_of_isBiosAddress hb
    have hstore : ∀ {n : Width}, aligned a n = true → memWrite s a n (s.x f.rt) = .fatal (.biosStore a n) :=
      fun ha => memWrite_readOnly s a _ _ r ha hc hk
    refine ⟨?sb, fun h2 => ?sh, fun h4 => ?sw⟩
    case sb => exact halts_of_raise (storeInstr_fatal hi (hstore (aligned_byte a)))
    case sh => exact halts_of_raise (storeInstr_fatal (n := .half) hi (hstore (aligned_of_mod h2)))
    case sw => exact halts_of_raise (storeInstr_fatal (n := .word) hi (hstore (aligned_of_mod h4)))
  · obtain ⟨r, hc, hk⟩ := classify_of_isBiosAddress hb
    have hload := memRead_memory s w .word r (aligned_wordAddr a) hc (by simp [hk])
    have hstore : ∀ v, memWrite s w .word v = .fatal (.biosStore w .word) :=
      fun v => memWrite_readOnly s w v .word r (aligned_wordAddr a) hc hk
    refine ⟨?swl, ?swr⟩
    case swl | swr => exact halts_of_raise (storeMerge_writeFatal hi hload (hstore _))

/-! ## External devices (R68) -/

theorem zextWidth_zextWidth (n : Width) (v : Word) : zextWidth n (zextWidth n v) = zextWidth n v := by
  cases n <;> simp [zextWidth]

theorem sextWidth_zextWidth (n : Width) (v : Word) : sextWidth n (zextWidth n v) = sextWidth n v := by
  cases n <;> simp [sextWidth, zextWidth]

section Devices

variable {word : Word} {f : IType} {n : Width} {ext : Word → Word} {merge : Word → Word → Word → Word} {s : State}
  {r : Range}

/-- An aligned load of an external device. The instruction's extension `ext` sees only the low bytes of the draw. -/
theorem loadInstr_external (hi : s.isolated = false) (ha : aligned (effAddr f s) n = true)
    (hr : classify (physicalOf (effAddr f s)) = some r) (hk : kindOf r.dev = .external)
    (hext : ∀ v, ext (zextWidth n v) = ext v) :
    let off := physicalOf (effAddr f s) - r.base
    loadInstr word f n ext s = .next (
      if Config.deviceAccepts r.dev off n .load = true then
        { s with
          load := some (f.rt, ext (Config.deviceRead r.dev off n s.history))
          history := s.history ++ [.loaded r.dev off n] }
      else s.raise (.widthMismatch r.dev off n .load) word) := by
  intro off
  have hm := memRead_external s _ n r ha hr hk
  split_ifs with hacc
  · rw [← hext]
    exact loadInstr_ok hi (hm.trans (if_pos hacc))
  · exact loadInstr_fatal hi (hm.trans (if_neg hacc))

/-- LWL and LWR of an external device. -/
theorem loadMerge_external (hi : s.isolated = false) (hr : classify (physicalOf (wordAddr (effAddr f s))) = some r)
    (hk : kindOf r.dev = .external) :
    let off := physicalOf (wordAddr (effAddr f s)) - r.base
    loadMerge word f merge s = .next (
      if Config.deviceAccepts r.dev off .word .load = true then
        { s with
          load := some (f.rt, merge (effAddr f s) (s.xo f.rt) (Config.deviceRead r.dev off .word s.history))
          history := s.history ++ [.loaded r.dev off .word] }
      else s.raise (.widthMismatch r.dev off .word .load) word) := by
  intro off
  have hm := memRead_external s _ .word r (aligned_wordAddr _) hr hk
  split_ifs with hacc
  · exact loadMerge_ok hi (hm.trans (if_pos hacc))
  · exact loadMerge_fatal hi (hm.trans (if_neg hacc))

/-- An aligned store to an external device. -/
theorem storeInstr_external (hi : s.isolated = false) (ha : aligned (effAddr f s) n = true)
    (hr : classify (physicalOf (effAddr f s)) = some r) (hk : kindOf r.dev = .external) :
    let off := physicalOf (effAddr f s) - r.base
    storeInstr word f n s = .next (
      if Config.deviceAccepts r.dev off n .store = true then
        { s with history := s.history ++ [.stored r.dev off n (zextWidth n (s.x f.rt))] }
      else s.raise (.widthMismatch r.dev off n .store) word) := by
  intro off
  have hm := memWrite_external s _ (s.x f.rt) n r ha hr hk
  split_ifs with hacc
  · exact storeInstr_ok hi (hm.trans (if_pos hacc))
  · exact storeInstr_fatal hi (hm.trans (if_neg hacc))

/-- SWL and SWR to an external device: the load's event stays when the store is refused (60_exceptions.md R294). -/
theorem storeMerge_external (hi : s.isolated = false) (hr : classify (physicalOf (wordAddr (effAddr f s))) = some r)
    (hk : kindOf r.dev = .external) :
    let off := physicalOf (wordAddr (effAddr f s)) - r.base
    let u : State := { s with history := s.history ++ [.loaded r.dev off .word] }
    let v := merge (effAddr f s) (Config.deviceRead r.dev off .word s.history) (s.x f.rt)
    storeMerge word f merge s = .next (
      if Config.deviceAccepts r.dev off .word .load = true then
        if Config.deviceAccepts r.dev off .word .store = true then
          { u with history := u.history ++ [.stored r.dev off .word v] }
        else u.raise (.widthMismatch r.dev off .word .store) word
      else s.raise (.widthMismatch r.dev off .word .load) word) := by
  intro off u v
  have hload := memRead_external s _ .word r (aligned_wordAddr _) hr hk
  have hstore := memWrite_external u _ v .word r (aligned_wordAddr _) hr hk
  split_ifs with hl hst
  · exact storeMerge_ok hi (hload.trans (if_pos hl)) (hstore.trans (if_pos hst))
  · exact storeMerge_writeFatal hi (hload.trans (if_pos hl)) (hstore.trans (if_neg hst))
  · exact storeMerge_readFatal hi (hload.trans (if_neg hl))

end Devices

/-- Settles O20: each load is one of the two shared bodies, at its width and with its extension or merge. -/
theorem deviceLoadResults : Obligations.DeviceLoadResults := by
  intro f s r hi hk a off woff read answer
  refine ⟨fun hc => ⟨?lb, ?lbu, fun h2 => ⟨?lh, ?lhu⟩, fun h4 => ?lw⟩, fun hc => ⟨?lwl, ?lwr⟩⟩
  case lb => exact loadInstr_external hi (aligned_byte a) hc hk (sextWidth_zextWidth .byte)
  case lbu => exact loadInstr_external hi (aligned_byte a) hc hk (zextWidth_zextWidth .byte)
  case lh => exact loadInstr_external hi (aligned_of_mod h2) hc hk (sextWidth_zextWidth .half)
  case lhu => exact loadInstr_external hi (aligned_of_mod h2) hc hk (zextWidth_zextWidth .half)
  case lw => exact loadInstr_external hi (aligned_of_mod h4) hc hk (fun _ => rfl)
  case lwl | lwr => exact loadMerge_external hi hc hk

/-- Settles O21: each store is one of the two shared bodies, at its width or with its merge. -/
theorem deviceStoreResults : Obligations.DeviceStoreResults := by
  intro f s r hi hk a off woff answer afterRead readThenStore old
  refine ⟨fun hc => ⟨?sb, fun h2 => ?sh, fun h4 => ?sw⟩, fun hc => ⟨?swl, ?swr⟩⟩
  case sb => exact storeInstr_external hi (aligned_byte a) hc hk
  case sh => exact storeInstr_external (n := .half) hi (aligned_of_mod h2) hc hk
  case sw => exact storeInstr_external (n := .word) hi (aligned_of_mod h4) hc hk
  case swl | swr => exact storeMerge_external hi hc hk

/-! ## Segment mirrors (R52, R53) -/

/-- Above the low 29 bits of an address, the segment bits are added. -/
theorem or_segmentBase_toNat {a : Word} (ha : a.toNat < 0x20000000) {k : Nat} (hk : k < 8) :
    (a ||| BitVec.ofNat 32 (2 ^ 29 * k)).toNat = 2 ^ 29 * k + a.toNat := by
  rw [BitVec.toNat_or, BitVec.toNat_ofNat, Nat.mod_eq_of_lt (by omega), Nat.or_comm,
    Nat.two_pow_add_eq_or_of_lt ha k]

/-- An aligned load of a memory window depends on the physical address alone. -/
theorem memRead_of_physical_eq {a b : Word} {n : Width} (s : State) (hab : physical b = physical a)
    (hm : isMemoryAddress (physicalOf a) = true) (ha : aligned a n = true) : memRead s b n = memRead s a n := by
  obtain ⟨r, hr, hk⟩ := classify_of_isMemoryAddress hm
  have hb : aligned b n = true := by rwa [aligned_iff, hab, ← aligned_iff]
  rw [memRead_memory s a n r ha hr hk, memRead_memory s b n r hb (by rw [hab]; exact hr) hk, hab]

theorem physical_eq_of_physicalOf_eq {a b : Word} (h : physicalOf b = a.toNat) : physical b = a := BitVec.eq_of_toNat_eq h

/-- Settles O43: segment masking takes the bases of KSEG0 and KSEG1 away again. -/
theorem segmentMirrorsAgree : Obligations.SegmentMirrorsAgree := by
  intro a n s ha
  have hb0 : (a ||| 0x80000000#32).toNat = 0x80000000 + a.toNat := or_segmentBase_toNat ha (k := 4) (by omega)
  have hb1 : (a ||| 0xA0000000#32).toNat = 0xA0000000 + a.toNat := or_segmentBase_toNat ha (k := 5) (by omega)
  have hkuseg : physical a = a := physical_eq_of_physicalOf_eq <| by
    rw [physicalOf_eq, if_pos (by omega)]
  have hkseg0 : physical (a ||| 0x80000000#32) = a := physical_eq_of_physicalOf_eq <| by
    rw [physicalOf_eq, hb0, if_neg (by omega), if_pos (by omega), Nat.add_sub_cancel_left]
  have hkseg1 : physical (a ||| 0xA0000000#32) = a := physical_eq_of_physicalOf_eq <| by
    rw [physicalOf_eq, hb1, if_neg (by omega), if_neg (by omega), if_pos (by omega), Nat.add_sub_cancel_left]
  refine ⟨hkuseg, hkseg0, hkseg1, fun hm hal => ?_⟩
  have hm' : isMemoryAddress (physicalOf a) = true := by rwa [physicalOf, hkuseg]
  exact ⟨memRead_of_physical_eq s (hkseg0.trans hkuseg.symm) hm' hal,
    memRead_of_physical_eq s (hkseg1.trans hkuseg.symm) hm' hal⟩

/-! ## RAM and SCRATCH as a byte store (R64 to R66) -/

section Storage

variable {s : State} {a : Word} {r : Range}

theorem memRead_byteAt (hr : classify (physicalOf a) = some r) (hk : kindOf r.dev ≠ .external) :
    memRead s a .byte = .ok ((s.byteAt (physicalOf a)).setWidth 32) s := by
  rw [memRead_memory s a .byte r (aligned_byte a) hr hk, bytesOf, readLE_one]; rfl

theorem memRead_halfAt (ha : a.toNat % 2 = 0) (hr : classify (physicalOf a) = some r) (hk : kindOf r.dev ≠ .external) :
    memRead s a .half = .ok ((s.halfAt (physicalOf a)).setWidth 32) s := by
  rw [memRead_memory s a .half r (aligned_of_mod ha) hr hk, bytesOf, readLE_two]; rfl

theorem memRead_wordAt (ha : a.toNat % 4 = 0) (hr : classify (physicalOf a) = some r) (hk : kindOf r.dev ≠ .external) :
    memRead s a .word = .ok (s.wordAt (physicalOf a)) s := by
  rw [memRead_memory s a .word r (aligned_of_mod ha) hr hk, bytesOf, readLE_four]; rfl

end Storage

/-- Settles O44: the load finds the four bytes that the store left. -/
theorem storeThenLoadGivesTheWord : Obligations.StoreThenLoadGivesTheWord := by
  intro f d s r hi hm hr hk ha
  have hw := memWrite_storage s _ (s.x f.rt) .word r (aligned_of_mod ha) hr hk
  refine ⟨_, _, storeInstr_ok hi hw, loadInstr_ok hi (memRead_wordAt ha hr (by simp [hk])), ?_⟩
  exact congrArg (fun v => some (d, v)) (wordAt_writeLE _ _ hm)

/-- Segment masking moves the four bytes of an aligned word alike. -/
theorem physicalOf_add {a : Word} (ha : a.toNat % 4 = 0) {k : Nat} (hk : k < 4) :
    (a + BitVec.ofNat 32 k).toNat = a.toNat + k ∧ physicalOf (a + BitVec.ofNat 32 k) = physicalOf a + k := by
  have hlt := a.isLt
  have hs : (a + BitVec.ofNat 32 k).toNat = a.toNat + k := by
    rw [BitVec.toNat_add, BitVec.toNat_ofNat]
    omega
  refine ⟨hs, ?_⟩
  rw [physicalOf_eq, physicalOf_eq, hs]
  split_ifs <;> omega

/-- Byte `k` of an aligned word of RAM or SCRATCH lies in the word's own window. -/
theorem classify_add {a : Word} {r : Range} (ha : a.toNat % 4 = 0) (hr : classify (physicalOf a) = some r)
    (hk : kindOf r.dev = .storage) {k : Nat} (hlt : k < 4) :
    classify (physicalOf (a + BitVec.ofNat 32 k)) = some r := by
  rw [(physicalOf_add ha hlt).2]
  exact storage_classify hr hk ((aligned_iff a .word).1 (aligned_of_mod ha)) (.inr (.inr rfl)) hlt

/-- What the word holds after a byte store to its byte 1. -/
theorem wordAt_writeLE_byteOne {s : State} (p : Nat) (v : Word) (hm : Memory.wf s.mem = true) :
    ({ s with mem := s.mem.writeLE (p + 1) 1 v } : State).wordAt p =
      s.byteAt (p + 3) ++ s.byteAt (p + 2) ++ v.extractLsb' 0 8 ++ s.byteAt p := by
  obtain ⟨-, hout⟩ := storesAt_writeLE s (p + 1) 1 v hm
  have hin := byteAt_writeLE (s := s) (p + 1) 1 0 v hm (by omega)
  rw [State.wordAt, hout (p + 3) (by omega), hout (p + 2) (by omega), hout p (by omega)]
  exact congrArg (fun b => s.byteAt (p + 3) ++ s.byteAt (p + 2) ++ b ++ s.byteAt p) hin

/-- What a word store leaves in its four bytes. -/
theorem memWrite_word_bytes {s : State} {a : Word} {r : Range} (v : Word) (hm : Memory.wf s.mem = true)
    (ha : a.toNat % 4 = 0) (hr : classify (physicalOf a) = some r) (hk : kindOf r.dev = .storage) :
    ∃ t, memWrite s a .word v = .ok () t ∧ Memory.wf t.mem = true ∧
      ∀ k < 4, t.byteAt (physicalOf a + k) = v.extractLsb' (8 * k) 8 :=
  ⟨_, memWrite_storage s a v .word r (aligned_of_mod ha) hr hk, Memory.writeLE_wf _ _ _ _ hm,
    fun _ hk => byteAt_writeLE _ _ _ v hm hk⟩

/-- Settles O45: the bytes 44, 33, 22, 11 stand in rising order, each load joins those it names, and the byte store
replaces the second. -/
theorem mixedWidthsAreLittleEndian : Obligations.MixedWidthsAreLittleEndian := by
  intro a s r hm ha hr hd
  have hk : kindOf r.dev = .storage := by rw [hd]; rfl
  have hx : kindOf r.dev ≠ .external := by simp [hk]
  have hrk : ∀ k < 4, classify (physicalOf (a + BitVec.ofNat 32 k)) = some r := fun _ => classify_add ha hr hk
  obtain ⟨-, hp1⟩ := physicalOf_add ha (k := 1) (by omega)
  obtain ⟨hn2, hp2⟩ := physicalOf_add ha (k := 2) (by omega)
  obtain ⟨-, hp3⟩ := physicalOf_add ha (k := 3) (by omega)
  obtain ⟨t, hw, hmt, hb⟩ := memWrite_word_bytes 0x11223344#32 hm ha hr hk
  have h0 : t.byteAt (physicalOf a) = 0x44#8 := hb 0 (by omega)
  have h1 : t.byteAt (physicalOf a + 1) = 0x33#8 := hb 1 (by omega)
  have h2 : t.byteAt (physicalOf a + 2) = 0x22#8 := hb 2 (by omega)
  have h3 : t.byteAt (physicalOf a + 3) = 0x11#8 := hb 3 (by omega)
  have hpatch := memWrite_storage t (a + 1#32) 0xAB#32 .byte r (aligned_byte _) (hrk 1 (by omega)) hk
  rw [← physicalOf, hp1] at hpatch
  refine ⟨t, _, hw, ?byte0, ?byte1, ?byte3, ?half0, ?half2, hpatch, ?word⟩
  case byte0 => rw [memRead_byteAt hr hx, h0]; rfl
  case byte1 => rw [memRead_byteAt (hrk 1 (by omega)) hx, hp1, h1]; rfl
  case byte3 => rw [memRead_byteAt (hrk 3 (by omega)) hx, hp3, h3]; rfl
  case half0 => rw [memRead_halfAt (by omega) hr hx, State.halfAt, h1, h0]; rfl
  case half2 => rw [memRead_halfAt (by omega) (hrk 2 (by omega)) hx, hp2, State.halfAt, h3, h2]; rfl
  case word => rw [memRead_wordAt ha hr hx, bytesOf, wordAt_writeLE_byteOne _ _ hmt, h3, h2, h0]; rfl

/-! ## What a step does to memory (R67, R70, R79) -/

/-- A step leaves memory alone, or leaves in it what its instruction left, which began with the step's memory and SR. -/
theorem step_mem {s s' : State} (h : step s = .next s') :
    s'.mem = s.mem ∨ ∃ i e u, decode s.nextInstr = .ok i ∧ exec i e = .next u ∧ e.mem = s.mem ∧ e.sr = s.sr ∧
      s'.mem = u.mem := by
  obtain ⟨-, ⟨r, -, rfl⟩ | ⟨fetched, t, u, hf, hx, rfl⟩⟩ := step_next h
  · exact .inl rfl
  · obtain ⟨i, hi, he⟩ | rfl := execute_next hx
    · refine .inr ⟨i, _, u, hi, he, ?_, ?_, endStep_mem u⟩ <;> rw [fetch_same hf] <;> simp
    · refine .inl ?_
      rw [fetch_same hf]
      simp

/-- Settles O46: whatever the instruction stored, it stored outside BIOS. -/
theorem biosNeverChanges : Obligations.BiosNeverChanges := by
  intro s s' hm h p hp
  rw [State.byteAt, State.byteAt]
  obtain hmem | ⟨i, e, u, -, he, hem, -, hmem⟩ := step_mem h
  · rw [hmem]
  · rw [hmem, ← hem]
    exact (exec_frame he).readOnly (hem ▸ hm) p hp

/-- Settles O47: a change of memory is the instruction's, which finds the SR of the state before the step. -/
theorem memoryChangesOnlyByUnisolatedStores : Obligations.MemoryChangesOnlyByUnisolatedStores := by
  intro s s' h hne
  obtain hmem | ⟨i, e, u, hi, he, hem, hsr, hmem⟩ := step_mem h
  · exact absurd hmem hne
  · obtain ⟨hst, hiso, -⟩ := (exec_frame he).mem (by rwa [← hmem, hem])
    exact ⟨hsr ▸ hiso, i, hi, hst⟩

end Sys2Proof.Machine
end

section
/-! PROOFS. The encoding (30_encoding.md): the decoder's four tables by the fields of a word, the round trips between words
and instructions in both directions, and the words that name no instruction. -/

namespace Sys2Proof

/-! ## Fields of a word (R91) -/

/-- A field of a field. -/
theorem field_field {n : Nat} (v : BitVec n) (start len start' len' : Nat) (h : start' + len' ≤ len) :
    (v.extractLsb' start len).extractLsb' start' len' = v.extractLsb' (start + start') len' := by
  ext k hk
  simp only [BitVec.getElem_extractLsb', BitVec.getLsbD_extractLsb', Nat.add_assoc]
  simp only [show start' + k < len by omega, decide_true, Bool.true_and]

/-- Two neighbouring fields are one field. -/
theorem field_join {n start start' len len' : Nat} (v : BitVec n) (h : start' = start + len) :
    v.extractLsb' start' len' ++ v.extractLsb' start len = v.extractLsb' start (len' + len) :=
  BitVec.extractLsb'_append_extractLsb'_eq_extractLsb' h

/-- Bit 25, which tells the CO forms from the others, is the top bit of `cop` (R101). -/
theorem coBit_eq_copOf (w : Word) : w.extractLsb' 25 1 = (copOf w).extractLsb' 4 1 :=
  (field_field w 21 5 4 1 (by decide)).symm

/-- `cop` is bit 25 and the four bits below it. -/
theorem copOf_eq_coBit_append (w : Word) : copOf w = w.extractLsb' 25 1 ++ w.extractLsb' 21 4 :=
  (field_join (start := 21) (len := 4) (start' := 25) (len' := 1) w rfl).symm

@[simp] theorem copOf_encodeI (op : BitVec 6) (g : IType) : copOf (encodeI op g) = g.rs := rsOf_encodeI op g

/-! The words of SYSCALL and BREAK, whose bits 25:6 are one field (R266, R267). -/

section CodeWord
variable (code : BitVec 20) (fn : BitVec 6)

@[simp] theorem opOf_codeWord : opOf (0x00#6 ++ code ++ fn) = 0x00#6 :=
  (field_upper (0x00#6 ++ code) fn 26 6 (by decide)).trans
    ((field_upper 0x00#6 code 20 6 (by decide)).trans (field_all _))

@[simp] theorem functOf_codeWord : functOf (0x00#6 ++ code ++ fn) = fn :=
  (field_lower (0x00#6 ++ code) fn 0 6 (by decide)).trans (field_all fn)

@[simp] theorem code_codeWord : (0x00#6 ++ code ++ fn : Word).extractLsb' 6 20 = code :=
  (field_upper (0x00#6 ++ code) fn 6 20 (by decide)).trans
    ((field_lower 0x00#6 code 0 20 (by decide)).trans (field_all code))

end CodeWord

/-! The words of RFE, whose bits 20:6 are one field (R263). -/

section RfeWord
variable (mid : BitVec 15)

theorem opOf_rfeWord : opOf (0x10#6 ++ 16#5 ++ mid ++ 0x10#6) = 0x10#6 :=
  (field_upper (0x10#6 ++ 16#5 ++ mid) 0x10#6 26 6 (by decide)).trans
    (field_upper (0x10#6 ++ 16#5) mid 20 6 (by decide))

theorem copOf_rfeWord : copOf (0x10#6 ++ 16#5 ++ mid ++ 0x10#6) = 16#5 :=
  (field_upper (0x10#6 ++ 16#5 ++ mid) 0x10#6 21 5 (by decide)).trans
    (field_upper (0x10#6 ++ 16#5) mid 15 5 (by decide))

theorem coBit_rfeWord : (0x10#6 ++ 16#5 ++ mid ++ 0x10#6 : Word).extractLsb' 25 1 = 1#1 :=
  (coBit_eq_copOf _).trans (congrArg (BitVec.extractLsb' 4 1) (copOf_rfeWord mid))

theorem functOf_rfeWord : functOf (0x10#6 ++ 16#5 ++ mid ++ 0x10#6) = 0x10#6 :=
  field_lower (0x10#6 ++ 16#5 ++ mid) 0x10#6 0 6 (by decide)

theorem mid_rfeWord : (0x10#6 ++ 16#5 ++ mid ++ 0x10#6 : Word).extractLsb' 6 15 = mid :=
  (field_upper (0x10#6 ++ 16#5 ++ mid) 0x10#6 6 15 (by decide)).trans
    ((field_lower (0x10#6 ++ 16#5) mid 0 15 (by decide)).trans (field_all mid))

end RfeWord

/-! The words of the other CO forms, whose bits 24:0 are one field (R263). -/

section CoWord
variable (low : BitVec 25)

theorem opOf_coWord : opOf (0x10#6 ++ 1#1 ++ low) = 0x10#6 :=
  field_upper (0x10#6 ++ 1#1) low 26 6 (by decide)

theorem coBit_coWord : (0x10#6 ++ 1#1 ++ low : Word).extractLsb' 25 1 = 1#1 :=
  field_upper (0x10#6 ++ 1#1) low 25 1 (by decide)

theorem low_coWord : (0x10#6 ++ 1#1 ++ low : Word).extractLsb' 0 25 = low :=
  (field_lower (0x10#6 ++ 1#1) low 0 25 (by decide)).trans (field_all low)

end CoWord

/-! ## A word from its fields (R92) -/

section FromFields
variable {w : Word}

theorem encodeJ_targetOf {op : BitVec 6} (hop : opOf w = op) : encodeJ op (targetOf w) = w := hop ▸ encodeJ_fields w

theorem encodeI_ofWord {op : BitVec 6} (hop : opOf w = op) : encodeI op (IType.ofWord w) = w := hop ▸ encodeI_fields w

theorem encodeR_ofWord {op fn : BitVec 6} (hop : opOf w = op) (hfn : functOf w = fn) :
    encodeR op (RType.ofWord w) fn = w := hop ▸ hfn ▸ encodeR_fields w

theorem encodeRegimm_fields {sel : BitVec 5} (hop : opOf w = 0x01#6) (hrt : rtOf w = sel) :
    encodeRegimm sel (rsOf w) (immOf w) = w := hrt ▸ encodeI_ofWord hop

theorem encodeBc0_fields (hop : opOf w = 0x10#6) (hcop : copOf w = 8#5) :
    encodeI 0x10#6 ⟨8#5, rtOf w, immOf w⟩ = w := hcop ▸ encodeI_ofWord hop

theorem codeWord_fields {fn : BitVec 6} (hop : opOf w = 0x00#6) (hfn : functOf w = fn) :
    0x00#6 ++ w.extractLsb' 6 20 ++ fn = w := by
  have h : opOf w ++ w.extractLsb' 6 20 = w.extractLsb' 6 26 := field_join w rfl
  rw [← hop, ← hfn, h]
  exact (field_join w rfl).trans (field_all w)

theorem encodeCop_ofWord {cop : BitVec 5} (hop : opOf w = 0x10#6) (hcop : copOf w = cop) :
    encodeCop cop (CopType.ofWord w) = w := by
  have h1 : opOf w ++ copOf w = w.extractLsb' 21 11 := field_join w rfl
  have h2 : w.extractLsb' 21 11 ++ rtOf w = w.extractLsb' 16 16 := field_join w rfl
  have h3 : w.extractLsb' 16 16 ++ rdOf w = w.extractLsb' 11 21 := field_join w rfl
  calc encodeCop cop (CopType.ofWord w)
      = opOf w ++ copOf w ++ rtOf w ++ rdOf w ++ w.extractLsb' 0 11 := by rw [hop, hcop]; rfl
    _ = w.extractLsb' 11 21 ++ w.extractLsb' 0 11 := by rw [h1, h2, h3]
    _ = w := (field_join w rfl).trans (field_all w)

theorem rfeWord_fields (hop : opOf w = 0x10#6) (hcop : copOf w = 16#5) (hfn : functOf w = 0x10#6) :
    0x10#6 ++ 16#5 ++ w.extractLsb' 6 15 ++ 0x10#6 = w := by
  have h1 : opOf w ++ copOf w = w.extractLsb' 21 11 := field_join w rfl
  have h2 : w.extractLsb' 21 11 ++ w.extractLsb' 6 15 = w.extractLsb' 6 26 := field_join w rfl
  calc 0x10#6 ++ 16#5 ++ w.extractLsb' 6 15 ++ 0x10#6
      = opOf w ++ copOf w ++ w.extractLsb' 6 15 ++ functOf w := by rw [hop, hcop, hfn]
    _ = w.extractLsb' 6 26 ++ functOf w := by rw [h1, h2]
    _ = w := (field_join w rfl).trans (field_all w)

theorem coWord_fields (hop : opOf w = 0x10#6) (hco : w.extractLsb' 25 1 = 1#1) :
    0x10#6 ++ 1#1 ++ w.extractLsb' 0 25 = w := by
  have h : opOf w ++ w.extractLsb' 25 1 = w.extractLsb' 25 7 := field_join w rfl
  rw [← hop, ← hco, h]
  exact (field_join w rfl).trans (field_all w)

end FromFields

/-! ## The decoder's tables (R97 to R101) -/

/-- At the default `DISPATCH_SET` no row is left out (R98). -/
theorem decode_eq_decodeRow (w : Word) : decode w = decodeRow w := by
  cases h : decodeRow w with
  | ok i => simp [decode, h, Config.dispatchSet, Instr.leftOut]
  | error e => simp [decode, h]

section Tables
variable {w : Word}

theorem decode_special (hop : opOf w = 0x00#6) : decode w = decodeSpecial w := by
  simp [decode_eq_decodeRow, decodeRow, hop]

theorem decode_regimm (hop : opOf w = 0x01#6) : decode w = decodeRegimm .canonical w := by
  simp [decode_eq_decodeRow, decodeRow, hop, Config.regimmDecode]

theorem decode_cop0 (hop : opOf w = 0x10#6) : decode w = decodeCop0 w := by
  simp [decode_eq_decodeRow, decodeRow, hop]

theorem decode_co (hop : opOf w = 0x10#6) (hco : w.extractLsb' 25 1 = 1#1) : decode w = .ok (decodeCo w) := by
  simp [decode_cop0 hop, decodeCop0, hco]

/-- Among the CO forms, RFE is the one with cop = 16 and function 0x10 (R101, R263). -/
theorem isRfeLow_iff (hco : w.extractLsb' 25 1 = 1#1) :
    isRfeLow (w.extractLsb' 0 25) = true ↔ copOf w = 16#5 ∧ functOf w = 0x10#6 := by
  have hcop : ∀ x : BitVec 4, 1#1 ++ x = 16#5 ↔ x = 0#4 := by decide
  rw [copOf_eq_coBit_append, hco, hcop]
  simp [isRfeLow, field_field, functOf]

end Tables

/-! ## Decoding an encoded instruction -/

theorem wellFormed_cop0Co {low : BitVec 25} : (Instr.cop0Co low).WellFormed ↔ ¬ isRfeLow low = true := by
  simp [Instr.WellFormed, Instr.wellFormed]

theorem decode_encode_rfe (mid : BitVec 15) : decode (encode (.rfe mid)) = .ok (.rfe mid) := by
  have hrfe := (isRfeLow_iff (coBit_rfeWord mid)).mpr ⟨copOf_rfeWord mid, functOf_rfeWord mid⟩
  rw [encode, decode_co (opOf_rfeWord mid) (coBit_rfeWord mid), decodeCo, if_pos hrfe, mid_rfeWord]

theorem decode_encode_cop0Co {low : BitVec 25} (h : (Instr.cop0Co low).WellFormed) :
    decode (encode (.cop0Co low)) = .ok (.cop0Co low) := by
  rw [encode, decode_co (opOf_coWord low) (coBit_coWord low), decodeCo, low_coWord, if_neg (wellFormed_cop0Co.mp h)]

/-- Settles O30: format by format, the fields of the encoded word select its row of the tables and give its operands back. -/
theorem decodeOfEncode : Obligations.DecodeOfEncode := by
  intro i h
  cases i with
  | sll f | srl f | sra f | sllv f | srlv f | srav f | jr f | jalr f | mfhi f | mthi f | mflo f | mtlo f
  | mult f | multu f | div f | divu f | add f | addu f | sub f | subu f | and f | or f | xor f | nor f
  | slt f | sltu f =>
    simp [encode, decode_special, decodeSpecial]
  | syscall code | brk code => simp [encode, decode_special, decodeSpecial]
  | j t | jal t | cop1 t | cop2 t | cop3 t => simp [encode, decode_eq_decodeRow, decodeRow]
  | beq f | bne f | blez f | bgtz f | addi f | addiu f | slti f | sltiu f | andi f | ori f | xori f | lui f
  | lb f | lh f | lwl f | lw f | lbu f | lhu f | lwr f | sb f | sh f | swl f | sw f | swr f
  | lwc0 f | lwc1 f | lwc2 f | lwc3 f | swc0 f | swc1 f | swc2 f | swc3 f =>
    simp [encode, decode_eq_decodeRow, decodeRow]
  | bltz rs imm | bgez rs imm | bltzal rs imm | bgezal rs imm =>
    simp [encode, encodeRegimm, decode_regimm, decodeRegimm]
  | mfc0 f | mtc0 f | cfc0 f | ctc0 f => simp [encode, decode_cop0, decodeCop0, coBit_eq_copOf]
  | bc0 rt imm => simp [encode, decode_cop0, decodeCop0, coBit_eq_copOf]
  | rfe mid => exact decode_encode_rfe mid
  | cop0Co low => exact decode_encode_cop0Co h

/-! ## Encoding a decoded word -/

section Decoded
variable {w : Word} {i : Instr}

theorem encode_of_decodeSpecial (hop : opOf w = 0x00#6) (h : decodeSpecial w = .ok i) : encode i = w ∧ i.WellFormed := by
  unfold decodeSpecial at h
  split at h
  case h_29 => cases h
  case h_9 hfn | h_10 hfn => cases h; exact ⟨codeWord_fields hop hfn, rfl⟩
  all_goals cases h; exact ⟨encodeR_ofWord hop ‹_›, rfl⟩

theorem encode_of_decodeRegimm (hop : opOf w = 0x01#6) (h : decodeRegimm .canonical w = .ok i) :
    encode i = w ∧ i.WellFormed := by
  rw [decodeRegimm] at h
  split at h
  case h_5 => cases h
  all_goals cases h; exact ⟨encodeRegimm_fields hop ‹_›, rfl⟩

theorem encode_decodeCo (hop : opOf w = 0x10#6) (hco : w.extractLsb' 25 1 = 1#1) :
    encode (decodeCo w) = w ∧ (decodeCo w).WellFormed := by
  unfold decodeCo
  split
  case isTrue hrfe =>
    obtain ⟨hcop, hfn⟩ := (isRfeLow_iff hco).mp hrfe
    exact ⟨rfeWord_fields hop hcop hfn, rfl⟩
  case isFalse hrfe => exact ⟨coWord_fields hop hco, wellFormed_cop0Co.mpr hrfe⟩

theorem encode_of_decodeCop0 (hop : opOf w = 0x10#6) (h : decodeCop0 w = .ok i) : encode i = w ∧ i.WellFormed := by
  unfold decodeCop0 at h
  split at h
  case isTrue hco => cases h; exact encode_decodeCo hop hco
  case isFalse =>
    split at h
    case h_6 => cases h
    case h_5 hcop => cases h; exact ⟨encodeBc0_fields hop hcop, rfl⟩
    all_goals cases h; exact ⟨encodeCop_ofWord hop ‹_›, rfl⟩

end Decoded

/-- Settles O31: in each row the bits that select it and the bits of its operands make up the whole word. -/
theorem encodeOfDecode : Obligations.EncodeOfDecode := by
  intro w i h
  rw [decode_eq_decodeRow, decodeRow] at h
  split at h
  case h_1 hop => exact encode_of_decodeSpecial hop h
  case h_2 hop => exact encode_of_decodeRegimm hop h
  case h_17 hop => exact encode_of_decodeCop0 hop h
  case h_3 | h_4 | h_18 | h_19 | h_20 => cases h; exact ⟨encodeJ_targetOf ‹_›, rfl⟩
  case h_41 => cases h
  all_goals cases h; exact ⟨encodeI_ofWord ‹_›, rfl⟩

/-! ## Words that name no instruction -/

/-- The unassigned primary opcodes (R97). -/
def UnassignedOp (op : BitVec 6) : Prop :=
  (0x14 ≤ op.toNat ∧ op.toNat ≤ 0x1F) ∨ op = 0x27#6 ∨ op = 0x2C#6 ∨ op = 0x2D#6 ∨ op = 0x2F#6 ∨
    (0x34 ≤ op.toNat ∧ op.toNat ≤ 0x37) ∨ 0x3C ≤ op.toNat

/-- The unassigned SPECIAL functions (R99). -/
def UnassignedFunct (fn : BitVec 6) : Prop :=
  fn.toNat ∈ [1, 5, 10, 11, 14, 15, 20, 21, 22, 23, 28, 29, 30, 31, 40, 41] ∨ 44 ≤ fn.toNat

/-- The unassigned REGIMM selectors (R100). -/
def UnassignedSelector (sel : BitVec 5) : Prop := sel.toNat ∉ [0, 1, 16, 17]

section Unassigned
variable {w : Word}

theorem decode_unassignedOp (h : UnassignedOp (opOf w)) : decode w = .error (.unassignedOp (opOf w)) := by
  rw [decode_eq_decodeRow, decodeRow]
  split
  case h_41 => rfl
  all_goals rename_i hop; simp [UnassignedOp, hop] at h

theorem decode_unassignedFunct (hop : opOf w = 0x00#6) (h : UnassignedFunct (functOf w)) :
    decode w = .error (.unassignedFunct (functOf w)) := by
  rw [decode_special hop, decodeSpecial]
  split
  case h_29 => rfl
  all_goals rename_i hfn; simp [UnassignedFunct, hfn] at h

theorem decode_unassignedSelector (hop : opOf w = 0x01#6) (h : UnassignedSelector (rtOf w)) :
    decode w = .error (.unassignedRegimm (rtOf w)) := by
  rw [decode_regimm hop, decodeRegimm]
  split
  case h_5 => rfl
  all_goals rename_i hrt; simp [UnassignedSelector, hrt] at h

end Unassigned

end Sys2Proof

namespace Sys2Proof.Machine

/-- A word that names no instruction stops the machine (R95, R102; 60_exceptions.md R282). -/
theorem execute_of_decode_error {w : Word} {e : DecodeError} (h : decode w = .error e) (s : State) :
    ∃ t, execute w s = .next t ∧ HaltsWith s t (.unimplemented w) w := by
  obtain ⟨i, hi, -⟩ | ⟨-, -, hx⟩ := execute_cases w s
  · rw [h] at hi
    cases hi
  · exact ⟨_, hx, rfl⟩

/-- Settles O29: each of the three tables rejects its unassigned entries, and a rejected word stops the machine. -/
theorem unassignedWordsHalt : Obligations.UnassignedWordsHalt := by
  intro w s h
  have hw : UnassignedOp (opOf w) ∨ (opOf w = 0x00#6 ∧ UnassignedFunct (functOf w)) ∨
      (opOf w = 0x01#6 ∧ UnassignedSelector (rtOf w)) := by
    simpa only [UnassignedOp, UnassignedFunct, UnassignedSelector, or_assoc] using h
  have hrej : ∃ e, decode w = .error e := by
    obtain hop | ⟨hop, hfn⟩ | ⟨hop, hrt⟩ := hw
    · exact ⟨_, decode_unassignedOp hop⟩
    · exact ⟨_, decode_unassignedFunct hop hfn⟩
    · exact ⟨_, decode_unassignedSelector hop hrt⟩
  obtain ⟨e, he⟩ := hrej
  exact ⟨⟨e, he⟩, execute_of_decode_error he s⟩

end Sys2Proof.Machine
end

section
/-! PROOFS. The cycle (40_pipeline_cycle.md): a step as its phases, the fatal conditions of each phase, what the latch and
`pc` hold after a step, and the load-delay slot. -/

namespace Sys2Proof.Machine

/-! ## A step from its phases (R120) -/

section Phases
variable {s t u : State} {w : Word} {i : Instr} {r : FatalReason}

theorem step_of_fetch_fatal (hr : s.running) (hf : fetch s = .fatal r) : step s = .next (s.raiseInFetch r) := by
  simp [step, hr, hf]

theorem step_of_execute (hr : s.running) (hf : fetch s = .ok w t)
    (hx : execute s.nextInstr (enterExecute t w) = .next u) : step s = .next u.endStep := by
  simp [step, hr, hf, runLatched, hx]

theorem execute_of_decode (h : decode w = .ok i) : execute w s = exec i s := by simp [execute, h]

/-- A word stops in neither a fault nor a refusal: its instruction answers a next state, or it names none and halts. -/
theorem execute_total (w : Word) (s : State) : ∃ t, execute w s = .next t := by
  obtain ⟨i, -, he⟩ | ⟨-, -, he⟩ := execute_cases w s
  · exact he ▸ exec_next i s
  · exact ⟨_, he⟩

theorem execute_nextInstr (h : execute w s = .next t) : t.nextInstr = s.nextInstr := by
  obtain ⟨i, -, he⟩ | rfl := execute_next h
  · exact (exec_frame he).nextInstr
  · rfl

theorem execute_history (h : execute w s = .next t) : s.history <+: t.history := by
  obtain ⟨i, -, he⟩ | rfl := execute_next h
  · exact exec_history he
  · exact List.prefix_rfl

/-- A word that halts the machine stores nothing (R132). -/
theorem execute_mem_of_halted (h : execute w s = .next t) (hs : s.running) (ht : ¬t.running) : t.mem = s.mem := by
  obtain ⟨i, -, he⟩ | rfl := execute_next h
  · by_contra hne
    obtain ⟨-, -, hh⟩ := (exec_frame he).mem hne
    exact ht (hh.trans hs)
  · rfl

theorem enterExecute_eq (hf : fetch s = .ok w t) : enterExecute t w =
    { t with nextInstr := w, pc := s.pc + 4#32, output := s.resolveLoad.output, load := none } := by
  rw [fetch_same hf]
  cases hl : s.load <;> simp [enterExecute, State.resolveLoad, State.latch, State.setReg, hl]

end Phases

/-- Settles O33: the state that `exec` is given is the one in which the load resolve leaves the machine. -/
theorem stepRunsTheDecodedInstruction : Obligations.StepRunsTheDecodedInstruction := by
  intro s t v fetched i hr hf hi he
  have hx : execute s.nextInstr (enterExecute t fetched) = .next v := by
    rw [execute_of_decode hi, enterExecute_eq hf]
    cases hl : s.load <;> simpa [State.resolveLoad, hl] using he
  rw [step_of_execute hr hf hx]
  exact ⟨fun hv => by rw [endStep_running hv]; rfl, fun r hv => by rw [endStep_halted hv]⟩

/-- Settles O37: the fetch stops the step in a next state, or the latched word answers one. -/
theorem stepsExactlyWhileRunning : Obligations.StepsExactlyWhileRunning := by
  refine ⟨fun s hr => ?_, fun s r hh => by simp [step, hh]⟩
  cases hf : fetch s with
  | fatal r => exact ⟨_, step_of_fetch_fatal hr hf⟩
  | ok w t =>
    obtain ⟨u, hx⟩ := execute_total s.nextInstr (enterExecute t w)
    exact ⟨_, step_of_execute hr hf hx⟩

/-! ## Fatal conditions (R131, R132) -/

/-- Settles O35: the fetch is a load of a word at `pc`, and its three ways to fail are those of every load. -/
theorem fetchFatalChangesNothing : Obligations.FetchFatalChangesNothing := by
  intro s hr
  refine ⟨fun r hf => step_of_fetch_fatal hr hf, fun h4 => ?unaligned, fun h4 hc => ?unmapped,
    fun d h4 hc hk hacc => ?refused⟩
  case unaligned => exact memRead_misaligned s _ _ (not_aligned_of_mod h4)
  case unmapped => exact memRead_unmapped s _ _ (aligned_of_mod h4) hc
  case refused => exact (memRead_external s _ .word d (aligned_of_mod h4) hc hk).trans (if_neg (Bool.eq_false_iff.1 hacc))

/-- Settles O36: the fetch stores nothing, and neither does a word that halts the machine. -/
theorem fatalStepKeepsMemory : Obligations.FatalStepKeepsMemory := by
  intro s s' h hh
  obtain ⟨hr, ⟨r, -, rfl⟩ | ⟨w, t, u, hf, hx, rfl⟩⟩ := step_next h
  · rfl
  · have hu : ¬u.running := by rwa [State.running, endStep_halted_field] at hh
    have hmem : (enterExecute t w).mem = s.mem := by rw [fetch_same hf]; simp
    have hrun : (enterExecute t w).halted = none := by rw [fetch_same hf]; simpa using hr
    rw [endStep_mem, execute_mem_of_halted hx hrun hu, hmem]

/-! ## The latch and `pc` (R121, R122) -/

/-- A fetch from RAM, SCRATCH or BIOS reads the word at `pc`. -/
theorem fetch_wordAt {s t : State} {w : Word} (hm : isMemoryAddress (physicalOf s.pc) = true)
    (hf : fetch s = .ok w t) : w = s.wordAt (physicalOf s.pc) := by
  obtain ⟨r, hr, hk⟩ := classify_of_isMemoryAddress hm
  obtain ⟨ha, -⟩ := memRead_ok hf
  have hread := memRead_wordAt (s := s) (by simpa [aligned, bytesOf] using ha) hr hk
  injection hf.symm.trans hread

/-- A step whose fetch answered a word latches it, and its history continues that of the fetch. -/
theorem step_of_fetch {s t : State} {w : Word} (hr : s.running) (hf : fetch s = .ok w t) :
    ∃ s', step s = .next s' ∧ s'.nextInstr = w ∧ t.history <+: s'.history := by
  obtain ⟨u, hx⟩ := execute_total s.nextInstr (enterExecute t w)
  refine ⟨_, step_of_execute hr hf hx, ?_, ?_⟩
  · rw [endStep_nextInstr, execute_nextInstr hx, enterExecute_nextInstr]
  · simpa using execute_history hx

/-- Settles O34: execution leaves the latch alone and only adds to the history, so both are the fetch's. -/
theorem latchHoldsTheWordFetchedBeforeExecution : Obligations.LatchHoldsTheWordFetchedBeforeExecution := by
  constructor
  case left =>
    intro s s' hm h hr
    obtain ⟨w, t, i, u, hf, -, he, rfl⟩ := step_running h hr
    calc u.commit.nextInstr = (enterExecute t w).nextInstr := (exec_frame he).nextInstr
      _ = w := enterExecute_nextInstr t w
      _ = s.wordAt (physicalOf s.pc) := fetch_wordAt hm hf
  case right =>
    intro s d hr h4 hc hk off answer seen
    have hread := memRead_external s _ .word d (aligned_of_mod h4) hc hk
    split_ifs with hacc
    · have hf : fetch s = .ok answer { s with history := seen } := hread.trans (if_pos hacc)
      obtain ⟨s', hstep, hlatch, rest, hrest⟩ := step_of_fetch hr hf
      exact ⟨hf, s', rest, hstep, hrest.symm, fun _ => hlatch⟩
    · exact step_of_fetch_fatal hr (hread.trans (if_neg hacc))

/-- Settles O51: the fetch advances `pc` by 4, and an instruction that is no branch or jump leaves it there. -/
theorem pcAdvancesByFour : Obligations.PcAdvancesByFour := by
  intro s s' h hr hne
  obtain ⟨w, t, i, u, hf, hi, he, rfl⟩ := step_running h hr
  refine ⟨i, hi, ?_⟩
  by_contra hc
  have hpc : u.pc = (enterExecute t w).pc := (exec_frame he).pc (by simpa using hc)
  rw [enterExecute_eq hf] at hpc
  exact hne hpc

/-! ## The load-delay slot (R123, R135) -/

/-- Settles O53: the load resolve puts the pending value into the output bank, and the instruction leaves it there. -/
theorem pendingLoadIsCommitted : Obligations.PendingLoadIsCommitted := by
  intro s s' j v h hr hl hj hd
  obtain ⟨w, t, i, u, hf, hi, he, rfl⟩ := step_running h hr
  calc u.commit.x j = (enterExecute t w).xo j := (exec_frame he).output j (hd i hi)
    _ = s.resolveLoad.xo j := enterExecute_xo hf j
    _ = v := by simp [State.resolveLoad_xo, hl, hj]

section DirectResult
variable {s t u : State} {o : Bank} {d : RegIdx}

/-- A direct write gives its register one value, whatever the output bank held before. -/
theorem setReg_xo_self (v : Word) : (State.setReg { s with output := o } d v).xo d = (s.setReg d v).xo d := by
  by_cases hd : d = 0#5
  · simp [hd]
  · simp [State.setReg_xo, hd]

theorem checkedWrite_sameResult {c : Bool} {w v : Word} (ht : checkedWrite c w d v s = .next t)
    (hu : checkedWrite c w d v { s with output := o } = .next u) (hr : t.running) : u.xo d = t.xo d := by
  cases c with
  | true =>
    rw [next_eq ht] at hr
    cases hr
  | false =>
    rw [next_eq ht, next_eq hu]
    exact setReg_xo_self v

theorem branchLinkIf_sameResult {c : Bool} {imm : BitVec 16} (ht : branchLinkIf c imm s = .next t)
    (hu : branchLinkIf c imm { s with output := o } = .next u) : u.xo 31#5 = t.xo 31#5 := by
  cases c with
  | true =>
    rw [next_eq ht, next_eq hu]
    exact setReg_xo_self s.pc
  | false =>
    rw [next_eq ht, next_eq hu]
    exact setReg_xo_self s.pc

/-- An instruction computes its direct result from the committed bank, HI, LO and `pc` (R124), so that two runs from states
that differ in the output bank alone leave one value in its direct destination. -/
theorem exec_sameResult {i : Instr} (hd : directDest i = some d) (ht : exec i s = .next t)
    (hu : exec i { s with output := o } = .next u) (hr : t.running) : u.xo d = t.xo d := by
  cases i with
  | add _ | sub _ | addi _ => cases hd; exact checkedWrite_sameResult ht hu hr
  | bltzal _ _ | bgezal _ _ => cases hd; exact branchLinkIf_sameResult ht hu
  | addu _ | subu _ | and _ | or _ | xor _ | nor _ | slt _ | sltu _ | sll _ | srl _ | sra _ | sllv _ | srlv _ | srav _
  | addiu _ | slti _ | sltiu _ | andi _ | ori _ | xori _ | lui _ | mfhi _ | mflo _ | jal _ | jalr _ =>
    cases hd
    rw [next_eq ht, next_eq hu]
    exact setReg_xo_self _
  | _ => cases hd

end DirectResult

/-- The fetch neither reads nor writes the slot. -/
theorem fetch_emptySlot {s t : State} {w : Word} (h : fetch s = .ok w t) :
    fetch { s with load := none } = .ok w { t with load := none } := by
  have hm := memRead_output s s.output none s.pc .word
  rw [fetch] at h
  rw [h] at hm
  exact hm.trans (by rw [(memRead_frame h).same])

/-- With nothing pending, the instruction finds the same state but for the output bank. -/
theorem enterExecute_emptySlot {s t : State} {w : Word} (h : fetch s = .ok w t) :
    enterExecute { t with load := none } w = { enterExecute t w with output := s.output } := by
  rw [enterExecute_eq (fetch_emptySlot h), enterExecute_eq h]
  rfl

/-- Settles O54: the step with nothing pending runs the instruction from another output bank, which its result ignores. -/
theorem directWriteInDelaySlotWins : Obligations.DirectWriteInDelaySlotWins := by
  intro s s' s'' j v i _ hi hd h hr h0
  have hrun : s.running := (step_next h).1
  obtain ⟨w, t, k, u, hf, hk, he, rfl⟩ := step_running h hr
  obtain rfl : i = k := by injection hi.symm.trans hk
  obtain ⟨u', he', hsame⟩ := exec_output i (enterExecute t w) s.output u he
  have hx : execute s.nextInstr (enterExecute { t with load := none } w) = .next u' := by
    rw [execute_of_decode hi, enterExecute_emptySlot hf, he']
  have hu' : u'.running := by rw [hsame.same]; exact hr
  have hstep := step_of_execute (s := { s with load := none }) hrun (fetch_emptySlot hf) hx
  rw [endStep_running hu'] at hstep
  rw [next_eq (hstep.symm.trans h0)]
  exact (exec_sameResult hd he he' hr).symm

end Sys2Proof.Machine
end

section
/-! PROOFS. Arithmetic, logic, compare and shift (41_alu.md): the rows of the decoder's tables, the register write, and
what each operation computes in terms of integers, of bits and of powers of two. -/

namespace Sys2Proof.Machine

/-! ## Rows of the decoder's tables (R97, R99) -/

/-- An instruction encoded under a SPECIAL function code is what every word with that code decodes to. -/
theorem specialFunct_of_encode {fn : BitVec 6} {c : RType → Instr} (hwf : ∀ f, (c f).WellFormed)
    (henc : ∀ f, encode (c f) = encodeR 0x00#6 f fn) : SpecialFunct fn c := by
  intro w hop hfn
  have h := decodeOfEncode (c (RType.ofWord w)) (hwf _)
  rwa [henc, encodeR_ofWord hop hfn] at h

/-- An I-type instruction encoded under a primary opcode is what every word with that opcode decodes to. -/
theorem primaryOp_of_encode {op : BitVec 6} {c : IType → Instr} (hwf : ∀ g, (c g).WellFormed)
    (henc : ∀ g, encode (c g) = encodeI op g) : PrimaryOp op c := by
  intro w hop
  have h := decodeOfEncode (c (IType.ofWord w)) (hwf _)
  rwa [henc, encodeI_ofWord hop] at h

/-! ## The register write (40_pipeline_cycle.md R127) -/

theorem writesReg_setReg (s : State) (d : RegIdx) (v : Word) : WritesReg s (s.setReg d v) d v :=
  ⟨rfl, fun j => State.setReg_xo s d j v⟩

/-- An answer that is one direct write writes any value equal to the one computed. -/
theorem writesReg_of_next {o : Outcome} {s : State} {d : RegIdx} {v w : Word} (ho : o = .next (s.setReg d w))
    (hv : w = v) : ∃ t, o = .next t ∧ WritesReg s t d v :=
  ⟨_, ho, hv ▸ writesReg_setReg s d w⟩

/-- An answer that is one direct write, of a value given by its bits. -/
theorem writesReg_bits_of_next {o : Outcome} {s : State} {d : RegIdx} {w : Word} {bit : Nat → Bool}
    (ho : o = .next (s.setReg d w)) (hbit : ∀ k < 32, w.getLsbD k = bit k) :
    ∃ t v, o = .next t ∧ WritesReg s t d v ∧ ∀ k < 32, v.getLsbD k = bit k :=
  ⟨_, w, ho, writesReg_setReg s d w, hbit⟩

/-! ## Immediates (30_encoding.md R93) -/

theorem simm_eq_ofInt (imm : BitVec 16) : simm imm = BitVec.ofInt 32 imm.toInt := rfl

theorem simm_toInt (imm : BitVec 16) : (simm imm).toInt = imm.toInt := BitVec.toInt_signExtend_of_le (by decide)

theorem zimm_getLsbD (imm : BitVec 16) {k : Nat} (hk : k < 32) : (zimm imm).getLsbD k = imm.getLsbD k := by
  simp [zimm, hk]

/-- LUI's value is the immediate above sixteen zeros. -/
theorem limm_getLsbD (imm : BitVec 16) (k : Nat) :
    (limm imm).getLsbD k = (decide (16 ≤ k) && imm.getLsbD (k - 16)) := by
  rw [limm, BitVec.getLsbD_append]
  split_ifs with hk
  · simp [show ¬ 16 ≤ k by omega]
  · simp [show 16 ≤ k by omega]

/-! ## Sums and differences of the integers two words stand for -/

theorem ofInt_sub {n : Nat} (a b : Int) : BitVec.ofInt n (a - b) = BitVec.ofInt n a - BitVec.ofInt n b := by
  rw [Int.sub_eq_add_neg, BitVec.ofInt_add, BitVec.ofInt_neg, BitVec.sub_eq_add_neg]

theorem ofInt_toNat (a : Word) : BitVec.ofInt 32 a.toNat = a := by
  rw [BitVec.ofInt_natCast, BitVec.ofNat_toNat, BitVec.setWidth_eq]

theorem add_eq_ofInt_toInt (a b : Word) : a + b = BitVec.ofInt 32 (a.toInt + b.toInt) := by
  rw [BitVec.ofInt_add, BitVec.ofInt_toInt, BitVec.ofInt_toInt]

theorem sub_eq_ofInt_toInt (a b : Word) : a - b = BitVec.ofInt 32 (a.toInt - b.toInt) := by
  rw [ofInt_sub, BitVec.ofInt_toInt, BitVec.ofInt_toInt]

theorem sub_eq_ofInt_toNat (a b : Word) : a - b = BitVec.ofInt 32 (a.toNat - b.toNat) := by
  rw [ofInt_sub, ofInt_toNat, ofInt_toNat]

theorem add_simm_eq_ofInt_toNat (a : Word) (imm : BitVec 16) :
    a + simm imm = BitVec.ofInt 32 (a.toNat + imm.toInt) := by
  rw [BitVec.ofInt_add, ofInt_toNat, simm_eq_ofInt]

/-- Settles O1: each is one write of a sum or difference of words, which is that of their integers modulo 2^32. -/
theorem wrappingArithmeticResults : Obligations.WrappingArithmeticResults := by
  refine ⟨?_, ?_, ?_, fun f g s => ⟨?addu, ?subu, ?addiu⟩⟩
  case addu => exact writesReg_of_next rfl (BitVec.add_def _ _)
  case subu => exact writesReg_of_next rfl (sub_eq_ofInt_toNat _ _)
  case addiu => exact writesReg_of_next rfl (add_simm_eq_ofInt_toNat _ _)
  · exact specialFunct_of_encode (fun _ => rfl) fun _ => rfl
  · exact specialFunct_of_encode (fun _ => rfl) fun _ => rfl
  · exact primaryOp_of_encode (fun _ => rfl) fun _ => rfl

/-! ## Signed overflow (R137) -/

theorem outsideSigned_iff (n : Int) : outsideSigned n = true ↔ ¬(-2 ^ 31 ≤ n ∧ n ≤ 2 ^ 31 - 1) := by
  simp only [outsideSigned, Bool.or_eq_true, decide_eq_true_eq]
  omega

/-- The model's test of a sum is the library's, which the library also reads by the sign bits. -/
theorem ovfAdd_eq_saddOverflow (a b : Word) : ovfAdd a b = a.saddOverflow b := by
  rw [Bool.eq_iff_iff, ovfAdd, outsideSigned_iff, BitVec.saddOverflow]
  simp only [Bool.or_eq_true, decide_eq_true_eq]
  omega

/-- The model's test of a difference is the library's. -/
theorem ovfSub_eq_ssubOverflow (a b : Word) : ovfSub a b = a.ssubOverflow b := by
  rw [Bool.eq_iff_iff, ovfSub, outsideSigned_iff, BitVec.ssubOverflow]
  simp only [Bool.or_eq_true, decide_eq_true_eq]
  omega

theorem msb_eq_getLsbD (a : Word) : a.msb = a.getLsbD 31 := BitVec.msb_eq_getLsbD_last a

/-- A sum overflows when its operands have one sign and it has the other. -/
theorem ovfAdd_iff_signBits (a b : Word) :
    ovfAdd a b = true ↔ a.getLsbD 31 = b.getLsbD 31 ∧ (a + b).getLsbD 31 ≠ a.getLsbD 31 := by
  rw [ovfAdd_eq_saddOverflow, BitVec.saddOverflow_eq]
  simp [msb_eq_getLsbD]

/-- A difference overflows when its operands differ in sign and it does not have the sign of the first. -/
theorem ovfSub_iff_signBits (a b : Word) :
    ovfSub a b = true ↔ a.getLsbD 31 ≠ b.getLsbD 31 ∧ (a - b).getLsbD 31 ≠ a.getLsbD 31 := by
  rw [ovfSub_eq_ssubOverflow, BitVec.ssubOverflow_eq]
  simp only [msb_eq_getLsbD]
  cases a.getLsbD 31 <;> cases b.getLsbD 31 <;> simp

/-- Settles O6: `ovfAdd` and `ovfSub` are the tests by the range, and agree with those by the sign bits. -/
theorem overflowBySignBits : Obligations.OverflowBySignBits := by
  intro a b
  have hadd := outsideSigned_iff (a.toInt + b.toInt)
  have hsub := outsideSigned_iff (a.toInt - b.toInt)
  exact ⟨hadd.symm.trans (ovfAdd_iff_signBits a b), hsub.symm.trans (ovfSub_iff_signBits a b), hadd, hsub⟩

/-- A checked instruction whose exact result is `n`: it writes `n` where `n` fits, and halts where it does not. -/
theorem checkedWrite_exact (n : Int) (word : Word) (d : RegIdx) (s : State) :
    ∃ t, checkedWrite (outsideSigned n) word d (BitVec.ofInt 32 n) s = .next t ∧
      if -2 ^ 31 ≤ n ∧ n ≤ 2 ^ 31 - 1 then WritesReg s t d (BitVec.ofInt 32 n)
      else HaltsWith s t (.overflow word) word := by
  split_ifs with hn
  · have hfits : ¬ outsideSigned n = true := fun ho => (outsideSigned_iff n).mp ho hn
    exact writesReg_of_next (if_neg hfits) rfl
  · exact halts_of_raise (if_pos ((outsideSigned_iff n).mpr hn))

theorem execAdd_eq_checkedWrite (f : RType) (s : State) :
    exec (.add f) s = checkedWrite (outsideSigned ((s.x f.rs).toInt + (s.x f.rt).toInt)) (encode (.add f)) f.rd
      (BitVec.ofInt 32 ((s.x f.rs).toInt + (s.x f.rt).toInt)) s := by
  rw [← add_eq_ofInt_toInt]
  rfl

theorem execSub_eq_checkedWrite (f : RType) (s : State) :
    exec (.sub f) s = checkedWrite (outsideSigned ((s.x f.rs).toInt - (s.x f.rt).toInt)) (encode (.sub f)) f.rd
      (BitVec.ofInt 32 ((s.x f.rs).toInt - (s.x f.rt).toInt)) s := by
  rw [← sub_eq_ofInt_toInt]
  rfl

theorem execAddi_eq_checkedWrite (g : IType) (s : State) :
    exec (.addi g) s = checkedWrite (outsideSigned ((s.x g.rs).toInt + g.imm.toInt)) (encode (.addi g)) g.rt
      (BitVec.ofInt 32 ((s.x g.rs).toInt + g.imm.toInt)) s := by
  rw [← simm_toInt, ← add_eq_ofInt_toInt]
  rfl

/-- Settles O2: each is the checked write of its exact integer result. -/
theorem checkedArithmeticResults : Obligations.CheckedArithmeticResults := by
  refine ⟨?_, ?_, ?_, fun f g s => ⟨?add, ?sub, ?addi⟩⟩
  case add => exact execAdd_eq_checkedWrite f s ▸ checkedWrite_exact _ _ _ s
  case sub => exact execSub_eq_checkedWrite f s ▸ checkedWrite_exact _ _ _ s
  case addi => exact execAddi_eq_checkedWrite g s ▸ checkedWrite_exact _ _ _ s
  · exact specialFunct_of_encode (fun _ => rfl) fun _ => rfl
  · exact specialFunct_of_encode (fun _ => rfl) fun _ => rfl
  · exact primaryOp_of_encode (fun _ => rfl) fun _ => rfl

/-! ## Logic (R144 to R147, R154 to R157) -/

theorem nor_getLsbD (a b : Word) {k : Nat} (hk : k < 32) :
    (~~~(a ||| b)).getLsbD k = !(a.getLsbD k || b.getLsbD k) := by
  rw [BitVec.getLsbD_not, BitVec.getLsbD_or, decide_eq_true hk, Bool.true_and]

/-- Settles O3: bit `k` of each result is the operation on the operands' bits `k`. -/
theorem bitwiseLogicResults : Obligations.BitwiseLogicResults := by
  refine ⟨⟨?_, ?_, ?_, ?_, ?_, ?_, ?_, ?_⟩, fun f g s => ⟨?and, ?or, ?xor, ?nor, ?andi, ?ori, ?xori, ?lui⟩⟩
  case and => exact writesReg_bits_of_next rfl fun k _ => BitVec.getLsbD_and
  case or => exact writesReg_bits_of_next rfl fun k _ => BitVec.getLsbD_or
  case xor => exact writesReg_bits_of_next rfl fun k _ => BitVec.getLsbD_xor
  case nor => exact writesReg_bits_of_next rfl fun k hk => nor_getLsbD _ _ hk
  case andi => exact writesReg_bits_of_next rfl fun k hk => zimm_getLsbD g.imm hk ▸ BitVec.getLsbD_and
  case ori => exact writesReg_bits_of_next rfl fun k hk => zimm_getLsbD g.imm hk ▸ BitVec.getLsbD_or
  case xori => exact writesReg_bits_of_next rfl fun k hk => zimm_getLsbD g.imm hk ▸ BitVec.getLsbD_xor
  case lui => exact writesReg_bits_of_next rfl fun k _ => limm_getLsbD g.imm k
  iterate 4 exact specialFunct_of_encode (fun _ => rfl) fun _ => rfl
  iterate 4 exact primaryOp_of_encode (fun _ => rfl) fun _ => rfl

/-! ## Compare (R148, R149, R152, R153) -/

theorem sltSigned_simm (a : Word) (imm : BitVec 16) :
    sltSigned a (simm imm) = if a.toInt < imm.toInt then 1#32 else 0#32 := by rw [sltSigned, simm_toInt]

/-- Settles O4: the comparison is that of the operands' integers, and `simm` stands for the immediate's. -/
theorem compareResults : Obligations.CompareResults := by
  refine ⟨⟨?_, ?_, ?_, ?_⟩, fun f g s => ⟨?slt, ?sltu, ?slti, ?sltiu⟩⟩
  case slt | sltu | sltiu => exact writesReg_of_next rfl rfl
  case slti => exact writesReg_of_next rfl (sltSigned_simm _ _)
  iterate 2 exact specialFunct_of_encode (fun _ => rfl) fun _ => rfl
  iterate 2 exact primaryOp_of_encode (fun _ => rfl) fun _ => rfl

/-! ## Shifts (R158 to R163) -/

theorem shiftAmount_eq_mod (a : Word) : shiftAmount a = a.toNat % 32 := BitVec.extractLsb'_toNat 0 5 a

theorem shiftLeft_eq_mul (b : Word) (n : Nat) : b <<< n = BitVec.ofNat 32 (b.toNat * 2 ^ n) := by
  apply BitVec.eq_of_toNat_eq
  rw [BitVec.toNat_shiftLeft, BitVec.toNat_ofNat, Nat.shiftLeft_eq]

theorem ushiftRight_eq_div (b : Word) (n : Nat) : b >>> n = BitVec.ofNat 32 (b.toNat / 2 ^ n) := by
  rw [← Nat.shiftRight_eq_div_pow, ← BitVec.toNat_ushiftRight, BitVec.ofNat_toNat, BitVec.setWidth_eq]

/-- The arithmetic shift rounds the quotient down. -/
theorem sshiftRight_eq_div (b : Word) (n : Nat) : b.sshiftRight n = BitVec.ofInt 32 (b.toInt / 2 ^ n) := by
  rw [BitVec.sshiftRight, Int.shiftRight_eq_div_pow]
  norm_cast

/-- Settles O5: each shift multiplies or divides by its power of two; a variable amount is the low five bits of `rs`. -/
theorem shiftResults : Obligations.ShiftResults := by
  refine ⟨⟨?_, ?_, ?_, ?_, ?_, ?_⟩, fun f s => ⟨?sll, ?srl, ?sra, ?sllv, ?srlv, ?srav⟩⟩
  case sll => exact writesReg_of_next rfl (shiftLeft_eq_mul _ _)
  case srl => exact writesReg_of_next rfl (ushiftRight_eq_div _ _)
  case sra => exact writesReg_of_next rfl (sshiftRight_eq_div _ _)
  case sllv => exact writesReg_of_next rfl (shiftAmount_eq_mod (s.x f.rs) ▸ shiftLeft_eq_mul _ _)
  case srlv => exact writesReg_of_next rfl (shiftAmount_eq_mod (s.x f.rs) ▸ ushiftRight_eq_div _ _)
  case srav => exact writesReg_of_next rfl (shiftAmount_eq_mod (s.x f.rs) ▸ sshiftRight_eq_div _ _)
  iterate 6 exact specialFunct_of_encode (fun _ => rfl) fun _ => rfl

end Sys2Proof.Machine
end

section
/-! PROOFS. Multiply and divide (42_muldiv.md): the two halves of an exact product, the rows of the divisions, and the
division identity of R189. -/

namespace Sys2Proof.Machine

/-! ## The write of `HI` and `LO` (10_state.md R32) -/

/-- Writing values equal to `h` and `l` writes `h` and `l`. -/
theorem writesHiLo_setHiLo {s : State} {h h' l l' : Word} (hh : h' = h) (hl : l' = l) :
    WritesHiLo s (s.setHiLo h' l') h l := by subst hh hl; rfl

/-! ## Products (R181, R182) -/

/-- Any integer of the signed 64-bit range is its two halves, the high one signed. -/
theorem signed_halves {p : Int} (hlo : -2 ^ 63 ≤ p) (hhi : p < 2 ^ 63) :
    (BitVec.ofInt 32 (p / 2 ^ 32)).toInt * 2 ^ 32 + (BitVec.ofInt 32 p).toNat = p := by
  rw [BitVec.toInt_ofInt_eq_self (by decide) (by omega) (by omega), BitVec.toNat_ofInt]
  omega

/-- Any natural number below 2^64 is its two halves. -/
theorem unsigned_halves {p : Nat} (hp : p < 2 ^ 64) :
    (BitVec.ofInt 32 ((p : Int) / 2 ^ 32)).toNat * 2 ^ 32 + (BitVec.ofInt 32 (p : Int)).toNat = p := by
  rw [BitVec.toNat_ofInt, BitVec.toNat_ofInt]
  omega

theorem execMultu_eq_setProduct (f : RType) (s : State) :
    exec (.multu f) s = setProduct ((s.x f.rs).toNat * (s.x f.rt).toNat : Nat) s := by
  rw [Int.natCast_mul]
  rfl

/-- Settles O7: a product of two words fits in 64 bits, so its halves lose nothing. -/
theorem multiplyResults : Obligations.MultiplyResults := by
  refine ⟨⟨?_, ?_⟩, fun f s => ⟨?mult, ?multu⟩⟩
  case mult =>
    have hlo : -2 ^ 62 ≤ (s.x f.rs).toInt * (s.x f.rt).toInt := BitVec.le_toInt_mul_toInt
    have hhi : (s.x f.rs).toInt * (s.x f.rt).toInt ≤ 2 ^ 62 := BitVec.toInt_mul_toInt_le
    exact ⟨_, rfl, rfl, signed_halves (by omega) (by omega)⟩
  case multu => exact ⟨_, execMultu_eq_setProduct f s, rfl, unsigned_halves BitVec.toNat_mul_toNat_lt⟩
  iterate 2 exact specialFunct_of_encode (fun _ => rfl) fun _ => rfl

/-! ## The rows of DIV (R183) -/

section DivRows
variable {n d : Word}

theorem divHi_zero (hd : d = 0#32) : divHi n d = n := if_pos hd

theorem divLo_zero (hd : d = 0#32) : divLo n d = if 0 ≤ n.toInt then 0xFFFFFFFF#32 else 0x00000001#32 := if_pos hd

theorem divHi_overflow (hx : n = 0x80000000#32 ∧ d = 0xFFFFFFFF#32) : divHi n d = 0#32 := by
  rw [divHi, if_neg (by simp [hx]), if_pos hx]

theorem divLo_overflow (hx : n = 0x80000000#32 ∧ d = 0xFFFFFFFF#32) : divLo n d = 0x80000000#32 := by
  rw [divLo, if_neg (by simp [hx]), if_pos hx]

variable (hd : d ≠ 0#32) (hx : ¬(n = 0x80000000#32 ∧ d = 0xFFFFFFFF#32))
include hd hx

theorem divHi_eq_tmod : divHi n d = BitVec.ofInt 32 (n.toInt.tmod d.toInt) := by
  rw [divHi, if_neg hd, if_neg hx, Int.tmod_def, Int.mul_comm]

theorem divLo_eq_tdiv : divLo n d = BitVec.ofInt 32 (n.toInt.tdiv d.toInt) := by
  rw [divLo, if_neg hd, if_neg hx]

/-- The remainder always fits in a word. -/
theorem divHi_toInt : (divHi n d).toInt = n.toInt.tmod d.toInt := by
  rw [divHi_eq_tmod hd hx, ← BitVec.toInt_srem, BitVec.ofInt_toInt]

/-- The one quotient that does not fit in a word is that of the excluded row. -/
theorem divLo_toInt : (divLo n d).toInt = n.toInt.tdiv d.toInt := by
  rw [divLo_eq_tdiv hd hx, BitVec.toInt_ofInt, ← BitVec.toInt_sdiv]
  exact BitVec.toInt_sdiv_of_ne_or_ne n d (not_and_or.1 hx)

end DivRows

/-! ## The rows of DIVU (R184) -/

section DivuRows
variable {n d : Word}

theorem divuHi_zero (hd : d = 0#32) : divuHi n d = n := if_pos hd

theorem divuLo_zero (hd : d = 0#32) : divuLo n d = 0xFFFFFFFF#32 := if_pos hd

theorem divuHi_toNat (hd : d ≠ 0#32) : (divuHi n d).toNat = n.toNat % d.toNat := by
  rw [divuHi, if_neg hd, ← BitVec.toNat_umod, BitVec.ofNat_toNat, BitVec.setWidth_eq]

theorem divuLo_toNat (hd : d ≠ 0#32) : (divuLo n d).toNat = n.toNat / d.toNat := by
  rw [divuLo, if_neg hd, ← BitVec.toNat_udiv, BitVec.ofNat_toNat, BitVec.setWidth_eq]

end DivuRows

/-- Settles O8: one case for each row of the tables of R183 and R184. -/
theorem divideResults : Obligations.DivideResults := by
  refine ⟨⟨?_, ?_⟩, fun f s => ⟨⟨_, rfl, ?div⟩, ⟨_, rfl, ?divu⟩⟩⟩
  case div =>
    split
    next hd => exact writesHiLo_setHiLo (divHi_zero hd) (divLo_zero hd)
    next hd =>
      split
      next hx => exact writesHiLo_setHiLo (divHi_overflow hx) (divLo_overflow hx)
      next hx => exact writesHiLo_setHiLo (divHi_eq_tmod hd hx) (divLo_eq_tdiv hd hx)
  case divu =>
    split
    next hd => exact writesHiLo_setHiLo (divuHi_zero hd) (divuLo_zero hd)
    next hd => exact ⟨divuHi_toNat hd, divuLo_toNat hd, rfl⟩
  iterate 2 exact specialFunct_of_encode (fun _ => rfl) fun _ => rfl

/-! ## The division identity (R189) -/

theorem abs_tmod_lt_abs (a : Int) {b : Int} (hb : b ≠ 0) : |a.tmod b| < |b| := by
  rw [Int.abs_eq_natAbs, Int.abs_eq_natAbs, Int.natAbs_tmod]
  exact_mod_cast Nat.mod_lt _ (Int.natAbs_pos.2 hb)

theorem tmod_nonpos {a : Int} (b : Int) (ha : a ≤ 0) : a.tmod b ≤ 0 := by
  have h := Int.tmod_nonneg b (Int.neg_nonneg_of_nonpos ha)
  rwa [Int.neg_tmod, Int.neg_nonneg] at h

theorem execDiv_hi_lo {f : RType} {s t : State} (h : exec (.div f) s = .next t) :
    t.hi = divHi (s.x f.rs) (s.x f.rt) ∧ t.lo = divLo (s.x f.rs) (s.x f.rt) := by
  injection h with h
  exact h ▸ ⟨rfl, rfl⟩

/-- Settles O9: outside the special rows `LO` and `HI` are the integers' own quotient and remainder, rounded to zero. -/
theorem divisionIdentity : Obligations.DivisionIdentity := by
  intro f s t h hd hx
  obtain ⟨hhi, hlo⟩ := execDiv_hi_lo h
  have hd' : (s.x f.rt).toInt ≠ 0 := BitVec.toInt_ne.2 hd
  rw [hhi, hlo, divHi_toInt hd hx, divLo_toInt hd hx]
  exact ⟨(Int.tdiv_mul_add_tmod _ _).symm, abs_tmod_lt_abs _ hd', Int.tmod_nonneg _, tmod_nonpos _⟩

/-! ## The moves (R185 to R188) -/

/-- Settles O10: each move is one write of a whole register. -/
theorem hiLoMoveResults : Obligations.HiLoMoveResults := by
  refine ⟨⟨?_, ?_, ?_, ?_⟩, fun f s => ⟨?mfhi, ?mthi, ?mflo, ?mtlo⟩⟩
  case mfhi | mflo => exact writesReg_of_next rfl rfl
  case mthi | mtlo => exact ⟨_, rfl, rfl⟩
  iterate 4 exact specialFunct_of_encode (fun _ => rfl) fun _ => rfl

end Sys2Proof.Machine
end

section
/-! PROOFS. What the loads and stores of RAM, SCRATCH and BIOS work on: a word of memory by its bytes (20_memory.md R64), and
the merges of the unaligned accesses (43_load_store.md R209, R210, R214, R215) by fields and by bytes. -/

namespace Sys2Proof.Machine

/-! ## A word of memory by its bytes (20_memory.md R64) -/

section WordAt
variable {s : State} {p : Nat}

theorem wordAt_byte {k : Nat} (hk : k < 4) : (s.wordAt p).extractLsb' (8 * k) 8 = s.byteAt (p + k) := by
  apply BitVec.eq_of_getLsbD_eq
  intro i hi
  simp only [State.wordAt, BitVec.getLsbD_extractLsb', BitVec.getLsbD_append]
  interval_cases k <;> grind

theorem wordAt_byteZero : (s.wordAt p).extractLsb' 0 8 = s.byteAt p := wordAt_byte (k := 0) (by decide)

theorem wordAt_byteOne : (s.wordAt p).extractLsb' 8 8 = s.byteAt (p + 1) := wordAt_byte (k := 1) (by decide)

theorem wordAt_byteTwo : (s.wordAt p).extractLsb' 16 8 = s.byteAt (p + 2) := wordAt_byte (k := 2) (by decide)

theorem wordAt_byteThree : (s.wordAt p).extractLsb' 24 8 = s.byteAt (p + 3) := wordAt_byte (k := 3) (by decide)

theorem wordAt_lowHalf : (s.wordAt p).extractLsb' 0 16 = s.byteAt (p + 1) ++ s.byteAt p := by
  rw [← wordAt_byteOne, ← wordAt_byteZero, field_join _ (by decide)]

theorem wordAt_lowThree : (s.wordAt p).extractLsb' 0 24 = s.byteAt (p + 2) ++ s.byteAt (p + 1) ++ s.byteAt p := by
  rw [← wordAt_byteTwo, ← wordAt_byteOne, field_join _ (by decide), ← wordAt_byteZero, field_join _ (by decide)]

theorem wordAt_highHalf : (s.wordAt p).extractLsb' 16 16 = s.byteAt (p + 3) ++ s.byteAt (p + 2) := by
  rw [← wordAt_byteThree, ← wordAt_byteTwo, field_join _ (by decide)]

theorem wordAt_highThree :
    (s.wordAt p).extractLsb' 8 24 = s.byteAt (p + 3) ++ (s.byteAt (p + 2) ++ s.byteAt (p + 1)) := by
  rw [← wordAt_byteThree, ← wordAt_byteTwo, ← wordAt_byteOne, field_join _ (by decide), field_join _ (by decide)]

end WordAt

/-- Two words with the same four bytes are one word. -/
theorem word_eq_of_bytes {x y : Word} (h : ∀ k < 4, x.extractLsb' (8 * k) 8 = y.extractLsb' (8 * k) 8) : x = y := by
  apply BitVec.eq_of_getLsbD_eq
  intro i hi
  have h8 : i % 8 < 8 := Nat.mod_lt i (by decide)
  have hb := congrArg (BitVec.getLsbD · (i % 8)) (h (i / 8) (by omega))
  simpa only [BitVec.getLsbD_extractLsb', Nat.div_add_mod, h8, decide_true, Bool.true_and] using hb

/-! ## The merges (R209, R210, R214, R215)

Each of them joins bytes of two words. From that follow its fields, for the statements about one instruction, and its
bytes, for the pairs. -/

/-- The low `n` bytes of `x` are the bytes of `lo` from byte `d` on, and those above them the bytes of `hi` from byte
`e` on. -/
def Joins {w : Nat} (x : BitVec w) (hi lo : Word) (n e d : Nat) : Prop :=
  ∀ k < w, x.getLsbD k = if k < 8 * n then lo.getLsbD (k + 8 * d) else hi.getLsbD (k - 8 * n + 8 * e)

section Joins
variable {hi lo : Word} {m n e d : Nat}

theorem Joins.eq_append {x : BitVec (8 * m + 8 * n)} (h : Joins x hi lo n e d) :
    x = hi.extractLsb' (8 * e) (8 * m) ++ lo.extractLsb' (8 * d) (8 * n) := by
  apply BitVec.eq_of_getLsbD_eq
  intro k hk
  rw [h k hk, BitVec.getLsbD_append, BitVec.getLsbD_extractLsb', BitVec.getLsbD_extractLsb']
  split_ifs with hn
  · simp [hn, Nat.add_comm]
  · simp [show k - 8 * n < 8 * m by omega, Nat.add_comm]

theorem Joins.byte {x : Word} (h : Joins x hi lo n e d) {j : Nat} (hj : j < 4) :
    x.extractLsb' (8 * j) 8 =
      if j < n then lo.extractLsb' (8 * (j + d)) 8 else hi.extractLsb' (8 * (j - n + e)) 8 := by
  apply BitVec.eq_of_getLsbD_eq
  intro k hk
  rw [BitVec.getLsbD_extractLsb', h _ (by omega)]
  by_cases hjn : j < n
  · rw [if_pos hjn, if_pos (by omega), BitVec.getLsbD_extractLsb']
    congr 2
    omega
  · rw [if_neg hjn, if_neg (by omega), BitVec.getLsbD_extractLsb']
    congr 2
    omega

theorem joins_shiftLeft {x y mask : Word} (hm : ∀ k < 32, mask.getLsbD k = decide (k < 8 * n)) :
    Joins (x &&& mask ||| y <<< (8 * n)) y x n 0 0 := by
  intro k hk
  simp only [BitVec.getLsbD_or, BitVec.getLsbD_and, BitVec.getLsbD_shiftLeft, hm k hk, hk]
  split_ifs with h <;> simp [h]

theorem joins_ushiftRight {x y mask : Word} (hnd : n + d = 4) (hm : ∀ k < 32, mask.getLsbD k = decide (8 * n ≤ k)) :
    Joins (x &&& mask ||| y >>> (8 * d)) x y n n d := by
  intro k hk
  simp only [BitVec.getLsbD_or, BitVec.getLsbD_and, BitVec.getLsbD_ushiftRight, hm k hk]
  split_ifs with h
  · simp [show ¬ 8 * n ≤ k by omega, Nat.add_comm]
  · have hy : y.getLsbD (8 * d + k) = false := BitVec.getLsbD_of_ge _ _ (by omega)
    simp [show 8 * n ≤ k by omega, hy]

theorem joins_zero {x y : Word} : Joins x x y 0 0 d := fun k _ => by simp

theorem joins_four {x y : Word} : Joins x y x 4 e 0 := fun k hk => by simp [hk]

end Joins

theorem byteIndex_lt (a : Word) : byteIndex a < 4 := Nat.mod_lt _ (by decide)

theorem byteIndex_cases (a : Word) : byteIndex a = 0 ∨ byteIndex a = 1 ∨ byteIndex a = 2 ∨ byteIndex a = 3 := by
  have := byteIndex_lt a
  omega

section Merges
variable {a cur mem v : Word} {i : Nat}

theorem mergeLwl_joins (hi : byteIndex a = i) : Joins (mergeLwl a cur mem) mem cur (3 - i) 0 0 := by
  subst hi
  obtain h | h | h | h := byteIndex_cases a <;> simp only [mergeLwl, h]
  · exact joins_shiftLeft (n := 3) (by decide)
  · exact joins_shiftLeft (n := 2) (by decide)
  · exact joins_shiftLeft (n := 1) (by decide)
  · exact joins_zero

theorem mergeLwr_joins (hi : byteIndex a = i) : Joins (mergeLwr a cur mem) cur mem (4 - i) (4 - i) i := by
  subst hi
  obtain h | h | h | h := byteIndex_cases a <;> simp only [mergeLwr, h]
  · exact joins_four
  · exact joins_ushiftRight (n := 3) (d := 1) rfl (by decide)
  · exact joins_ushiftRight (n := 2) (d := 2) rfl (by decide)
  · exact joins_ushiftRight (n := 1) (d := 3) rfl (by decide)

theorem mergeSwl_joins (hi : byteIndex a = i) : Joins (mergeSwl a mem v) mem v (i + 1) (i + 1) (3 - i) := by
  subst hi
  obtain h | h | h | h := byteIndex_cases a <;> simp only [mergeSwl, h]
  · exact joins_ushiftRight (n := 1) (d := 3) rfl (by decide)
  · exact joins_ushiftRight (n := 2) (d := 2) rfl (by decide)
  · exact joins_ushiftRight (n := 3) (d := 1) rfl (by decide)
  · exact joins_four

theorem mergeSwr_joins (hi : byteIndex a = i) : Joins (mergeSwr a mem v) v mem i 0 0 := by
  subst hi
  obtain h | h | h | h := byteIndex_cases a <;> simp only [mergeSwr, h]
  · exact joins_zero
  · exact joins_shiftLeft (n := 1) (by decide)
  · exact joins_shiftLeft (n := 2) (by decide)
  · exact joins_shiftLeft (n := 3) (by decide)

theorem mergeLwl_three (h : byteIndex a = 3) : mergeLwl a cur mem = mem := by simp [mergeLwl, h]

theorem mergeLwr_zero (h : byteIndex a = 0) : mergeLwr a cur mem = mem := by simp [mergeLwr, h]

theorem mergeSwl_three (h : byteIndex a = 3) : mergeSwl a mem v = v := by simp [mergeSwl, h]

theorem mergeSwr_zero (h : byteIndex a = 0) : mergeSwr a mem v = v := by simp [mergeSwr, h]

end Merges

end Sys2Proof.Machine
end

section
/-! PROOFS. Loads and stores in RAM, SCRATCH and BIOS (43_load_store.md): cache isolation, what each aligned and unaligned
access stages or stores, and the pairs of the unaligned ones. -/

namespace Sys2Proof.Machine

/-! ## Cache isolation (R201, R202) -/

section Isolated
variable {word : Word} {f : IType} {n : Width} {ext : Word → Word} {merge : Word → Word → Word → Word} {s : State}

theorem loadInstr_isolated (hi : s.isolated = true) : loadInstr word f n ext s = .next s := if_pos hi

theorem loadMerge_isolated (hi : s.isolated = true) : loadMerge word f merge s = .next s := if_pos hi

theorem storeInstr_isolated (hi : s.isolated = true) : storeInstr word f n s = .next s := if_pos hi

theorem storeMerge_isolated (hi : s.isolated = true) : storeMerge word f merge s = .next s := if_pos hi

end Isolated

/-- Settles O22: the isolation test comes first in each of the four shared bodies. -/
theorem isolatedAccessesDoNothing : Obligations.IsolatedAccessesDoNothing := by
  intro f s hi
  refine ⟨?lb, ?lbu, ?lh, ?lhu, ?lw, ?lwl, ?lwr, ?sb, ?sh, ?sw, ?swl, ?swr⟩
  case lb | lbu | lh | lhu | lw => exact loadInstr_isolated hi
  case lwl | lwr => exact loadMerge_isolated hi
  case sb | sh | sw => exact storeInstr_isolated hi
  case swl | swr => exact storeMerge_isolated hi

/-! ## Aligned loads (R203 to R207) -/

theorem sextWidth_byte (b : Byte) : sextWidth .byte (b.setWidth 32) = b.signExtend 32 := by simp [sextWidth]

theorem zextWidth_byte (b : Byte) : zextWidth .byte (b.setWidth 32) = b.setWidth 32 := by simp [zextWidth]

theorem sextWidth_half (h : BitVec 16) : sextWidth .half (h.setWidth 32) = h.signExtend 32 := by simp [sextWidth]

theorem zextWidth_half (h : BitVec 16) : zextWidth .half (h.setWidth 32) = h.setWidth 32 := by simp [zextWidth]

/-- A load that changes nothing itself: the answer is the state with the extended value staged. -/
theorem loadInstr_staged {word : Word} {f : IType} {n : Width} {ext : Word → Word} {s : State} {v w : Word}
    (hi : s.isolated = false) (hr : memRead s (effAddr f s) n = .ok v s) (hv : ext v = w) :
    loadInstr word f n ext s = .next { s with load := some (f.rt, w) } := hv ▸ loadInstr_ok hi hr

/-- Settles O11: each load finds the bytes at its address, and its extension sees those bytes alone. -/
theorem alignedLoadResults : Obligations.AlignedLoadResults := by
  refine ⟨⟨?_, ?_, ?_, ?_, ?_⟩, fun f s hi hm => ?loads⟩
  case loads =>
    obtain ⟨r, hr, hk⟩ := classify_of_isMemoryAddress hm
    refine ⟨add_simm_eq_ofInt_toNat _ _, ?lb, ?lbu, fun h2 => ⟨?lh, ?lhu⟩, fun h4 => ?lw⟩
    case lb => exact loadInstr_staged hi (memRead_byteAt hr hk) (sextWidth_byte _)
    case lbu => exact loadInstr_staged hi (memRead_byteAt hr hk) (zextWidth_byte _)
    case lh => exact loadInstr_staged hi (memRead_halfAt h2 hr hk) (sextWidth_half _)
    case lhu => exact loadInstr_staged hi (memRead_halfAt h2 hr hk) (zextWidth_half _)
    case lw => exact loadInstr_staged hi (memRead_wordAt h4 hr hk) rfl
  iterate 5 exact primaryOp_of_encode (fun _ => rfl) fun _ => rfl

/-! ## Unaligned loads (R209, R210) -/

theorem wordAddr_mod_four (a : Word) : (wordAddr a).toNat % 4 = 0 := by
  rw [wordAddr_toNat]
  omega

/-- LWL and LWR in a memory window. -/
theorem loadMerge_memory {word : Word} {f : IType} {merge : Word → Word → Word → Word} {s : State}
    (hi : s.isolated = false) (hm : isMemoryAddress (physicalOf (wordAddr (effAddr f s))) = true) :
    loadMerge word f merge s = .next (s.stage f.rt
      (merge (effAddr f s) (s.xo f.rt) (s.wordAt (physicalOf (wordAddr (effAddr f s)))))) := by
  obtain ⟨r, hr, hk⟩ := classify_of_isMemoryAddress hm
  exact loadMerge_ok hi (memRead_wordAt (wordAddr_mod_four _) hr hk)

/-- Settles O12: the fields that each merge joins, with those of the aligned word as bytes of memory. -/
theorem unalignedLoadResults : Obligations.UnalignedLoadResults := by
  refine ⟨⟨?_, ?_⟩, fun f s hi hm => ⟨⟨_, loadMerge_memory hi hm, ?lwl⟩, ⟨_, loadMerge_memory hi hm, ?lwr⟩⟩⟩
  case lwl =>
    refine ⟨fun h => ?_, fun h => ?_, fun h => ?_, fun h => mergeLwl_three h⟩
    · rw [← wordAt_byteZero]
      exact (mergeLwl_joins h).eq_append (m := 1) (n := 3)
    · rw [← wordAt_lowHalf]
      exact (mergeLwl_joins h).eq_append (m := 2) (n := 2)
    · rw [← wordAt_lowThree]
      exact (mergeLwl_joins h).eq_append (m := 3) (n := 1)
  case lwr =>
    refine ⟨fun h => mergeLwr_zero h, fun h => ?_, fun h => ?_, fun h => ?_⟩
    · rw [BitVec.append_assoc, BitVec.append_assoc, ← wordAt_highThree]
      exact (mergeLwr_joins h).eq_append (m := 1) (n := 3)
    · rw [BitVec.append_assoc, ← wordAt_highHalf]
      exact (mergeLwr_joins h).eq_append (m := 2) (n := 2)
    · rw [← wordAt_byteThree]
      exact (mergeLwr_joins h).eq_append (m := 3) (n := 1)
  iterate 2 exact primaryOp_of_encode (fun _ => rfl) fun _ => rfl

theorem byteIndex_add_three (b : Word) : byteIndex (b + 3#32) = (byteIndex b + 3) % 4 := by
  rw [byteIndex, byteIndex, BitVec.toNat_add, BitVec.toNat_ofNat]
  omega

/-- The merge of LWR over that of LWL, at the addresses of R210's pair: the bytes that LWR keeps are those that LWL
loaded. -/
theorem mergeLwr_mergeLwl {s : State} {b cur : Word} {p : Nat} (hp : p % 4 = byteIndex b) :
    mergeLwr b (mergeLwl (b + 3#32) cur (s.wordAt (p + 3 - byteIndex (b + 3#32)))) (s.wordAt (p - byteIndex b)) =
      s.wordAt p := by
  have hb := byteIndex_add_three b
  apply word_eq_of_bytes
  intro k hk
  rw [(mergeLwr_joins rfl).byte hk, wordAt_byte hk]
  split_ifs with hlow
  · rw [wordAt_byte (by omega)]
    congr 1
    omega
  · rw [(mergeLwl_joins hb).byte (by omega), if_neg (by omega), wordAt_byte (by omega)]
    congr 1
    omega

/-- LWR where a value is pending for its own register: it merges into that value (R210, 40_pipeline_cycle.md R123). -/
theorem execLwr_pending {f : IType} {s : State} (v : Word) (hi : s.isolated = false) (hrt : f.rt ≠ 0#5)
    (hm : isMemoryAddress (physicalOf (wordAddr (effAddr f s))) = true) :
    exec (.lwr f) (s.stage f.rt v).resolveLoad = .next ((s.stage f.rt v).resolveLoad.stage f.rt
      (mergeLwr (effAddr f s) v (s.wordAt (physicalOf (wordAddr (effAddr f s)))))) := by
  have hxo : (s.stage f.rt v).resolveLoad.xo f.rt = v := by simp [State.resolveLoad_xo, hrt]
  have h := loadMerge_memory (word := encode (.lwr f)) (merge := mergeLwr) (s := (s.stage f.rt v).resolveLoad) hi hm
  rwa [hxo] at h

/-- Settles O13: the load resolve leaves memory and the base register alone and hands the first merge to the second. -/
theorem lwlLwrPairLoadsUnalignedWord : Obligations.LwlLwrPairLoadsUnalignedWord := by
  intro base rt imm3 imm0 s hi hrt b hb3 hm hm3
  obtain ⟨hp, hb, hw0, hw3, hm0, hm3⟩ := unalignedWord_addresses hm hm3
  refine ⟨_, _, loadMerge_memory hi (hb3 ▸ hm3), execLwr_pending _ hi hrt hm0, congrArg (fun v => some (rt, v)) ?_⟩
  rw [hb3, hw0, hw3, ← hb]
  exact mergeLwr_mergeLwl hp

/-! ## Aligned stores (R211 to R213) -/

section WriteLE
variable {s : State} (p : Nat) (v : Word) (hm : Memory.wf s.mem = true)
include hm

theorem byteAt_writeLE_byte : ({ s with mem := s.mem.writeLE p 1 v } : State).byteAt p = v.setWidth 8 :=
  (byteAt_writeLE p 1 0 v hm (by decide)).trans (BitVec.setWidth_eq_extractLsb' (by decide)).symm

theorem halfAt_writeLE : ({ s with mem := s.mem.writeLE p 2 v } : State).halfAt p = v.setWidth 16 := by
  have h0 : ({ s with mem := s.mem.writeLE p 2 v } : State).byteAt p = v.extractLsb' 0 8 :=
    byteAt_writeLE p 2 0 v hm (by decide)
  have h1 : ({ s with mem := s.mem.writeLE p 2 v } : State).byteAt (p + 1) = v.extractLsb' 8 8 :=
    byteAt_writeLE p 2 1 v hm (by decide)
  rw [State.halfAt, h0, h1, field_join _ (by decide), BitVec.setWidth_eq_extractLsb' (by decide)]

/-- The bytes of memory after a word store. -/
theorem byteAt_writeLE_word (q : Nat) : ({ s with mem := s.mem.writeLE p 4 v } : State).byteAt q =
    if p ≤ q ∧ q < p + 4 then v.extractLsb' (8 * (q - p)) 8 else s.byteAt q := by
  split_ifs with hq
  · obtain ⟨k, rfl⟩ := Nat.exists_eq_add_of_le hq.1
    rw [byteAt_writeLE p 4 k v hm (by omega), Nat.add_sub_cancel_left]
  · exact (storesAt_writeLE s p 4 v hm).2 q (by omega)

end WriteLE

/-- Settles O14: each store writes its low bytes at its address. -/
theorem alignedStoreResults : Obligations.AlignedStoreResults := by
  refine ⟨⟨?_, ?_, ?_⟩, fun f s r hi hm hr hk => ⟨?sb, fun h2 => ?sh, fun h4 => ?sw⟩⟩
  case sb =>
    have hw := memWrite_storage s _ (s.x f.rt) .byte r (aligned_byte _) hr hk
    exact ⟨_, storeInstr_ok hi hw, storesAt_writeLE _ _ 1 _ hm, byteAt_writeLE_byte _ _ hm⟩
  case sh =>
    have hw := memWrite_storage s _ (s.x f.rt) .half r (aligned_of_mod h2) hr hk
    exact ⟨_, storeInstr_ok hi hw, storesAt_writeLE _ _ 2 _ hm, halfAt_writeLE _ _ hm⟩
  case sw =>
    have hw := memWrite_storage s _ (s.x f.rt) .word r (aligned_of_mod h4) hr hk
    exact ⟨_, storeInstr_ok hi hw, storesAt_writeLE _ _ 4 _ hm, wordAt_writeLE _ _ hm⟩
  iterate 3 exact primaryOp_of_encode (fun _ => rfl) fun _ => rfl

/-! ## Unaligned stores (R214, R215) -/

/-- SWL and SWR in RAM and SCRATCH. -/
theorem storeMerge_storage {word : Word} {f : IType} {merge : Word → Word → Word → Word} {s : State} {r : Range}
    (hi : s.isolated = false) (hr : classify (physicalOf (wordAddr (effAddr f s))) = some r)
    (hk : kindOf r.dev = .storage) :
    let p := physicalOf (wordAddr (effAddr f s))
    storeMerge word f merge s =
      .next { s with mem := s.mem.writeLE p 4 (merge (effAddr f s) (s.wordAt p) (s.x f.rt)) } :=
  storeMerge_ok hi (memRead_wordAt (wordAddr_mod_four _) hr (by simp [hk]))
    (memWrite_storage s _ _ .word r (aligned_wordAddr _) hr hk)

/-- Settles O15: the word read back is the merge, and its fields are those that the merge joins. -/
theorem unalignedStoreResults : Obligations.UnalignedStoreResults := by
  refine ⟨⟨?_, ?_⟩, fun f s r hi hm hr hk => ⟨⟨_, storeMerge_storage hi hr hk, storesAt_writeLE _ _ 4 _ hm, ?swl⟩,
    ⟨_, storeMerge_storage hi hr hk, storesAt_writeLE _ _ 4 _ hm, ?swr⟩⟩⟩
  case swl =>
    rw [wordAt_writeLE _ _ hm]
    exact ⟨fun h => (mergeSwl_joins h).eq_append (m := 3) (n := 1),
      fun h => (mergeSwl_joins h).eq_append (m := 2) (n := 2),
      fun h => (mergeSwl_joins h).eq_append (m := 1) (n := 3), fun h => mergeSwl_three h⟩
  case swr =>
    rw [wordAt_writeLE _ _ hm]
    exact ⟨fun h => mergeSwr_zero h, fun h => (mergeSwr_joins h).eq_append (m := 3) (n := 1),
      fun h => (mergeSwr_joins h).eq_append (m := 2) (n := 2),
      fun h => (mergeSwr_joins h).eq_append (m := 1) (n := 3)⟩
  iterate 2 exact primaryOp_of_encode (fun _ => rfl) fun _ => rfl

/-- Segment masking moves an address and the word that holds it alike. -/
theorem physicalOf_wordAddr_add (a : Word) : physicalOf (wordAddr a) + byteIndex a = physicalOf a := by
  have hw := wordAddr_toNat a
  rw [physicalOf_eq, physicalOf_eq, hw, byteIndex]
  split_ifs <;> omega

theorem rangeTable_base_mod_four : ∀ r ∈ rangeTable, r.base % 4 = 0 := by decide

/-- The word that holds an address of a window lies in that window: every window begins at a word. -/
theorem classify_wordAddr {a : Word} {r : Range} (hr : classify (physicalOf a) = some r) :
    classify (physicalOf (wordAddr a)) = some r := by
  obtain ⟨hmem, hb, ht⟩ := classify_some hr
  have hbase := rangeTable_base_mod_four r hmem
  have hp : physicalOf a % 4 = byteIndex a := physical_mod_four a
  have hw := physicalOf_wordAddr_add a
  exact classify_of_holds hmem ((r.holds_iff _).2 (by omega))

section StoredMerge
variable {s : State} {a v : Word} {p : Nat} (hm : Memory.wf s.mem = true)
include hm

/-- The bytes of memory after SWL: the high bytes of the register, from the aligned word's first byte to the one
addressed. -/
theorem byteAt_mergeSwl (q : Nat) :
    ({ s with mem := s.mem.writeLE p 4 (mergeSwl a (s.wordAt p) v) } : State).byteAt q =
      if p ≤ q ∧ q ≤ p + byteIndex a then v.extractLsb' (8 * (q + 3 - (p + byteIndex a))) 8 else s.byteAt q := by
  have hlt := byteIndex_lt a
  rw [byteAt_writeLE_word _ _ hm]
  by_cases hq : p ≤ q ∧ q < p + 4
  · rw [if_pos hq, (mergeSwl_joins rfl).byte (by omega)]
    by_cases hs : q ≤ p + byteIndex a
    · rw [if_pos (by omega), if_pos (by omega)]
      congr 2
      omega
    · rw [if_neg (by omega), if_neg (by omega), wordAt_byte (by omega)]
      congr 1
      omega
  · rw [if_neg hq, if_neg (by omega)]

/-- The bytes of memory after SWR: the low bytes of the register, from the byte addressed to the aligned word's last. -/
theorem byteAt_mergeSwr (q : Nat) :
    ({ s with mem := s.mem.writeLE p 4 (mergeSwr a (s.wordAt p) v) } : State).byteAt q =
      if p + byteIndex a ≤ q ∧ q < p + 4 then v.extractLsb' (8 * (q - (p + byteIndex a))) 8 else s.byteAt q := by
  rw [byteAt_writeLE_word _ _ hm]
  by_cases hq : p ≤ q ∧ q < p + 4
  · rw [if_pos hq, (mergeSwr_joins rfl).byte (by omega)]
    by_cases hs : q < p + byteIndex a
    · rw [if_pos (by omega), if_neg (by omega), wordAt_byte (by omega)]
      congr 1
      omega
    · rw [if_neg (by omega), if_pos (by omega)]
      congr 2
      omega
  · rw [if_neg hq, if_neg (by omega)]

end StoredMerge

section StorePair
variable {f : IType} {s : State} {r : Range}

/-- SWL stores the high bytes of the register, down from the byte addressed to the first of its word. -/
theorem execSwl_storage (hi : s.isolated = false) (hm : Memory.wf s.mem = true)
    (hr : classify (physicalOf (effAddr f s)) = some r) (hk : kindOf r.dev = .storage) :
    let p := physicalOf (effAddr f s)
    ∃ m, exec (.swl f) s = .next { s with mem := m } ∧ Memory.wf m = true ∧
      ∀ q, ({ s with mem := m } : State).byteAt q =
        if p - byteIndex (effAddr f s) ≤ q ∧ q ≤ p then (s.x f.rt).extractLsb' (8 * (q + 3 - p)) 8 else s.byteAt q := by
  intro p
  have hp := physicalOf_wordAddr_add (effAddr f s)
  refine ⟨_, storeMerge_storage hi (classify_wordAddr hr) hk, Memory.writeLE_wf _ _ _ _ hm, fun q => ?_⟩
  rw [byteAt_mergeSwl hm, hp, Nat.eq_sub_of_add_eq hp]

/-- SWR stores the low bytes of the register, up from the byte addressed to the last of its word. -/
theorem execSwr_storage (hi : s.isolated = false) (hm : Memory.wf s.mem = true)
    (hr : classify (physicalOf (effAddr f s)) = some r) (hk : kindOf r.dev = .storage) :
    let p := physicalOf (effAddr f s)
    ∃ m, exec (.swr f) s = .next { s with mem := m } ∧
      ∀ q, ({ s with mem := m } : State).byteAt q =
        if p ≤ q ∧ q < p - byteIndex (effAddr f s) + 4 then (s.x f.rt).extractLsb' (8 * (q - p)) 8 else s.byteAt q := by
  intro p
  have hp := physicalOf_wordAddr_add (effAddr f s)
  refine ⟨_, storeMerge_storage hi (classify_wordAddr hr) hk, fun q => ?_⟩
  rw [byteAt_mergeSwr hm, hp, Nat.eq_sub_of_add_eq hp]

end StorePair

/-- Four bytes of memory that are those of `v`, and no other byte changed: a word stored at `p`. -/
theorem storesWord_of_bytes {s : State} {m : Memory} {p : Nat} {v : Word}
    (hb : ∀ q, ({ s with mem := m } : State).byteAt q =
      if p ≤ q ∧ q < p + 4 then v.extractLsb' (8 * (q - p)) 8 else s.byteAt q) :
    StoresAt s { s with mem := m } p 4 ∧ ({ s with mem := m } : State).wordAt p = v := by
  refine ⟨⟨rfl, fun q hq => ?_⟩, word_eq_of_bytes fun k hk => ?_⟩
  · rw [hb q, if_neg (by omega)]
  · rw [wordAt_byte hk, hb, if_pos (by omega), Nat.add_sub_cancel_left]

theorem isMemoryAddress_of_storage {p : Nat} {r : Range} (hr : classify p = some r) (hk : kindOf r.dev = .storage) :
    isMemoryAddress p = true := by simp [isMemoryAddress, hr, hk]

/-- The last of four bytes in memory follows the first by 3. -/
theorem physicalOf_add_three {b : Word} (h : isMemoryAddress (physicalOf b) = true)
    (h3 : isMemoryAddress (physicalOf (b + 3#32)) = true) : physicalOf (b + 3#32) = physicalOf b + 3 := by
  obtain ⟨-, hb, -, hw3, -, -⟩ := unalignedWord_addresses h h3
  have hadd := physicalOf_wordAddr_add (b + 3#32)
  rw [byteIndex] at hadd
  omega

/-- At the addresses of R215's pair, the bytes that SWR stores from `p` up and SWL from `p + 3` down are the four from `p`
on. -/
theorem storedBytes_cover {p q : Nat} {b v : Word} {old : Byte} (hp : p % 4 = byteIndex b) :
    (if p ≤ q ∧ q < p - byteIndex b + 4 then v.extractLsb' (8 * (q - p)) 8
      else if p + 3 - byteIndex (b + 3#32) ≤ q ∧ q ≤ p + 3 then v.extractLsb' (8 * (q + 3 - (p + 3))) 8 else old) =
      if p ≤ q ∧ q < p + 4 then v.extractLsb' (8 * (q - p)) 8 else old := by
  have hi3 := byteIndex_add_three b
  by_cases hq : p ≤ q ∧ q < p + 4
  · rw [if_pos hq, Nat.add_sub_add_right]
    by_cases hlow : q < p - byteIndex b + 4
    · rw [if_pos ⟨hq.1, hlow⟩]
    · rw [if_neg (by omega), if_pos (by omega)]
  · rw [if_neg hq, if_neg (by omega), if_neg (by omega)]

/-- Settles O16: between them SWL, down from the last byte, and SWR, up from the first, store all four bytes. -/
theorem swlSwrPairStoresUnalignedWord : Obligations.SwlSwrPairStoresUnalignedWord := by
  intro base rt imm3 imm0 s r r' hi hm b hb3 hr hk hr3 hk3
  have hp3 := physicalOf_add_three (isMemoryAddress_of_storage hr hk) (isMemoryAddress_of_storage hr3 hk3)
  obtain ⟨m, hswl, hm', hbytes⟩ := execSwl_storage (f := ⟨base, rt, imm3⟩) hi hm (hb3 ▸ hr3) hk3
  obtain ⟨m', hswr, hbytes'⟩ := execSwr_storage (f := ⟨base, rt, imm0⟩) (s := { s with mem := m }) hi hm' hr hk
  refine ⟨_, _, hswl, hswr, storesWord_of_bytes fun q => ?_⟩
  rw [hb3, hp3] at hbytes
  rw [hbytes', hbytes]
  exact storedBytes_cover (physical_mod_four b)

end Sys2Proof.Machine
end

section
/-! PROOFS. Branches and jumps (44_branch_jump.md): what the twelve of them do, said once, and a step that runs one with its
delay slot. -/

namespace Sys2Proof.Machine

/-! ## Targets (R129, R231, R241) -/

theorem boff_eq_ofInt (imm : BitVec 16) : boff imm = BitVec.ofInt 32 (4 * imm.toInt) := by
  rw [boff, simm_eq_ofInt, BitVec.shiftLeft_eq_mul_twoPow, Int.mul_comm, BitVec.ofInt_mul]
  rfl

theorem branchTarget_eq_relativeTarget (p : Word) (imm : BitVec 16) : branchTarget p imm = relativeTarget p imm := by
  rw [branchTarget, relativeTarget, boff_eq_ofInt]
  ring

/-- From the tentative PC `a + 8`, the offset counts from the word after the branch. -/
theorem relativeTarget_add_eight (a : Word) (imm : BitVec 16) :
    relativeTarget (a + 8#32) imm = a + 4#32 + BitVec.ofInt 32 (4 * imm.toInt) := by
  rw [relativeTarget, add_sub_assoc]
  rfl

/-- From the tentative PC of a step, the offset counts from the `pc` before it. -/
theorem relativeTarget_add_four (p : Word) (imm : BitVec 16) :
    relativeTarget (p + 4#32) imm = p + BitVec.ofInt 32 (4 * imm.toInt) := by
  rw [relativeTarget, BitVec.add_sub_cancel]

theorem jtarget_eq_append (p : Word) (target : BitVec 26) :
    jtarget p target = p.extractLsb' 28 4 ++ target ++ 0#2 := by
  apply BitVec.eq_of_getLsbD_eq
  intro k hk
  simp only [jtarget, BitVec.getLsbD_append, BitVec.getLsbD_or, BitVec.getLsbD_and, BitVec.getLsbD_shiftLeft,
    BitVec.getLsbD_setWidth, BitVec.getLsbD_extractLsb']
  interval_cases k <;> simp

/-! ## Executing a branch or jump (R230 to R244) -/

/-- The link of a branch or jump, if it has one: the tentative PC in its link register (R232). -/
def State.linked (s : State) (i : Instr) : State :=
  match linkDest i with
  | some d => s.setReg d s.pc
  | none => s

theorem State.linked_frame (s : State) (i : Instr) : s.linked i = { s with output := (s.linked i).output } := by
  unfold State.linked
  split <;> rfl

section Linked
variable (s : State) (i : Instr)

@[simp] theorem State.linked_nextInstr : (s.linked i).nextInstr = s.nextInstr :=
  congrArg (·.nextInstr) (s.linked_frame i)

@[simp] theorem State.linked_halted : (s.linked i).halted = s.halted :=
  congrArg (·.halted) (s.linked_frame i)

@[simp] theorem State.linked_mem : (s.linked i).mem = s.mem :=
  congrArg (·.mem) (s.linked_frame i)

end Linked

theorem State.linked_xo {s : State} {i : Instr} {d : RegIdx} (h : linkDest i = some d) (hd : d ≠ 0#5) :
    (s.linked i).xo d = s.pc := by
  simp [State.linked, h, State.setReg_xo, hd]

/-- A branch writes `pc` always, if a branch that is not taken is said to write the tentative PC back. -/
theorem branchIf_eq_setPc {c : Bool} {P : Prop} [Decidable P] {imm : BitVec 16} {s : State} (hc : c = true ↔ P) :
    branchIf c imm s = .next (s.setPc (if P then relativeTarget s.pc imm else s.pc)) := by
  rw [branchIf, branchTarget_eq_relativeTarget]
  by_cases hP : P
  · rw [if_pos hP, if_pos (hc.2 hP)]
  · rw [if_neg hP, if_neg (mt hc.1 hP)]
    rfl

/-- Each of the twelve links, if it is one that does, and then goes to its target. -/
theorem exec_transfer {i : Instr} {s : State} {T : Word} (h : transferTarget s.x s.pc i = some T) :
    exec i s = .next ((s.linked i).setPc T) := by
  cases i with
  | beq f => cases h; exact branchIf_eq_setPc beq_iff_eq
  | bne f => cases h; exact (branchIf_eq_setPc bne_iff_ne).trans (by rw [ite_not]; rfl)
  | blez _ | bgtz _ | bltz _ _ | bgez _ _ | bltzal _ _ | bgezal _ _ =>
    cases h
    exact branchIf_eq_setPc decide_eq_true_iff
  | j target | jal target => cases h; rw [← jtarget_eq_append]; rfl
  | jr _ | jalr _ => cases h; rfl
  | _ => cases h

/-! ## Rows of the decoder's tables (R97, R100) -/

theorem decode_of_encode_eq {i : Instr} {w : Word} (hwf : i.WellFormed) (h : encode i = w) : decode w = .ok i :=
  h ▸ decodeOfEncode i hwf

/-- An instruction encoded under a REGIMM selector is what every word with that selector decodes to. -/
theorem regimmSelector_of_encode {sel : BitVec 5} {c : RegIdx → BitVec 16 → Instr} (hwf : ∀ rs imm, (c rs imm).WellFormed)
    (henc : ∀ rs imm, encode (c rs imm) = encodeRegimm sel rs imm) : RegimmSelector sel c :=
  fun _ hop hrt => decode_of_encode_eq (hwf _ _) ((henc _ _).trans (encodeRegimm_fields hop hrt))

/-- Settles O23: none of the six links, so only `pc` changes. -/
theorem conditionalBranchResults : Obligations.ConditionalBranchResults := by
  refine ⟨⟨primaryOp_of_encode (fun _ => rfl) (fun _ => rfl), primaryOp_of_encode (fun _ => rfl) (fun _ => rfl),
    primaryOp_of_encode (fun _ => rfl) (fun _ => rfl), primaryOp_of_encode (fun _ => rfl) (fun _ => rfl),
    regimmSelector_of_encode (fun _ _ => rfl) (fun _ _ => rfl),
    regimmSelector_of_encode (fun _ _ => rfl) (fun _ _ => rfl)⟩, ?_⟩
  intro f s a hs
  rw [← relativeTarget_add_eight, ← hs]
  exact ⟨exec_transfer rfl, exec_transfer rfl, exec_transfer rfl, exec_transfer rfl, exec_transfer rfl, exec_transfer rfl⟩

/-- Settles O24: the link is one register write, whatever the condition. -/
theorem linkingBranchResults : Obligations.LinkingBranchResults := by
  refine ⟨⟨regimmSelector_of_encode (fun _ _ => rfl) (fun _ _ => rfl),
    regimmSelector_of_encode (fun _ _ => rfl) (fun _ _ => rfl)⟩, ?_⟩
  intro rs imm s a hs
  rw [← relativeTarget_add_eight, ← hs]
  exact ⟨⟨_, _, exec_transfer rfl, writesReg_setReg s 31#5 s.pc, rfl⟩,
    ⟨_, _, exec_transfer rfl, writesReg_setReg s 31#5 s.pc, rfl⟩⟩

/-- Settles O25: J and JR change only `pc`; JAL and JALR also write their link register. -/
theorem jumpResults : Obligations.JumpResults := by
  refine ⟨⟨fun w hop => decode_of_encode_eq rfl (encodeJ_targetOf hop),
    fun w hop => decode_of_encode_eq rfl (encodeJ_targetOf hop),
    specialFunct_of_encode (fun _ => rfl) (fun _ => rfl), specialFunct_of_encode (fun _ => rfl) (fun _ => rfl)⟩, ?_⟩
  intro target f s a hs
  rw [← hs]
  exact ⟨exec_transfer rfl, ⟨_, _, exec_transfer rfl, writesReg_setReg s 31#5 s.pc, rfl⟩, exec_transfer rfl,
    ⟨_, _, exec_transfer rfl, writesReg_setReg s f.rd s.pc, rfl⟩⟩

/-! ## A step that runs a branch or jump (R230) -/

section Fetch
variable {s s' : State}

theorem fetch_memory (h4 : s.pc.toNat % 4 = 0) (hm : isMemoryAddress (physicalOf s.pc) = true) :
    fetch s = .ok (s.wordAt (physicalOf s.pc)) s := by
  obtain ⟨r, hr, hk⟩ := classify_of_isMemoryAddress hm
  exact memRead_wordAt h4 hr hk

/-- A step after which the machine runs on fetched from an aligned address. -/
theorem pc_aligned_of_running (h : step s = .next s') (hr : s'.running) : s.pc.toNat % 4 = 0 := by
  obtain ⟨w, t, i, u, hf, -⟩ := step_running h hr
  obtain ⟨ha, -⟩ := memRead_ok hf
  simpa [aligned, bytesOf] using ha

end Fetch

/-- The instruction reads the committed bank as it was before the step (R124). -/
theorem enterExecute_x (s : State) (w : Word) : (enterExecute s w).x = s.x := by
  funext j
  simp [State.x]

/-- The state after the step of a branch or jump `i` with target `T`, fetched from memory: the delay slot is latched. -/
def State.transferred (s : State) (i : Instr) (T : Word) : State :=
  (((enterExecute s (s.wordAt (physicalOf s.pc))).linked i).setPc T).commit

section Transferred
variable (s : State) (i : Instr) (T : Word)

@[simp] theorem State.transferred_pc : (s.transferred i T).pc = T := rfl

@[simp] theorem State.transferred_nextInstr : (s.transferred i T).nextInstr = s.wordAt (physicalOf s.pc) := by
  simp [State.transferred]

@[simp] theorem State.transferred_halted : (s.transferred i T).halted = s.halted := by
  simp [State.transferred]

@[simp] theorem State.transferred_mem : (s.transferred i T).mem = s.mem := by
  simp [State.transferred]

@[simp] theorem State.transferred_wordAt (p : Nat) : (s.transferred i T).wordAt p = s.wordAt p := by
  simp [State.wordAt, State.byteAt]

theorem State.transferred_x {d : RegIdx} (h : linkDest i = some d) (hd : d ≠ 0#5) :
    (s.transferred i T).x d = s.pc + 4#32 :=
  (State.linked_xo h hd).trans (enterExecute_pc s _)

end Transferred

section Step
variable {s s' : State} {i : Instr} {T : Word}

/-- The step of a branch or jump, fetched from an aligned address of memory. -/
theorem step_transfer (hr : s.running) (h4 : s.pc.toNat % 4 = 0) (hm : isMemoryAddress (physicalOf s.pc) = true)
    (hi : decode s.nextInstr = .ok i) (hT : transferTarget s.x (s.pc + 4#32) i = some T) :
    step s = .next (s.transferred i T) := by
  have he := exec_transfer (s := enterExecute s (s.wordAt (physicalOf s.pc)))
    (by rwa [enterExecute_x, enterExecute_pc])
  rw [step_of_execute hr (fetch_memory h4 hm) ((execute_of_decode hi).trans he)]
  exact congrArg _ (endStep_running ((State.transferred_halted s i T).trans hr))

/-- What a branch or jump left, if the machine runs on after its step. -/
theorem eq_transferred_of_step (h : step s = .next s') (hr : s'.running) (hm : isMemoryAddress (physicalOf s.pc) = true)
    (hi : decode s.nextInstr = .ok i) (hT : transferTarget s.x (s.pc + 4#32) i = some T) : s' = s.transferred i T := by
  obtain ⟨hs, -⟩ := step_next h
  exact next_eq ((step_transfer hs (pc_aligned_of_running h hr) hm hi hT).symm.trans h)

end Step

/-- Settles O56: the branch's step latches the delay slot, and the next step fetches from the target. -/
theorem takenBranchRunsItsDelaySlot : Obligations.TakenBranchRunsItsDelaySlot := by
  intro s s1 s2 f hi hx hm hmT h1 h2 hr2
  have hr1 : s1.running := (step_next h2).1
  rw [← relativeTarget_add_four] at hmT ⊢
  have hT : transferTarget s.x (s.pc + 4#32) (.beq f) = some (relativeTarget (s.pc + 4#32) f.imm) :=
    congrArg some (if_pos hx)
  obtain rfl := eq_transferred_of_step h1 hr1 hm hi hT
  have hlatch := latchHoldsTheWordFetchedBeforeExecution.1 _ s2 (by rwa [State.transferred_pc]) h2 hr2
  rw [State.transferred_pc, State.transferred_wordAt] at hlatch
  exact ⟨State.transferred_nextInstr s _ _, State.transferred_pc s _ _, hlatch⟩

/-- Settles O57: the step of `i` leaves the tentative PC of `k`'s step at T1 + 4, and memory as it was. -/
theorem branchInDelaySlotGoesFromTheFirstTarget : Obligations.BranchInDelaySlotGoesFromTheFirstTarget := by
  intro s s1 s2 i k T1 T2 hi hT1 hm hk hT2 hmT h1 h2 hr2
  have hr1 : s1.running := (step_next h2).1
  obtain rfl := eq_transferred_of_step h1 hr1 hm hi hT1
  obtain rfl := eq_transferred_of_step h2 hr2 hmT (by rwa [State.transferred_nextInstr]) hT2
  refine ⟨rfl, rfl, ?_, fun d => State.transferred_x _ k T2⟩
  rw [State.transferred_nextInstr, State.transferred_pc, State.transferred_wordAt]

/-- Settles O59: the jump's step leaves its target in `pc` unchecked, and the next fetch is misaligned. -/
theorem jumpToUnalignedTargetHalts : Obligations.JumpToUnalignedTargetHalts := by
  intro s f hr hi h4 hm hT
  have h1 : step s = .next (s.transferred (.jr f) (s.x f.rs)) := step_transfer hr h4 hm hi rfl
  have hr1 : (s.transferred (.jr f) (s.x f.rs)).running := (State.transferred_halted s _ _).trans hr
  obtain ⟨hfatal, hunaligned, -⟩ := fetchFatalChangesNothing _ hr1
  refine ⟨_, _, h1, hr1, hfatal _ (hunaligned hT), ?_⟩
  rw [State.transferred_nextInstr, State.transferred_pc]

end Sys2Proof.Machine
end

section
/-! PROOFS. Coprocessor 0 and the fatal words (45_cop0.md): the 18 fatal forms and their words, what MTC0 and MFC0 do, and
when a write of SR takes effect. -/

namespace Sys2Proof.Machine

/-! ## The fatal forms (R263 to R267) -/

/-- All 18 fatal forms do one thing, and read no operand and no SR for it. -/
theorem exec_fatalForm {i : Instr} (h : isFatalForm i = true) (s : State) :
    exec i s = .next (s.raise (.unimplemented (encode i)) (encode i)) := by
  cases i with
  | syscall _ | brk _ | cfc0 _ | ctc0 _ | bc0 _ _ | rfe _ | cop0Co _ | cop1 _ | cop2 _ | cop3 _ | lwc0 _ | lwc1 _
  | lwc2 _ | lwc3 _ | swc0 _ | swc1 _ | swc2 _ | swc3 _ => rfl
  | _ => cases h

/-- Settles O27: raising the fatal condition is all that a fatal form does. -/
theorem fatalFormsHalt : Obligations.FatalFormsHalt := fun _ s h => halts_of_raise (exec_fatalForm h s)

section FatalWords
variable {w : Word} {i : Instr}

/-- The word of a fatal form decodes to that form, so the record holds the word itself. -/
theorem execute_fatalForm (hwf : i.WellFormed) (hf : isFatalForm i = true) (hw : encode i = w) (s : State) :
    ∃ t, execute w s = .next t ∧ HaltsWith s t (.unimplemented w) w := by
  subst hw
  exact halts_of_raise ((execute_of_decode (decodeOfEncode i hwf)).trans (exec_fatalForm hf s))

theorem isFatalForm_decodeCo (w : Word) : isFatalForm (decodeCo w) = true := by
  unfold decodeCo
  split <;> rfl

/-- Of the COP0 words that decode, only those of MFC0 and MTC0 are no fatal forms (R101, R263). -/
theorem isFatalForm_of_decodeCop0 (h0 : copOf w ≠ 0#5) (h4 : copOf w ≠ 4#5) (h : decodeCop0 w = .ok i) :
    isFatalForm i = true := by
  unfold decodeCop0 at h
  split at h
  case isTrue => cases h; exact isFatalForm_decodeCo w
  case isFalse =>
    split at h
    case h_1 hcop => exact absurd hcop h0
    case h_3 hcop => exact absurd hcop h4
    case h_2 | h_4 | h_5 => cases h; rfl
    case h_6 => cases h

/-- A COP0 word that is neither an MFC0 nor an MTC0 stops the machine, whether it names a fatal form or nothing. -/
theorem execute_fatalCop0 (hop : opOf w = 0x10#6) (h0 : copOf w ≠ 0#5) (h4 : copOf w ≠ 4#5) (s : State) :
    ∃ t, execute w s = .next t ∧ HaltsWith s t (.unimplemented w) w := by
  cases hd : decode w with
  | error e => exact execute_of_decode_error hd s
  | ok i =>
    obtain ⟨henc, hwf⟩ := encodeOfDecode w i hd
    exact execute_fatalForm hwf (isFatalForm_of_decodeCop0 h0 h4 (decode_cop0 hop ▸ hd)) henc s

end FatalWords

/-- Settles O28: outside COP0 each opcode or function is the row of one fatal form, whatever the rest of the word holds. -/
theorem fatalWordsHalt : Obligations.FatalWordsHalt := by
  intro w s h
  obtain ⟨hop, h0, h4⟩ | hop | hop | hop | hop | hop | hop | hop | hop | hop | hop | hop | ⟨hop, hfn | hfn⟩ := h
  · exact execute_fatalCop0 hop h0 h4 s
  · exact execute_fatalForm (i := .cop1 _) rfl rfl (encodeJ_targetOf hop) s
  · exact execute_fatalForm (i := .cop2 _) rfl rfl (encodeJ_targetOf hop) s
  · exact execute_fatalForm (i := .cop3 _) rfl rfl (encodeJ_targetOf hop) s
  · exact execute_fatalForm (i := .lwc0 _) rfl rfl (encodeI_ofWord hop) s
  · exact execute_fatalForm (i := .lwc1 _) rfl rfl (encodeI_ofWord hop) s
  · exact execute_fatalForm (i := .lwc2 _) rfl rfl (encodeI_ofWord hop) s
  · exact execute_fatalForm (i := .lwc3 _) rfl rfl (encodeI_ofWord hop) s
  · exact execute_fatalForm (i := .swc0 _) rfl rfl (encodeI_ofWord hop) s
  · exact execute_fatalForm (i := .swc1 _) rfl rfl (encodeI_ofWord hop) s
  · exact execute_fatalForm (i := .swc2 _) rfl rfl (encodeI_ofWord hop) s
  · exact execute_fatalForm (i := .swc3 _) rfl rfl (encodeI_ofWord hop) s
  · exact execute_fatalForm (i := .syscall _) rfl rfl (codeWord_fields hop hfn) s
  · exact execute_fatalForm (i := .brk _) rfl rfl (codeWord_fields hop hfn) s

/-! ## The moves (R261, R262) -/

/-- An instruction encoded under a COP0 sub-opcode is what every COP0 word with that sub-opcode decodes to. -/
theorem cop0Sub_of_encode {cop : BitVec 5} {c : CopType → Instr} (hwf : ∀ f, (c f).WellFormed)
    (henc : ∀ f, encode (c f) = encodeCop cop f) : Cop0Sub cop c :=
  fun _ hop hcop => decode_of_encode_eq (hwf _) ((henc _).trans (encodeCop_ofWord hop hcop))

section Moves
variable {f : CopType} {s : State}

theorem exec_mtc0_status (hrd : f.rd = 12#5) : exec (.mtc0 f) s = .next { s with sr := s.x f.rt } := if_pos hrd

theorem exec_mtc0_zero (hrd : f.rd ≠ 12#5) (hz : s.x f.rt = 0#32) : exec (.mtc0 f) s = .next s :=
  (if_neg hrd).trans (if_pos hz)

theorem exec_mtc0_nonzero (hrd : f.rd ≠ 12#5) (hz : s.x f.rt ≠ 0#32) :
    exec (.mtc0 f) s = .next (s.raise (.cop0Write f.rd (s.x f.rt)) (encode (.mtc0 f))) :=
  (if_neg hrd).trans (if_neg hz)

theorem exec_mfc0_status (hrd : f.rd = 12#5) : exec (.mfc0 f) s = .next (s.stage f.rt s.sr) := if_pos hrd

theorem exec_mfc0_other (hrd : f.rd ≠ 12#5) :
    exec (.mfc0 f) s = .next (s.raise (.cop0Read f.rd) (encode (.mfc0 f))) := if_neg hrd

end Moves

/-- Settles O26: one case for each branch of the two rules, none of which reads SR bit 16. -/
theorem statusMoveResults : Obligations.StatusMoveResults := by
  refine ⟨⟨cop0Sub_of_encode (fun _ => rfl) fun _ => rfl, cop0Sub_of_encode (fun _ => rfl) fun _ => rfl⟩,
    fun f s => ⟨?mtc0, ?mfc0⟩⟩
  case mtc0 =>
    obtain ⟨t, ht⟩ := exec_next (.mtc0 f) s
    exact ⟨t, ht, fun hrd => next_eq ((exec_mtc0_status hrd).symm.trans ht),
      fun hrd hz => next_eq ((exec_mtc0_zero hrd hz).symm.trans ht),
      fun hrd hz => next_eq ((exec_mtc0_nonzero hrd hz).symm.trans ht)⟩
  case mfc0 =>
    obtain ⟨t, ht⟩ := exec_next (.mfc0 f) s
    exact ⟨t, ht, fun hrd => next_eq ((exec_mfc0_status hrd).symm.trans ht),
      fun hrd => next_eq ((exec_mfc0_other hrd).symm.trans ht)⟩

/-! ## A write of SR in a step (R261, R268) -/

/-- Settles O48: neither the fetch nor the load resolve touches SR, and MTC0 is the one instruction that does. -/
theorem statusChangesOnlyByMtc0 : Obligations.StatusChangesOnlyByMtc0 := by
  intro s s' h hr hne
  obtain ⟨w, t, i, u, hf, hi, he, rfl⟩ := step_running h hr
  obtain hsr | ⟨f, rfl, hrd, hsr⟩ := (exec_frame he).sr
  · rw [fetch_same hf] at hsr
    exact absurd (by simpa using hsr) hne
  · refine ⟨f, hi, hrd, hsr.trans ?_⟩
    rw [enterExecute_x, fetch_same hf]
    rfl

/-- Every store does nothing under isolation (R202). -/
theorem exec_isolatedStore {i : Instr} {s : State} (hst : isStore i = true) (hi : s.isolated = true) :
    exec i s = .next s := by
  cases i with
  | sb f | sh f | sw f => exact storeInstr_isolated hi
  | swl f | swr f => exact storeMerge_isolated hi
  | _ => cases hst

section Step
variable {s u : State} {i : Instr} {f : CopType}

/-- A step whose fetch reads memory and whose instruction does not stop the machine. -/
theorem step_of_exec (hr : s.running) (h4 : s.pc.toNat % 4 = 0) (hm : isMemoryAddress (physicalOf s.pc) = true)
    (hi : decode s.nextInstr = .ok i) (he : exec i (enterExecute s (s.wordAt (physicalOf s.pc))) = .next u)
    (hu : u.running) : step s = .next u.commit := by
  rw [step_of_execute hr (fetch_memory h4 hm) ((execute_of_decode hi).trans he), endStep_running hu]

/-- The step of an MTC0 to register 12 sets SR, latches the word at `pc` and touches neither memory nor a device. -/
theorem step_mtc0_status (hr : s.running) (h4 : s.pc.toNat % 4 = 0) (hm : isMemoryAddress (physicalOf s.pc) = true)
    (hi : decode s.nextInstr = .ok (.mtc0 f)) (hrd : f.rd = 12#5) :
    step s = .next { enterExecute s (s.wordAt (physicalOf s.pc)) with sr := s.x f.rt }.commit := by
  refine step_of_exec hr h4 hm hi ?_ ((enterExecute_halted _ _).trans hr)
  rw [exec_mtc0_status hrd, enterExecute_x]

/-- The step of a store under isolation is its fetch and its load resolve. -/
theorem step_isolatedStore (hr : s.running) (h4 : s.pc.toNat % 4 = 0) (hm : isMemoryAddress (physicalOf s.pc) = true)
    (hi : decode s.nextInstr = .ok i) (hst : isStore i = true) (hiso : s.isolated = true) :
    step s = .next (enterExecute s (s.wordAt (physicalOf s.pc))).commit := by
  refine step_of_exec hr h4 hm hi (exec_isolatedStore hst ?_) ((enterExecute_halted _ _).trans hr)
  rwa [State.isolated, enterExecute_sr]

end Step

/-- Settles O58: the MTC0's step leaves SR bit 16 set for the store's step, whose fetch is aligned 4 above the first. -/
theorem statusWriteSuppressesTheNextStore : Obligations.StatusWriteSuppressesTheNextStore := by
  intro s s1 s2 f i hi hrd hbit hm hk hst hm1 h1 h2
  obtain ⟨hr, -⟩ := step_next h1
  obtain ⟨hr1, -⟩ := step_next h2
  have h4 : s.pc.toNat % 4 = 0 := pc_aligned_of_running h1 hr1
  have h4' : (s.pc + 4#32).toNat % 4 = 0 := by
    rw [BitVec.toNat_add, BitVec.toNat_ofNat]
    omega
  obtain rfl := next_eq ((step_mtc0_status hr h4 hm hi hrd).symm.trans h1)
  have hstep := step_isolatedStore (i := i) hr1 (by simpa using h4') (by simpa using hm1) (by simpa using hk) hst hbit
  obtain rfl := next_eq (hstep.symm.trans h2)
  exact ⟨by simpa [State.running] using hr, by simp, by simp⟩

end Sys2Proof.Machine
end

section
/-! PROOFS. The host's accesses (60_exceptions.md R304): the Interconnect's own answers, returned to the host. -/

namespace Sys2Proof.Machine

section Answers
variable {s t : State} {addr v : Word} {n : Width} {r : Range} {e : FatalReason}

theorem hostLoad_ok (h : memRead s addr n = .ok v t) : hostLoad s addr n = .ok v t := congrArg Access.toHost h

theorem hostLoad_failed (h : memRead s addr n = .fatal e) : hostLoad s addr n = .failed e := congrArg Access.toHost h

theorem hostStore_ok (h : memWrite s addr n v = .ok () t) : hostStore s addr n v = .ok () t := congrArg Access.toHost h

theorem hostStore_failed (h : memWrite s addr n v = .fatal e) : hostStore s addr n v = .failed e :=
  congrArg Access.toHost h

/-- The host's load of RAM, SCRATCH or BIOS gives its bytes joined little-endian (R64, R66, R67). -/
theorem hostLoad_memory (ha : aligned addr n = true) (hc : classify (physicalOf addr) = some r)
    (hk : kindOf r.dev ≠ .external) :
    hostLoad s addr n = .ok (s.mem.readLE (physicalOf addr) (bytesOf n)) s :=
  hostLoad_ok (memRead_memory s addr n r ha hc hk)

/-- The host's load of a device is its answer and an event, or `WidthMismatch` (R68). -/
theorem hostLoad_external (ha : aligned addr n = true) (hc : classify (physicalOf addr) = some r)
    (hk : kindOf r.dev = .external) :
    let off := physicalOf addr - r.base
    hostLoad s addr n =
      if Config.deviceAccepts r.dev off n .load = true then
        .ok (zextWidth n (Config.deviceRead r.dev off n s.history)) { s with history := s.history ++ [.loaded r.dev off n] }
      else .failed (.widthMismatch r.dev off n .load) := by
  intro off
  have hm := memRead_external s addr n r ha hc hk
  split_ifs with hacc
  · exact hostLoad_ok (hm.trans (if_pos hacc))
  · exact hostLoad_failed (hm.trans (if_neg hacc))

/-- The host's store to a device is an event, or `WidthMismatch` (R68). -/
theorem hostStore_external (ha : aligned addr n = true) (hc : classify (physicalOf addr) = some r)
    (hk : kindOf r.dev = .external) :
    let off := physicalOf addr - r.base
    hostStore s addr n v =
      if Config.deviceAccepts r.dev off n .store = true then
        .ok () { s with history := s.history ++ [.stored r.dev off n (zextWidth n v)] }
      else .failed (.widthMismatch r.dev off n .store) := by
  intro off
  have hm := memWrite_external s addr v n r ha hc hk
  split_ifs with hacc
  · exact hostStore_ok (hm.trans (if_pos hacc))
  · exact hostStore_failed (hm.trans (if_neg hacc))

end Answers

/-- A store of any width is read back as the low bytes of its value (R66). -/
theorem readLE_writeLE (s : State) (p : Nat) (n : Width) (v : Word) (hm : Memory.wf s.mem = true) :
    (s.mem.writeLE p (bytesOf n) v).readLE p (bytesOf n) = zextWidth n v := by
  cases n with
  | byte => exact (readLE_one { s with mem := _ } p).trans (congrArg (BitVec.setWidth 32) (byteAt_writeLE_byte p v hm))
  | half => exact (readLE_two { s with mem := _ } p).trans (congrArg (BitVec.setWidth 32) (halfAt_writeLE p v hm))
  | word => exact (readLE_four { s with mem := _ } p).trans (wordAt_writeLE p v hm)

/-- Settles O60: neither access tests isolation, so each clause is the Interconnect's answer for its kind of window. -/
theorem hostAccessesIgnoreIsolation : Obligations.HostAccessesIgnoreIsolation := by
  intro s addr v n p
  refine ⟨fun ha => ⟨?loadMisaligned, ?storeMisaligned⟩, fun ha hc => ⟨?loadUnmapped, ?storeUnmapped⟩, fun r ha hc =>
    ⟨fun hk => ?loadMemory, fun hk hm => ?storeStorage, fun hk => ?storeBios, fun hk => ⟨?loadDevice, ?storeDevice⟩⟩⟩
  case loadMisaligned => exact hostLoad_failed (memRead_misaligned s addr n ha)
  case storeMisaligned => exact hostStore_failed (memWrite_misaligned s addr v n ha)
  case loadUnmapped => exact hostLoad_failed (memRead_unmapped s addr n ha hc)
  case storeUnmapped => exact hostStore_failed (memWrite_unmapped s addr v n ha hc)
  case loadMemory =>
    rw [hostLoad_memory ha hc hk]
    cases n with
    | byte => exact congrArg (HostAccess.ok · s) (readLE_one s p)
    | half => exact congrArg (HostAccess.ok · s) (readLE_two s p)
    | word => exact congrArg (HostAccess.ok · s) (readLE_four s p)
  case storeStorage =>
    refine ⟨_, hostStore_ok (memWrite_storage s addr v n r ha hc hk), storesAt_writeLE s p (bytesOf n) v hm, ?_⟩
    rw [hostLoad_memory ha hc (by simp [hk])]
    exact congrArg (HostAccess.ok · _) (readLE_writeLE s p n v hm)
  case storeBios => exact hostStore_failed (memWrite_readOnly s addr v n r ha hc hk)
  case loadDevice => exact hostLoad_external ha hc hk
  case storeDevice => exact hostStore_external ha hc hk

end Sys2Proof.Machine
end

section
/-! PROOFS. Power-on and the hazards of the load-delay slot (70_reset_and_hazards.md): what a step takes from the value
pending in the slot, an LW with an ADDU in its delay slot, the power-on state and its first step. -/

namespace Sys2Proof.Machine

/-! ## The value pending in the slot (R134, R315) -/

section PendingValue
variable {s t a : State} {w : Word} {i : Instr} (l : Option (RegIdx × Word))

/-- The fetch takes nothing from the slot. -/
theorem fetch_withLoad (h : fetch s = .ok w t) : fetch { s with load := l } = .ok w { t with load := l } := by
  have hm := memRead_output s s.output l s.pc .word
  rw [fetch] at h
  rw [h] at hm
  exact hm.trans (by rw [(memRead_frame h).same])

/-- What is pending reaches the instruction in the output bank alone (R123). -/
theorem enterExecute_withLoad (h : fetch s = .ok w t) : enterExecute { t with load := l } w =
    { enterExecute t w with output := State.output (State.resolveLoad { s with load := l }) } := by
  rw [enterExecute_eq (fetch_withLoad l h), enterExecute_eq h]

/-- A step that runs on does the same with anything else pending: its instruction runs from the same state `e` but for the
output bank. -/
theorem step_withLoad (hi : decode s.nextInstr = .ok i) (h : step s = .next a) (hr : a.running) :
    ∃ e u u', (∀ k, e.xo k = s.resolveLoad.xo k) ∧
      OutputFrame i e (State.output (State.resolveLoad { s with load := l })) u u' ∧
      a = u.commit ∧ step { s with load := l } = .next u'.commit := by
  have hrun : s.running := (step_next h).1
  obtain ⟨w, t, k, u, hf, hk, he, rfl⟩ := step_running h hr
  obtain rfl : i = k := by injection hi.symm.trans hk
  obtain ⟨u', he', hsame⟩ := exec_output i (enterExecute t w) _ u he
  have hx : execute s.nextInstr (enterExecute { t with load := l } w) = .next u' := by
    rw [execute_of_decode hi, enterExecute_withLoad l hf, he']
  have hu' : u'.running := by rw [hsame.same]; exact hr
  refine ⟨_, u, u', enterExecute_xo hf, hsame, rfl, ?_⟩
  rw [step_of_execute (s := { s with load := l }) hrun (fetch_withLoad l hf) hx, endStep_running hu']

end PendingValue

/-- A value pending for register `j` leaves every other register of the output bank as it was. -/
theorem resolveLoad_xo_of_ne (s : State) {j k : RegIdx} (v : Word) (h : k ≠ j) :
    State.xo (State.resolveLoad { s with load := some (j, v) }) k = s.xo k := by
  rw [State.resolveLoad_xo]
  exact if_neg fun hk => h hk.1

theorem rt_ne_of_not_mergesInto {i : Instr} {f : IType} {j : RegIdx} (hj : mergesInto j i = false)
    (hf : i = .lwl f ∨ i = .lwr f) : f.rt ≠ j := by
  obtain rfl | rfl := hf <;> simpa [mergesInto] using hj

/-! ## An LW and its delay slot -/

section LoadThenUse
variable {s s' t : State} {f : IType} {g : RType}

/-- An LW from memory that does not stop the machine stages the word it finds (R207). -/
theorem exec_lw_load (hiso : s.isolated = false) (hm : isMemoryAddress (physicalOf (effAddr f s)) = true)
    (h : exec (.lw f) s = .next t) (hr : t.running) : t.load = some (f.rt, s.wordAt (physicalOf (effAddr f s))) := by
  obtain ⟨hi, -⟩ | ⟨-, v, u, hread, rfl⟩ | ⟨-, r, -, rfl⟩ := loadInstr_next h
  · simp [hiso] at hi
  · obtain ⟨r, hc, hk⟩ := classify_of_isMemoryAddress hm
    obtain ⟨ha, -⟩ := memRead_ok hread
    have hword := memRead_wordAt (s := s) (by simpa [aligned, bytesOf] using ha) hc hk
    injection hread.symm.trans hword with hv
    rw [hv]
    rfl
  · simp [State.running] at hr

theorem effAddr_enterExecute (f : IType) (s : State) (w : Word) : effAddr f (enterExecute s w) = effAddr f s := by
  rw [effAddr, enterExecute_x, effAddr]

/-- After the step of an LW from memory, fetched from memory, its word is pending. -/
theorem step_lw_load (h : step s = .next s') (hr : s'.running) (hi : decode s.nextInstr = .ok (.lw f))
    (hiso : s.isolated = false) (hpc : isMemoryAddress (physicalOf s.pc) = true)
    (hm : isMemoryAddress (physicalOf (effAddr f s)) = true) :
    s'.load = some (f.rt, s.wordAt (physicalOf (effAddr f s))) := by
  have hfetch := fetch_memory (pc_aligned_of_running h hr) hpc
  obtain ⟨w, t, k, u, hf, hk, he, rfl⟩ := step_running h hr
  obtain rfl : Instr.lw f = k := by injection hi.symm.trans hk
  obtain rfl : s = t := by injection hfetch.symm.trans hf
  have hload := exec_lw_load (by rwa [State.isolated, enterExecute_sr]) (by rwa [effAddr_enterExecute]) he hr
  rw [effAddr_enterExecute] at hload
  simpa [State.wordAt, State.byteAt] using hload

/-- The step of an ADDU adds the registers as they were before it, whatever is pending (R124, R141). -/
theorem step_addu_x (h : step s = .next s') (hr : s'.running) (hi : decode s.nextInstr = .ok (.addu g))
    (hd : g.rd ≠ 0#5) : s'.x g.rd = s.x g.rs + s.x g.rt := by
  obtain ⟨w, t, k, u, hf, hk, he, rfl⟩ := step_running h hr
  obtain rfl : Instr.addu g = k := by injection hi.symm.trans hk
  have hx : (enterExecute t w).x = s.x := by
    rw [enterExecute_x, fetch_same hf]
    rfl
  rw [State.commit_x, next_eq he, State.setReg_xo, if_pos ⟨rfl, hd⟩, hx]

end LoadThenUse

/-- Settles O55: the LW leaves its word pending, which reaches the ADDU, as every instruction, in the output bank alone. -/
theorem loadDelaySlotReadsTheOldValue : Obligations.LoadDelaySlotReadsTheOldValue := by
  constructor
  case left =>
    intro s s1 s2 f g hiso hi hm hpc hk h1 h2 hr2
    have hr1 : s1.running := (step_next h2).1
    have hg : decode s1.nextInstr = .ok (.addu g) := by
      rwa [latchHoldsTheWordFetchedBeforeExecution.1 s s1 hpc h1 hr1]
    refine ⟨fun hinv hl j => ?kept, step_addu_x h2 hr2 hg, fun hrt hne => ?loaded⟩
    case kept =>
      by_contra hx
      obtain ⟨v, hv, -⟩ | ⟨k, hk, hd⟩ := registersChangeOnlyByTheirWriters s s1 j hinv h1 hr1 hx
      · simp [hl] at hv
      · obtain rfl : Instr.lw f = k := by injection hi.symm.trans hk
        cases hd
    case loaded =>
      refine pendingLoadIsCommitted s1 s2 f.rt _ h2 hr2 (step_lw_load h1 hr1 hi hiso hpc hm) hrt fun k hk hd => ?_
      obtain rfl : Instr.addu g = k := by injection hg.symm.trans hk
      injection hd with hd
      exact hne hd.symm
  case right =>
    intro s a b i j v v' hi ha hb hr
    obtain ⟨e, u, u', he, hsame, rfl, hstep⟩ :=
      step_withLoad (s := { s with load := some (j, v) }) (some (j, v')) hi ha hr
    obtain rfl := next_eq (hstep.symm.trans hb)
    have hother : ∀ k, k ≠ j → State.xo (State.resolveLoad { s with load := some (j, v') }) k = e.xo k := by
      intro k hk
      rw [he, resolveLoad_xo_of_ne s v' hk, resolveLoad_xo_of_ne s v hk]
    refine ⟨?same, fun hj => hsame.load fun f hf => hother _ (rt_ne_of_not_mergesInto hj hf),
      fun k hk => hsame.output k (hother k hk)⟩
    case same =>
      rw [hsame.same]
      rfl

/-! ## Power-on (R310, R312) -/

/-- Entry 0 apart, a free bank holds its draws. -/
theorem freeBank_getElem (b : Vector Word 32) {i : Fin 32} (h : i ≠ 0) : (freeBank b)[i] = b[i] := by
  have hi : ¬0 = i.val := fun h0 => h (Fin.ext h0.symm)
  simp [freeBank, hi]

theorem powerOn_inv {p : LaunchParams} (hwf : Memory.wf p.mem = true)
    (hmapped : ∀ c ∈ p.mem, isMemoryAddress c.1 = true) : (powerOn p).Inv where
  committedZero := Bank.zeroed_freeBank p.gpr
  outputZero := Bank.zeroed_freeBank p.gpr
  banksEqual := fun _ => rfl
  memoryCanonical := hwf
  memoryMapped := hmapped

/-- Settles O40: both banks are the free bank of the draws, and every other field is a fixed value or a launch input. -/
theorem powerOnState : Obligations.PowerOnState := fun p =>
  ⟨rfl, rfl, rfl, rfl, rfl, rfl, State.x_zero _, fun _ => freeBank_getElem p.gpr, rfl, rfl, rfl, rfl, powerOn_inv⟩

/-- The no-op, SLL of register 0 (R158), writes only register 0, which discards it. -/
theorem exec_nop (s : State) : exec (.sll ⟨0#5, 0#5, 0#5, 0#5⟩) s = .next s :=
  congrArg _ (s.setReg_zero (s.x 0#5 <<< 0))

theorem decode_nop : decode 0x00000000#32 = .ok (.sll ⟨0#5, 0#5, 0#5, 0#5⟩) := by decide

/-- The reset vector lies in KSEG1 and names the first word of BIOS (R52, R61). -/
theorem physicalOf_resetVector : physicalOf 0xBFC00000#32 = 0x1FC00000 := by decide

/-- Settles O41: the latched word 0 is the no-op, and nothing is pending, so the step is its fetch. -/
theorem firstStepAfterPowerOn : Obligations.FirstStepAfterPowerOn := by
  intro p
  have hm : isMemoryAddress (physicalOf (powerOn p).pc) = true :=
    (congrArg isMemoryAddress physicalOf_resetVector).trans (by decide)
  have h4 : (0xBFC00000#32 : Word).toNat % 4 = 0 := by decide
  have hstep := step_of_exec (s := powerOn p) rfl h4 hm decode_nop (exec_nop _) rfl
  rw [show physicalOf (powerOn p).pc = 0x1FC00000 from physicalOf_resetVector] at hstep
  exact hstep

end Sys2Proof.Machine
end

section
/-! PROOFS. The spec's example words (41_alu.md to 45_cop0.md): each decodes because it is the encoding of its
instruction. -/

namespace Sys2Proof.Machine

/-- Settles O32: each word is what its instruction encodes to, and `decode` inverts `encode` (O30). -/
theorem sampleWordsDecode : Obligations.SampleWordsDecode :=
  ⟨decode_of_encode_eq rfl rfl, decode_of_encode_eq rfl rfl, decode_of_encode_eq rfl rfl,
    decode_of_encode_eq rfl rfl, decode_of_encode_eq rfl rfl, decode_of_encode_eq rfl rfl,
    decode_of_encode_eq rfl rfl, decode_of_encode_eq rfl rfl, decode_of_encode_eq rfl rfl,
    decode_of_encode_eq rfl rfl, decode_of_encode_eq rfl rfl, decode_of_encode_eq rfl rfl⟩

end Sys2Proof.Machine
end
